-- ==== Sys2Proof/Word.lean ====
section
/-!
DEFINITION. The word types of the core (bytes of the text streams, the 72-bit operation word, the 68-bit response
word) and the enumerations the spec names (00_scope R9, R11).
-/

namespace Sys2Proof

/-- One byte of the command or response stream (20_memory R70). -/
abbrev Byte := BitVec 8

/-- An operation word OPW (30_encoding R100, R101). -/
abbrev OpWord := BitVec 72

/-- A response word RSP (30_encoding R104). -/
abbrev RspWord := BitVec 68

/-- The two axes (00_scope R11). -/
inductive Axis where
  | spindle
  | traverse
  deriving DecidableEq, Repr

/-- Step direction (00_scope R11). -/
inductive Dir where
  | forward
  | reverse
  deriving DecidableEq, Repr

/-- Commanded spindle direction (00_scope R11). -/
inductive SpinDir where
  | cw
  | ccw
  deriving DecidableEq, Repr

/-- How the spindle drive is to reach its new target: the mode of a SpindleDrive event (10_state R48(e)) and the
parameter M5_MODE. -/
inductive DriveMode where
  | ramp
  | cut
  deriving DecidableEq, Repr

/-- The ASCII bytes of a text (the response lines of 30_encoding R117 are ASCII). -/
def ascii (s : String) : List Byte := s.toList.map fun c => BitVec.ofNat 8 c.toNat

end Sys2Proof
end

