-- ==== Sys2Proof/Config.lean ====
section
/-!
DEFINITION. The configuration of the core: the open parameters of 00_scope section 4, when they are admissible
(00_scope R7), the test configuration CFG_T, and the free values: opaque constants with no body for what the spec
leaves without a value.
-/

namespace Sys2Proof

/-- The number format RpmNum of the RPM arithmetic (42_rpm_estimator R228): binary32 by default, exact rationals
(rounding is the identity), or any other rounding function, numbered. -/
inductive RpmFormat where
  | binary32
  | exact
  | custom (k : Nat)
  deriving DecidableEq, Repr

/-- The open parameters of 00_scope section 4, under the names of that table. N_AXES and the widths are fixed there
and are in the types. -/
structure Config where
  /-- CAP, ring capacity per axis, in chunks. -/
  cap : Nat
  /-- TS_HZ, timestamp units per second. -/
  tsHz : Nat
  /-- TICK_PERIOD_TS, nominal scheduler period in timestamp units. -/
  tickPeriodTs : Nat
  /-- EDGES_PER_REV, Hall transitions per spindle revolution. -/
  edgesPerRev : Nat
  /-- DEBOUNCE_TS, the debounce floor. -/
  debounceTs : Nat
  /-- EMA_ALPHA, smoothing weight of the new sample. -/
  emaAlpha : Rat
  /-- STALL_TIMEOUT_TS. -/
  stallTimeoutTs : Nat
  /-- HOMING_TIMEOUT_TS. -/
  homingTimeoutTs : Nat
  /-- HOME_DIR, direction of homing chunks. -/
  homeDir : Dir
  /-- HOME_CHUNK_STEPS, steps per homing chunk. -/
  homeChunkSteps : BitVec 32
  /-- HOME_DELAY, inter-step delay of homing chunks. -/
  homeDelay : BitVec 32
  /-- STEPS_PER_MM, traverse steps per millimetre. -/
  stepsPerMm : Rat
  /-- TRAVEL_MIN_MM. -/
  travelMinMm : Rat
  /-- TRAVEL_MAX_MM. -/
  travelMaxMm : Rat
  /-- MAX_RPM, largest accepted spindle target. -/
  maxRpm : Rat
  /-- MAX_FEED, largest accepted feed rate. -/
  maxFeed : Rat
  /-- DEFAULT_FEED, feed rate before any F word. -/
  defaultFeed : Rat
  /-- RPM_ZERO_EPS, what '~0' means for M999. -/
  rpmZeroEps : Rat
  /-- M5_MODE, whether M5 ramps or cuts. -/
  m5Mode : DriveMode
  /-- VERSION_STRING, the reply to VERSION. -/
  versionString : List Byte
  /-- LINE_MAX, longest accepted command line in bytes, without its terminator. -/
  lineMax : Nat
  /-- RpmNum. -/
  rpmFormat : RpmFormat
  deriving DecidableEq, Repr

/-- 00_scope R7: the configurations the rules give a meaning to. The upper bounds of HOME_CHUNK_STEPS and HOME_DELAY
are in their 32-bit type; the last line is the parameter table's 'printable ASCII without LF' (log entry 21). -/
def Config.admissible (c : Config) : Bool :=
  decide (1 ≤ c.cap ∧ 1 ≤ c.tsHz ∧ 1 ≤ c.tickPeriodTs ∧ 1 ≤ c.edgesPerRev ∧ 1 ≤ c.debounceTs ∧ 0 < c.emaAlpha ∧
    c.emaAlpha ≤ 1 ∧ c.homeChunkSteps ≠ 0#32 ∧ c.homeDelay ≠ 0#32 ∧ 0 < c.stepsPerMm ∧
    c.travelMinMm ≤ c.travelMaxMm ∧ 0 ≤ c.maxRpm ∧ 0 < c.defaultFeed ∧ c.defaultFeed ≤ c.maxFeed ∧
    0 ≤ c.rpmZeroEps ∧ 16 ≤ c.lineMax ∧ ∀ b ∈ c.versionString, 0x20#8 ≤ b ∧ b ≤ 0x7E#8)

/-- CFG_T, the test configuration (00_scope section 4, 92 D44). It is the one configuration the spec writes out;
State.reset takes it (DESIGN CHOICE, log entry 1). -/
def cfgT : Config where
  cap := 4
  tsHz := 1000000
  tickPeriodTs := 50
  edgesPerRev := 2
  debounceTs := 1000
  emaAlpha := mkRat 1 2
  stallTimeoutTs := 500000
  homingTimeoutTs := 10000000
  homeDir := .reverse
  homeChunkSteps := 4#32
  homeDelay := 10#32
  stepsPerMm := 80
  travelMinMm := 0
  travelMaxMm := 100
  maxRpm := 3000
  maxFeed := 6000
  defaultFeed := 1000
  rpmZeroEps := 0
  m5Mode := .ramp
  versionString := ascii "PUWINDER-CORE"
  lineMax := 96
  rpmFormat := .binary32

/-- FREE VALUE (log entry 11): the rounding function of a custom RpmNum format, any function (42 R228). -/
opaque Config.customRnd : Nat → Rat → Rat

/-- FREE VALUE (log entry 10): the 64-bit response value of GET_RPM in a custom format; 30_encoding R104 gives it for
binary32 only. -/
opaque Config.customRpmWord : Nat → Rat → BitVec 64

/-- FREE VALUE (log entry 10): the 64-bit response value of GET_RPM when RpmNum is the exact rationals. -/
opaque Config.exactRpmWord : Rat → BitVec 64

/-- FREE VALUE (log entry 9): the result of a binary32 rounding whose magnitude is 2^128 or more. 42 R228 says that it
cannot happen while 60 * TS_HZ is below 2^128, but from 2^128 - 2^103 on its rounding reaches it (log entry 26). -/
opaque Config.binary32Overflow : Rat → Rat

/-- FREE VALUE (log entry 23): the 64-bit response value of QUEUE_DEPTH for a depth of 2^64 or more; CAP has no upper
bound (00_scope R7), and 30_encoding R104 does not say how such a depth stands in 64 bits. -/
opaque Config.wideDepthWord : Nat → BitVec 64

/-- FREE VALUE (log entry 19): the response value for a stored speed that is no finite binary32 number; no rule stores
one while 60 * TS_HZ is below 2^128 - 2^103 (log entry 26). -/
opaque Config.binary32NoWord : Rat → BitVec 64

end Sys2Proof
end

