-- ==== Sys2Proof/Syntax.lean ====
section
/-!
DEFINITION. The instructions: one constructor of Instr for each row of spec/opcode_table.json, the 15 operation words
of Layer 1 (30_encoding R102) and the 15 command lines of Layer 2 (30_encoding R107 to R112).
-/

namespace Sys2Proof

/-- A decimal digit of a command line (30_encoding R108). -/
abbrev Digit := Fin 10

/-- A letter A to Z of a command line, numbered from 0 (30_encoding R108). -/
abbrev Letter := Fin 26

/-- The optional sign of a number (30_encoding R108). -/
inductive Sign where
  | none
  | plus
  | minus
  deriving DecidableEq, Repr

/-- A number as it is spelled: sign, digits before the point, digits after it; no digits after it means no point
(30_encoding R108). -/
structure Number where
  sign : Sign
  whole : List Digit
  frac : List Digit
  deriving DecidableEq, Repr

/-- A parameter token: a letter and a number (30_encoding R108, R112). -/
structure Param where
  letter : Letter
  num : Number
  deriving DecidableEq, Repr

/-- The instructions, one constructor per row of spec/opcode_table.json. -/
inductive Instr where
  -- Layer 1, operation words (30_encoding R102)
  | enqueue (a : Axis) (d : Dir) (count delay : BitVec 32)
  | pause (a : Axis)
  | resume (a : Axis)
  | estop (a : Axis)
  | home (a : Axis)
  | isActive (a : Axis)
  | queueDepth (a : Axis)
  | position (a : Axis)
  | getRpm
  | qstop (a : Axis)
  | clrEstop (a : Axis)
  | rdState (a : Axis)
  | estopAll
  | tick
  | hallEdge (ts : BitVec 64)
  -- Layer 2, command lines (30_encoding R110, R111)
  | g0 (ps : List Param)
  | g1 (ps : List Param)
  | g28 (ps : List Param)
  | g4 (ps : List Param)
  | m3 (ps : List Param)
  | m4 (ps : List Param)
  | m5 (ps : List Param)
  | m0 (ps : List Param)
  | m1 (ps : List Param)
  | m112 (ps : List Param)
  | m410 (ps : List Param)
  | m999 (ps : List Param)
  | status
  | ping
  | version
  deriving DecidableEq, Repr

/-- What carries an instruction: an operation word or the bytes of a line with its LF (30_encoding R100). -/
inductive Encoding where
  | word (w : OpWord)
  | line (bytes : List Byte)
  deriving DecidableEq, Repr

/-- Why bits are no instruction. -/
inductive Reject where
  /-- An illegal operation word (30_encoding R103); answered ERR_ILLEGAL_OP. -/
  | illegalWord
  /-- Bytes in which no LF has arrived yet (30_encoding R107); no line, nothing to answer. -/
  | incomplete
  /-- A line that is empty or holds only spaces and tabs (30_encoding R107); no response. -/
  | blank
  /-- A line that breaks the grammar (30_encoding R107 to R109); answered ERROR_MALFORMED. -/
  | malformed
  /-- A well-formed line whose command is none of the table's (30_encoding R110); answered ERROR_UNKNOWN_COMMAND. -/
  | unknownCommand
  deriving DecidableEq, Repr

/-- TICK and HALL_EDGE are events raised inside the core, never taken from the command port (30_encoding R102). -/
def Instr.isEvent : Instr → Bool
  | .tick => true
  | .hallEdge _ => true
  | .enqueue .. | .pause _ | .resume _ | .estop _ | .home _ | .isActive _ | .queueDepth _ | .position _ | .getRpm
  | .qstop _ | .clrEstop _ | .rdState _ | .estopAll
  | .g0 _ | .g1 _ | .g28 _ | .g4 _ | .m3 _ | .m4 _ | .m5 _ | .m0 _ | .m1 _ | .m112 _ | .m410 _ | .m999 _
  | .status | .ping | .version => false

end Sys2Proof
end

