-- ==== Sys2Proof/WellFormed.lean ====
section
/-!
DEFINITION. Which instructions have an encoding: every operand of an operation word fits its field by its type, and a
command line's parameters obey the grammar of 30_encoding R108 and its length limit R107.
-/

namespace Sys2Proof

/-- 30_encoding R108, R109: at least one digit, at most 18 in all. -/
def Number.wellFormed (n : Number) : Bool :=
  decide (n.whole ≠ []) && decide (n.whole.length + n.frac.length ≤ 18)

/-- 30_encoding R108: every number well formed, no letter twice in one line. -/
def paramsWellFormed (ps : List Param) : Bool :=
  ps.all (fun p => p.num.wellFormed) && decide (ps.map Param.letter).Nodup

/-- The bytes a number takes in its line. -/
def Number.spelledLength (n : Number) : Nat :=
  (if n.sign = .none then 0 else 1) + n.whole.length + (if n.frac = [] then 0 else 1 + n.frac.length)

/-- The bytes the parameters take in their line: a blank, a letter and a number each. -/
def paramsLength (ps : List Param) : Nat := (ps.map fun p => 2 + p.num.spelledLength).sum

/-- The parameters of a command line; the operation words and the keywords have none. -/
def Instr.params : Instr → List Param
  | .g0 ps | .g1 ps | .g28 ps | .g4 ps | .m3 ps | .m4 ps | .m5 ps | .m0 ps | .m1 ps | .m112 ps | .m410 ps
  | .m999 ps => ps
  | .enqueue .. | .pause _ | .resume _ | .estop _ | .home _ | .isActive _ | .queueDepth _ | .position _ | .getRpm
  | .qstop _ | .clrEstop _ | .rdState _ | .estopAll | .tick | .hallEdge _
  | .status | .ping | .version => []

/-- The bytes of a command's own token or keyword; an operation word has none. -/
def Instr.headLength : Instr → Nat
  | .g0 _ | .g1 _ | .g4 _ | .m3 _ | .m4 _ | .m5 _ | .m0 _ | .m1 _ => 2
  | .g28 _ => 3
  | .m112 _ | .m410 _ | .m999 _ => 4
  | .status => 6
  | .ping => 4
  | .version => 7
  | .enqueue .. | .pause _ | .resume _ | .estop _ | .home _ | .isActive _ | .queueDepth _ | .position _ | .getRpm
  | .qstop _ | .clrEstop _ | .rdState _ | .estopAll | .tick | .hallEdge _ => 0

/-- The bytes of the whole line without its terminator. -/
def Instr.spelledLength (i : Instr) : Nat := i.headLength + paramsLength i.params

/-- The instructions that can be written down on a machine with that LINE_MAX. -/
def Instr.wellFormed (lineMax : Nat) (i : Instr) : Bool :=
  paramsWellFormed i.params && decide (i.spelledLength ≤ lineMax)

end Sys2Proof
end

