-- ==== Sys2Proof/Decode.lean ====
section
/-!
DEFINITION. The decoder, total on every 72-bit word and every byte sequence, and after it the encoder
(30_encoding R100 to R112).
-/

namespace Sys2Proof

/-! ## Numbers of the enumerations (00_scope R11, 30_encoding R105) -/

def axisBit : Axis → BitVec 1
  | .spindle => 0#1
  | .traverse => 1#1

def axisOfBit (b : BitVec 1) : Axis := if b = 0#1 then .spindle else .traverse

def dirBit : Dir → BitVec 1
  | .forward => 0#1
  | .reverse => 1#1

def dirOfBit (b : BitVec 1) : Dir := if b = 0#1 then .forward else .reverse

/-! ## Fields of the operation word (30_encoding R101) -/

def opField (w : OpWord) : BitVec 4 := w.extractLsb' 68 4
def axisField (w : OpWord) : BitVec 1 := w.extractLsb' 67 1
def dirField (w : OpWord) : BitVec 1 := w.extractLsb' 66 1
def rsvField (w : OpWord) : BitVec 2 := w.extractLsb' 64 2
def arg0Field (w : OpWord) : BitVec 32 := w.extractLsb' 32 32
def arg1Field (w : OpWord) : BitVec 32 := w.extractLsb' 0 32

/-- 30_encoding R103: the fields an operation marked 'axis only' does not use are zero. -/
def axisOnly (w : OpWord) (f : Axis → Instr) : Except Reject Instr :=
  if dirField w = 0#1 ∧ arg0Field w = 0#32 ∧ arg1Field w = 0#32 then .ok (f (axisOfBit (axisField w)))
  else .error .illegalWord

/-- 30_encoding R103: an operation without operands leaves axis, dir and both arguments zero. -/
def noOperand (w : OpWord) (i : Instr) : Except Reject Instr :=
  if axisField w = 0#1 ∧ dirField w = 0#1 ∧ arg0Field w = 0#32 ∧ arg1Field w = 0#32 then .ok i
  else .error .illegalWord

/-- The operation a word stands for, whoever issues it (30_encoding R102, R103). -/
def decodeWord (w : OpWord) : Except Reject Instr :=
  if rsvField w ≠ 0#2 then .error .illegalWord
  else if opField w = 0x1#4 then
    .ok (.enqueue (axisOfBit (axisField w)) (dirOfBit (dirField w)) (arg0Field w) (arg1Field w))
  else if opField w = 0x2#4 then axisOnly w .pause
  else if opField w = 0x3#4 then axisOnly w .resume
  else if opField w = 0x4#4 then axisOnly w .estop
  else if opField w = 0x5#4 then axisOnly w .home
  else if opField w = 0x6#4 then axisOnly w .isActive
  else if opField w = 0x7#4 then axisOnly w .queueDepth
  else if opField w = 0x8#4 then axisOnly w .position
  else if opField w = 0x9#4 then noOperand w .getRpm
  else if opField w = 0xA#4 then axisOnly w .qstop
  else if opField w = 0xB#4 then axisOnly w .clrEstop
  else if opField w = 0xC#4 then axisOnly w .rdState
  else if opField w = 0xD#4 then noOperand w .estopAll
  else if opField w = 0xE#4 then noOperand w .tick
  else if opField w = 0xF#4 then
    -- R116: ts = {arg0, arg1}
    if axisField w = 0#1 ∧ dirField w = 0#1 then .ok (.hallEdge (arg0Field w ++ arg1Field w))
    else .error .illegalWord
  else .error .illegalWord

/-- The operation a word on the command port stands for: TICK and HALL_EDGE are illegal there (30_encoding R103,
60_exceptions R305). -/
def decodePort (w : OpWord) : Except Reject Instr :=
  match decodeWord w with
  | .ok i => if i.isEvent then .error .illegalWord else .ok i
  | .error r => .error r

/-! ## Command lines (30_encoding R107 to R112) -/

def byteLf : Byte := 0x0A#8
def byteCr : Byte := 0x0D#8
def byteSp : Byte := 0x20#8
def byteTab : Byte := 0x09#8
def byteDot : Byte := 0x2E#8
def bytePlus : Byte := 0x2B#8
def byteMinus : Byte := 0x2D#8

/-- The first line of a byte stream without its LF, and the bytes after it (R107: found by scanning for LF). -/
def cutLine : List Byte → Option (List Byte × List Byte)
  | [] => none
  | b :: bs =>
    if b = byteLf then some ([], bs)
    else match cutLine bs with
      | some (l, rest) => some (b :: l, rest)
      | none => none

/-- R107: a CR immediately before the LF is dropped. -/
def dropCr (l : List Byte) : List Byte := if l.getLast? = some byteCr then l.dropLast else l

/-- R108: SP or TAB. -/
def isBlankByte (b : Byte) : Bool := b == byteSp || b == byteTab

/-- R107: printable ASCII or TAB. -/
def isLineByte (b : Byte) : Bool := (decide (0x20#8 ≤ b) && decide (b ≤ 0x7E#8)) || b == byteTab

/-- R107: lower-case letters are folded to upper case. -/
def foldByte (b : Byte) : Byte := if 0x61#8 ≤ b ∧ b ≤ 0x7A#8 then b - 0x20#8 else b

/-- One byte of the split, from the right: the token being gathered and the tokens after it. -/
def tokenStep (b : Byte) (acc : List Byte × List (List Byte)) : List Byte × List (List Byte) :=
  if isBlankByte b then ([], if acc.1 = [] then acc.2 else acc.1 :: acc.2) else (b :: acc.1, acc.2)

/-- R108: the tokens of a line, split at runs of blanks. -/
def tokens (l : List Byte) : List (List Byte) :=
  let r := l.foldr tokenStep ([], [])
  if r.1 = [] then r.2 else r.1 :: r.2

def digitOf (b : Byte) : Option Digit :=
  if h : 0x30 ≤ b.toNat ∧ b.toNat < 0x3A then some ⟨b.toNat - 0x30, by omega⟩ else none

def letterOf (b : Byte) : Option Letter :=
  if h : 0x41 ≤ b.toNat ∧ b.toNat < 0x5B then some ⟨b.toNat - 0x41, by omega⟩ else none

/-- The longest run of digits at the front, and the bytes after it. -/
def spanDigits : List Byte → List Digit × List Byte
  | [] => ([], [])
  | b :: bs =>
    match digitOf b with
    | some d => (d :: (spanDigits bs).1, (spanDigits bs).2)
    | none => ([], b :: bs)

/-- R108 cmdtoken: a letter and digits. The 18-digit limit is taken to bound these digits too (log entry 14). -/
def parseCmdToken (t : List Byte) : Option (Letter × List Digit) :=
  match t with
  | [] => none
  | b :: bs =>
    match letterOf b with
    | none => none
    | some l =>
      let r := spanDigits bs
      if r.1 ≠ [] ∧ r.2 = [] ∧ r.1.length ≤ 18 then some (l, r.1) else none

/-- R108: the optional sign in front of a number. -/
def parseSign : List Byte → Sign × List Byte
  | [] => (.none, [])
  | b :: bs => if b = bytePlus then (.plus, bs) else if b = byteMinus then (.minus, bs) else (.none, b :: bs)

/-- R108 number. -/
def parseNumber (t : List Byte) : Option Number :=
  let s := parseSign t
  let w := spanDigits s.2
  match w.2 with
  | [] => if w.1 ≠ [] ∧ w.1.length ≤ 18 then some ⟨s.1, w.1, []⟩ else none
  | b :: bs =>
    let f := spanDigits bs
    if b = byteDot ∧ w.1 ≠ [] ∧ f.1 ≠ [] ∧ f.2 = [] ∧ w.1.length + f.1.length ≤ 18 then some ⟨s.1, w.1, f.1⟩
    else none

/-- R108 param: a letter and a number. -/
def parseParam (t : List Byte) : Option Param :=
  match t with
  | [] => none
  | b :: bs =>
    match letterOf b, parseNumber bs with
    | some l, some n => some ⟨l, n⟩
    | _, _ => none

def parseParams : List (List Byte) → Option (List Param)
  | [] => some []
  | t :: ts =>
    match parseParam t, parseParams ts with
    | some p, some ps => some (p :: ps)
    | _, _ => none

/-- The number a run of digits spells (R109, R110). -/
def natOfDigits (ds : List Digit) : Nat := ds.foldl (fun n d => 10 * n + d.val) 0

def letterG : Letter := 6
def letterM : Letter := 12

/-- R110: the command a letter and an integer select. -/
def selectCommand (l : Letter) (n : Nat) (ps : List Param) : Except Reject Instr :=
  if l = letterG then
    if n = 0 then .ok (.g0 ps)
    else if n = 1 then .ok (.g1 ps)
    else if n = 4 then .ok (.g4 ps)
    else if n = 28 then .ok (.g28 ps)
    else .error .unknownCommand
  else if l = letterM then
    if n = 0 then .ok (.m0 ps)
    else if n = 1 then .ok (.m1 ps)
    else if n = 3 then .ok (.m3 ps)
    else if n = 4 then .ok (.m4 ps)
    else if n = 5 then .ok (.m5 ps)
    else if n = 112 then .ok (.m112 ps)
    else if n = 410 then .ok (.m410 ps)
    else if n = 999 then .ok (.m999 ps)
    else .error .unknownCommand
  else .error .unknownCommand

/-- R111: the keyword commands. -/
def keywordOf (t : List Byte) : Option Instr :=
  if t = ascii "STATUS" then some .status
  else if t = ascii "PING" then some .ping
  else if t = ascii "VERSION" then some .version
  else none

/-- R108, R110, R111: the command of a line that is split into tokens; the whole line is parsed before the command is
selected (43_command_interpreter R250). -/
def decodeTokens : List (List Byte) → Except Reject Instr
  | [] => .error .blank
  | t :: ts =>
    match keywordOf t with
    | some i => if ts = [] then .ok i else .error .malformed
    | none =>
      match parseCmdToken t, parseParams ts with
      | some (l, ds), some ps =>
        if (ps.map Param.letter).Nodup then selectCommand l (natOfDigits ds) ps else .error .malformed
      | _, _ => .error .malformed

/-- The instruction a line stands for; `l` is the line without its LF (R107). A blank line is none before any other
test (log entry 13), and a dropped CR does not count against LINE_MAX (log entry 12). -/
def decodeLine (lineMax : Nat) (l : List Byte) : Except Reject Instr :=
  let body := dropCr l
  if body.all isBlankByte then .error .blank
  else if lineMax < body.length then .error .malformed
  else if !body.all isLineByte then .error .malformed
  else decodeTokens (tokens (body.map foldByte))

/-- The instruction an encoding stands for, whoever issues it. -/
def decode (lineMax : Nat) : Encoding → Except Reject Instr
  | .word w => decodeWord w
  | .line bytes =>
    match cutLine bytes with
    | none => .error .incomplete
    | some (l, _) => decodeLine lineMax l

/-! ## The encoder -/

/-- 30_encoding R101: the operation word of its fields. -/
def packWord (op : BitVec 4) (axis dir : BitVec 1) (arg0 arg1 : BitVec 32) : OpWord :=
  op ++ axis ++ dir ++ 0#2 ++ arg0 ++ arg1

def digitByte (d : Digit) : Byte := BitVec.ofNat 8 (0x30 + d.val)

def letterByte (l : Letter) : Byte := BitVec.ofNat 8 (0x41 + l.val)

def signBytes : Sign → List Byte
  | .none => []
  | .plus => [bytePlus]
  | .minus => [byteMinus]

def encodeNumber (n : Number) : List Byte :=
  signBytes n.sign ++ n.whole.map digitByte ++ (if n.frac = [] then [] else byteDot :: n.frac.map digitByte)

/-- A parameter with the blank in front of it. -/
def encodeParam (p : Param) : List Byte := byteSp :: letterByte p.letter :: encodeNumber p.num

/-- A command line: its token, its parameters, LF. -/
def encodeLine (head : List Byte) (ps : List Param) : Encoding :=
  .line (head ++ ps.flatMap encodeParam ++ [byteLf])

/-- The encoding of an instruction (30_encoding R101, R102, R108); a command is spelled as in the opcode table. -/
def encode : Instr → Encoding
  | .enqueue a d count delay => .word (packWord 0x1#4 (axisBit a) (dirBit d) count delay)
  | .pause a => .word (packWord 0x2#4 (axisBit a) 0#1 0#32 0#32)
  | .resume a => .word (packWord 0x3#4 (axisBit a) 0#1 0#32 0#32)
  | .estop a => .word (packWord 0x4#4 (axisBit a) 0#1 0#32 0#32)
  | .home a => .word (packWord 0x5#4 (axisBit a) 0#1 0#32 0#32)
  | .isActive a => .word (packWord 0x6#4 (axisBit a) 0#1 0#32 0#32)
  | .queueDepth a => .word (packWord 0x7#4 (axisBit a) 0#1 0#32 0#32)
  | .position a => .word (packWord 0x8#4 (axisBit a) 0#1 0#32 0#32)
  | .getRpm => .word (packWord 0x9#4 0#1 0#1 0#32 0#32)
  | .qstop a => .word (packWord 0xA#4 (axisBit a) 0#1 0#32 0#32)
  | .clrEstop a => .word (packWord 0xB#4 (axisBit a) 0#1 0#32 0#32)
  | .rdState a => .word (packWord 0xC#4 (axisBit a) 0#1 0#32 0#32)
  | .estopAll => .word (packWord 0xD#4 0#1 0#1 0#32 0#32)
  | .tick => .word (packWord 0xE#4 0#1 0#1 0#32 0#32)
  | .hallEdge ts => .word (packWord 0xF#4 0#1 0#1 (ts.extractLsb' 32 32) (ts.extractLsb' 0 32))
  | .g0 ps => encodeLine (ascii "G0") ps
  | .g1 ps => encodeLine (ascii "G1") ps
  | .g28 ps => encodeLine (ascii "G28") ps
  | .g4 ps => encodeLine (ascii "G4") ps
  | .m3 ps => encodeLine (ascii "M3") ps
  | .m4 ps => encodeLine (ascii "M4") ps
  | .m5 ps => encodeLine (ascii "M5") ps
  | .m0 ps => encodeLine (ascii "M0") ps
  | .m1 ps => encodeLine (ascii "M1") ps
  | .m112 ps => encodeLine (ascii "M112") ps
  | .m410 ps => encodeLine (ascii "M410") ps
  | .m999 ps => encodeLine (ascii "M999") ps
  | .status => encodeLine (ascii "STATUS") []
  | .ping => encodeLine (ascii "PING") []
  | .version => encodeLine (ascii "VERSION") []

/-! ## The opcode table's numbers -/

/-- The bytes of a text row's number: its first character is the most significant byte (30_encoding R110). -/
def tableBytes (nbits w : Nat) : List Byte :=
  (List.range (nbits / 8)).map fun k => BitVec.ofNat 8 (w >>> (nbits - 8 * (k + 1)))

/-- What the number `w` of an opcode-table row of `nbits` bits stands for: the 72-bit rows are operation words, the
others are lines, ended here by LF. -/
def tableEncoding (nbits w : Nat) : Encoding :=
  if nbits = 72 then .word (BitVec.ofNat 72 w) else .line (tableBytes nbits w ++ [byteLf])

/-- The instruction the decoder reads from an opcode-table row's number. LINE_MAX is CFG_T's; no row comes near the
least admissible one. -/
def decodeTableWord (nbits w : Nat) : Option Instr :=
  match decode cfgT.lineMax (tableEncoding nbits w) with
  | .ok i => some i
  | .error _ => none

end Sys2Proof
end

