-- ==== Sys2Proof/Machine/State.lean ====
section
/-!
DEFINITION. The state of the core as plain data (10_state R20 to R52), the outcomes' reasons, and the state after reset
(70_reset_and_hazards R341).
-/

namespace Sys2Proof.Machine

/-- A slot record: a StepChunk without its axis (10_state R21, 30_encoding R106). -/
structure Chunk where
  count : BitVec 32
  delay : BitVec 32
  dir : Dir
  deriving DecidableEq, Repr

/-- What a slot that no ENQUEUE has written reads as. The spec leaves it unspecified and no rule reads it
(DESIGN CHOICE, log entry 4). -/
def blankChunk : Chunk := ⟨0#32, 0#32, .forward⟩

/-- The ring space of one axis (20_memory R70(1)): (slot, record) pairs in canonical form, slots strictly rising, no
record equal to the blank one that an unlisted slot reads as. -/
abbrev Memory := List (Nat × Chunk)

/-- The register bank of one axis (10_state R20 to R32). -/
structure AxisBank where
  /-- R21: the CAP slots. -/
  ring : Memory
  /-- R22: consumer index, 0..2*CAP-1. -/
  head : Nat
  /-- R23: producer index, 0..2*CAP-1. -/
  tail : Nat
  /-- R24: remaining steps of the loaded chunk; 0 means none is loaded. -/
  curRem : BitVec 32
  /-- R25: remaining delay countdown. -/
  curCnt : BitVec 32
  /-- R26: the loaded chunk's delay. -/
  curDelay : BitVec 32
  /-- R27: the loaded chunk's direction. -/
  curDir : Dir
  /-- R28: absolute step position, two's complement. -/
  pos : BitVec 64
  /-- R29. -/
  homed : Bool
  /-- R30. -/
  active : Bool
  /-- R31. -/
  paused : Bool
  /-- R32. -/
  estop : Bool
  deriving DecidableEq, Repr

/-- 10_state R36: the SafetyState; the fourth value of its two bits is never produced (93 U25). -/
inductive SafetyState where
  | normal
  | feedHold
  | emergencyStopped
  deriving DecidableEq, Repr

/-- Who started the HOME in progress, so that its result is answered in that layer's form (log entry 15). -/
inductive HomeCaller where
  | operation
  | g28
  deriving DecidableEq, Repr

/-- 10_state R39: the foreground's activity. -/
inductive Foreground where
  | idle
  | home (a : Axis) (t0 : BitVec 64) (caller : HomeCaller)
  | dwell (t0 : BitVec 64) (dur : Nat)
  | sync
  deriving DecidableEq, Repr

/-- 10_state R48: the events of the output history. -/
inductive OutEvent where
  /-- R48(a). -/
  | stepPulse (a : Axis) (d : Dir)
  /-- R48(e). -/
  | spindleDrive (mode : DriveMode)
  /-- R48(f): the response word of a Layer 1 operation. -/
  | rsp (w : RspWord)
  /-- R48(f): the response line of a Layer 2 command, its LF included (30_encoding R117). -/
  | line (bytes : List Byte)
  deriving DecidableEq, Repr

/-- One action of an agent or of the environment (00_scope R5, 20_memory R80). The schedule of State lists the actions
still to come in their order (60_exceptions R310; log entry 6). -/
inductive Action where
  /-- Timer: TICK (R140). -/
  | tick
  /-- The environment drives `hall_in`; the edge detector looks at it (42 R220). -/
  | hallLevel (level : Bool)
  /-- Hall: a HALL_EDGE event delivered directly, as 42 R220 lets a model take it (log entry 8). -/
  | hallEdge (ts : BitVec 64)
  /-- EStopLine: `estop_req` (41 R181). -/
  | estopReq
  /-- The environment drives `limit_sw[a]` (10_state R49(c)). -/
  | limitSwitch (a : Axis) (level : Bool)
  /-- The environment advances `now` (10_state R38). -/
  | clock (delta : BitVec 64)
  /-- Foreground: it takes the next operation word, if it is idle. -/
  | takeWord
  /-- Foreground: it takes the next whole line, if it is idle. -/
  | takeLine
  /-- Foreground: one step of the blocking operation in progress, if that is enabled (41 R176, 43 R254). -/
  | poll
  deriving DecidableEq, Repr

/-- Why the machine stops with a fault: never. The spec has no fatal error (60_exceptions R307); every error is an
answered result and a next state. Safe. -/
inductive Fault where
  deriving DecidableEq, Repr

/-- Why a step has no meaning. -/
inductive Refusal where
  /-- Raised by a refused arm of exec only: the instruction has no meaning yet. Safe. -/
  | notModelled (mnemonic : String)
  /-- Raised by step when the configuration breaks 00_scope R7, which says that a model refuses it; and by a poll of
  G28 whose homing chunk has no steps or no delay, which is such a configuration (log entries 16, 17). Safe. -/
  | inadmissibleConfiguration
  deriving DecidableEq, Repr

/-- The state of the core and its ports. -/
structure State where
  /-- The MODEL's own field: the configuration, an argument of the spec's model (R52; log entry 1). -/
  cfg : Config
  /-- R20: the bank ax[0]. -/
  spindle : AxisBank
  /-- R20: the bank ax[1]. -/
  traverse : AxisBank
  /-- R36. -/
  safety : SafetyState
  /-- R37: modal feed rate, mm/min. -/
  feed : Rat
  /-- R38: the timestamp counter. -/
  now : BitVec 64
  /-- R39. -/
  fg : Foreground
  /-- R41: the smoothed speed estimate, as the rational it denotes. -/
  currentRpm : Rat
  /-- R42. -/
  targetRpm : Rat
  /-- R43. -/
  spinDir : SpinDir
  /-- R44: written and read by no rule. -/
  brakeEngaged : Bool
  /-- R45. -/
  lastEdgeTs : BitVec 64
  /-- R46. -/
  hallValid : Bool
  /-- R47. -/
  hallPrev : Bool
  /-- R49(b): the level of `hall_in`. -/
  hallIn : Bool
  /-- R49(c): the level of `limit_sw[0]`. -/
  limitSpindle : Bool
  /-- R49(c): the level of `limit_sw[1]`. -/
  limitTraverse : Bool
  /-- R49(e): operation words waiting at the command port, in arrival order. -/
  opPort : List OpWord
  /-- R49(e), 20_memory R70(2): bytes waiting on the command stream, in arrival order. -/
  rx : List Byte
  /-- The MODEL's own field: the actions still to come (log entry 6). -/
  sched : List Action
  /-- R48: the output history, oldest first. -/
  history : List OutEvent
  deriving DecidableEq, Repr

/-- A bank right after reset (R341). -/
def AxisBank.reset : AxisBank where
  ring := []
  head := 0
  tail := 0
  curRem := 0#32
  curCnt := 0#32
  curDelay := 0#32
  curDir := .forward
  pos := 0#64
  homed := false
  active := false
  paused := false
  estop := false

/-- The machine right after reset (R341, R343), for any configuration, any value of `now` and any input levels: those
the spec leaves to the platform and the environment. -/
def State.resetWith (cfg : Config) (now : BitVec 64) (hallIn limitSpindle limitTraverse : Bool) : State where
  cfg := cfg
  spindle := AxisBank.reset
  traverse := AxisBank.reset
  safety := .normal
  feed := cfg.defaultFeed
  now := now
  fg := .idle
  currentRpm := 0
  targetRpm := 0
  spinDir := .cw
  brakeEngaged := false
  lastEdgeTs := 0#64
  hallValid := false
  hallPrev := hallIn
  hallIn := hallIn
  limitSpindle := limitSpindle
  limitTraverse := limitTraverse
  opPort := []
  rx := []
  sched := []
  history := []

/-- The machine right after reset with CFG_T, `now` = 0 and all input levels 0, the test vectors' 'from reset'
(95_test_vectors; DESIGN CHOICE, log entries 1, 2, 3). -/
def State.reset : State := State.resetWith cfgT 0#64 false false false

end Sys2Proof.Machine
end

