-- ==== Sys2Proof/Machine/Flags.lean ====
section
/-!
DEFINITION. The flags and the quantities computed from them: queue depth (10_state R34), eligibility (40_scheduler
R141), the four-state view (R33), AXSTAT (R40) and the output levels (R48).
-/

namespace Sys2Proof.Machine

/-- 00_scope R11: the number of a SafetyState. -/
def safetyBits : SafetyState → BitVec 2
  | .normal => 0#2
  | .feedHold => 1#2
  | .emergencyStopped => 2#2

/-- R34: depth = (tail - head) mod (2*CAP), the least non-negative residue. -/
def AxisBank.depth (cap : Nat) (b : AxisBank) : Nat :=
  (((b.tail : Int) - (b.head : Int)) % ((2 * cap : Nat) : Int)).toNat

/-- R141: active, not paused, not emergency-stopped. -/
def AxisBank.eligible (b : AxisBank) : Bool := b.active && !b.paused && !b.estop

/-- The four-state view of an axis (R33). -/
inductive AxisView where
  | idle
  | active
  | paused
  | estopped
  deriving DecidableEq, Repr

/-- R33. -/
def AxisBank.view (b : AxisBank) : AxisView :=
  if b.estop then .estopped else if b.paused then .paused else if b.active then .active else .idle

/-- The register bank ax[a] (R20). -/
def State.bank (s : State) : Axis → AxisBank
  | .spindle => s.spindle
  | .traverse => s.traverse

/-- The level limit_sw[a] (R49(c)). -/
def State.limitSw (s : State) : Axis → Bool
  | .spindle => s.limitSpindle
  | .traverse => s.limitTraverse

/-- R34: depth(a). -/
def State.depth (s : State) (a : Axis) : Nat := (s.bank a).depth s.cfg.cap

/-- R40: the packed view RD_STATE returns; bit 0 active, 1 paused, 2 estop, 3 homed, 5:4 safety, 6 cur_dir. -/
def State.axstat (s : State) (a : Axis) : BitVec 64 :=
  0#57 ++ dirBit (s.bank a).curDir ++ safetyBits s.safety ++ BitVec.ofBool (s.bank a).homed ++
    BitVec.ofBool (s.bank a).estop ++ BitVec.ofBool (s.bank a).paused ++ BitVec.ofBool (s.bank a).active

/-- R48(b): the output level DIR[a]. -/
def State.dirOut (s : State) (a : Axis) : BitVec 1 := dirBit (s.bank a).curDir

/-- R48(c): the output level IDLE[a]. -/
def State.idleOut (s : State) (a : Axis) : Bool := !(s.bank a).active

/-- R48(d): the output level SPIN_TARGET. -/
def State.spinTargetOut (s : State) : Rat := s.targetRpm

/-- R48(d): the output level SPIN_DIR, CW = 0 and CCW = 1 (00_scope R11). -/
def State.spinDirOut (s : State) : BitVec 1 :=
  match s.spinDir with
  | .cw => 0#1
  | .ccw => 1#1

end Sys2Proof.Machine
end

