-- ==== Sys2Proof/Machine/Numerics.lean ====
section
/-!
DEFINITION. The number format RpmNum (42_rpm_estimator R228): its rounding function `rnd`, and the 64-bit value by
which GET_RPM returns a number of it (30_encoding R104).
-/

namespace Sys2Proof.Machine

/-- The nearest natural number to a non-negative rational, ties to even. -/
def roundEven (q : Rat) : Nat :=
  let f := q.floor.toNat
  let r := q - f
  if r < mkRat 1 2 then f else if mkRat 1 2 < r then f + 1 else if f % 2 = 0 then f else f + 1

/-- floor(log2 q) of a positive rational. -/
def floorLog2 (q : Rat) : Int :=
  let e : Int := (Nat.log2 q.num.toNat : Int) - (Nat.log2 q.den : Int)
  if (2 : Rat) ^ e ≤ q then e else e - 1

/-- The exponent of the unit in the last place of binary32 at a positive rational: 24 bits of precision, no finer than
2^-149. -/
def ulpExponent (q : Rat) : Int := max (floorLog2 q - 23) (-149)

/-- IEEE 754 binary32, round to nearest, ties to even, of a non-negative rational, the exponent unbounded above; to
nearest also strictly between 2^-150 and 2^-149 (DESIGN CHOICE, log entry 24). -/
def roundBinary32Magnitude (q : Rat) : Rat :=
  if q ≤ 0 then 0 else (roundEven (q / (2 : Rat) ^ ulpExponent q) : Rat) * (2 : Rat) ^ ulpExponent q

/-- A free value that stands for a speed keeps the bound the spec gives every speed: it is not negative (10_state
R41). -/
def nonNegative (q : Rat) : Rat := if q < 0 then 0 else q

/-- 42 R228, binary32, of a non-negative rational: the rounded value where it is finite; beyond that the spec gives none
(log entry 9). A rational of 2^128 - 2^103 or more, itself below 2^128 or not, rounds to 2^128 or more, so a speed sample
of that size is the free value, though R228 says that nothing overflows while 60 * TS_HZ is below 2^128 (DESIGN CHOICE,
log entry 26). -/
def roundBinary32 (q : Rat) : Rat :=
  if roundBinary32Magnitude q < (2 : Rat) ^ (128 : Nat) then roundBinary32Magnitude q
  else nonNegative (Config.binary32Overflow q)

/-- 42 R228: the rounding function of RpmNum. binary32 rounds a negative rational by its magnitude (no rule meets
one); a custom function is any that keeps non-negative numbers so (log entry 11). -/
def rnd (f : RpmFormat) (q : Rat) : Rat :=
  match f with
  | .binary32 => if q < 0 then -roundBinary32 (-q) else roundBinary32 q
  | .exact => q
  | .custom k => if q < 0 then Config.customRnd k q else nonNegative (Config.customRnd k q)

/-- The 32-bit image of a finite non-negative binary32 number. -/
def binary32Image (q : Rat) : Nat :=
  if q ≤ 0 then 0
  else
    let m := (q / (2 : Rat) ^ ulpExponent q).floor.toNat
    -- subnormal: the fraction alone; normal: exponent field and fraction, the leading 1 implied
    if m < 2 ^ 23 then m else (ulpExponent q + 150).toNat * 2 ^ 23 + (m - 2 ^ 23)

/-- 30_encoding R104: the response value of a speed. For binary32 its 32 bits, zero-extended; for the other formats the
spec gives none (log entries 10, 19). -/
def rpmWord (f : RpmFormat) (q : Rat) : BitVec 64 :=
  match f with
  | .binary32 =>
    if 0 ≤ q ∧ q < (2 : Rat) ^ (128 : Nat) ∧ roundBinary32Magnitude q = q then BitVec.ofNat 64 (binary32Image q)
    else Config.binary32NoWord q
  | .exact => Config.exactRpmWord q
  | .custom k => Config.customRpmWord k q

end Sys2Proof.Machine
end

