-- ==== Sys2Proof/Machine/Operands.lean ====
section
/-!
DEFINITION. Operand forms and conversions of Layer 2: parameter letters (30_encoding R112), the value of a number
(R109), rounding (00_scope R9), millimetres to steps, feed to delay, milliseconds to timestamp units (R113 to R115),
and the decimal forms of the STATUS line (R118).
-/

namespace Sys2Proof.Machine

def letterF : Letter := 5
def letterP : Letter := 15
def letterS : Letter := 18
def letterX : Letter := 23
def letterY : Letter := 24

/-- R109: the exact decimal rational a number spells. -/
def numberValue (n : Number) : Rat :=
  let m : Rat := mkRat (natOfDigits (n.whole ++ n.frac) : Int) (10 ^ n.frac.length)
  if n.sign = .minus then -m else m

/-- R112: the value of a parameter letter; absent if no parameter has it. -/
def paramValue (l : Letter) : List Param → Option Rat
  | [] => none
  | p :: ps => if p.letter = l then some (numberValue p.num) else paramValue l ps

/-- R112: whether a parameter letter is present. -/
def paramPresent (l : Letter) (ps : List Param) : Bool := ps.any fun p => p.letter == l

/-- 00_scope R9: the nearest integer, ties away from zero. -/
def roundAway (q : Rat) : Int := if 0 ≤ q then (q + mkRat 1 2).floor else -((-q + mkRat 1 2).floor)

/-- 2^32 - 1, the largest step count of a chunk and the largest delay (00_scope section 4). -/
def maxWord32 : Nat := 4294967295

/-- 30_encoding R113. -/
def steps (cfg : Config) (y : Rat) : Int := roundAway (y * cfg.stepsPerMm)

/-- 30_encoding R114. -/
def feedDelay (cfg : Config) (f : Rat) : Int :=
  roundAway ((60 * cfg.tsHz : Nat) / (cfg.tickPeriodTs * f * cfg.stepsPerMm))

/-- 30_encoding R115. -/
def dwellTs (cfg : Config) (p : Rat) : Int := (p * cfg.tsHz / 1000).ceil

/-- A natural number in decimal, without leading zeros. -/
def decimal (n : Nat) : List Byte := (Nat.toDigits 10 n).map fun c => BitVec.ofNat 8 c.toNat

/-- Exactly two decimal digits of a number below 100. -/
def twoDigits (n : Nat) : List Byte := [BitVec.ofNat 8 (0x30 + n / 10 % 10), BitVec.ofNat 8 (0x30 + n % 10)]

/-- 30_encoding R118, <pos>: hundredths of a millimetre as [-]integer.dd, zero without sign. -/
def decimalHundredths (h : Int) : List Byte :=
  (if h < 0 then [byteMinus] else []) ++ decimal (h.natAbs / 100) ++ [byteDot] ++ twoDigits (h.natAbs % 100)

end Sys2Proof.Machine
end

