-- ==== Sys2Proof/Machine/Ops.lean ====
section
/-!
DEFINITION. The named operations every meaning is made of: ring space, register banks, responses, raising an error (the
core's only exception, 60_exceptions R301), the Move Queue operations shared by both layers, and the speed reads.
-/

namespace Sys2Proof.Machine

/-! ## Ring space (20_memory R70 to R72) -/

/-- The record a slot holds. -/
def Memory.read : Memory → Nat → Chunk
  | [], _ => blankChunk
  | (k, c) :: m, i => if k = i then c else Memory.read m i

/-- Replaces a slot's whole record, in the canonical form. -/
def Memory.write : Memory → Nat → Chunk → Memory
  | [], i, c => if c = blankChunk then [] else [(i, c)]
  | (k, d) :: m, i, c =>
    if i < k then (if c = blankChunk then (k, d) :: m else (i, c) :: (k, d) :: m)
    else if i = k then (if c = blankChunk then m else (i, c) :: m)
    else (k, d) :: Memory.write m i c

/-- The canonical form: slots strictly rising, no blank record listed. -/
def Memory.wf : Memory → Bool
  | [] => true
  | (k, c) :: m => decide (c ≠ blankChunk) && m.all (fun e => decide (k < e.1)) && Memory.wf m

/-- MemRead(a, i), R71, R72: index i designates slot i mod CAP. -/
def memRead (cap : Nat) (b : AxisBank) (i : Nat) : Chunk := Memory.read b.ring (i % cap)

/-- MemWrite(a, i, c), R71, R72. -/
def memWrite (cap : Nat) (b : AxisBank) (i : Nat) (c : Chunk) : AxisBank :=
  { b with ring := Memory.write b.ring (i % cap) c }

/-- 30_encoding R106: the 65 bits of a slot record. -/
def slotRecord (c : Chunk) : BitVec 65 := dirBit c.dir ++ c.count ++ c.delay

/-- 10_state R34: the chunks in the ring, oldest first. -/
def ringChunks (cap : Nat) (b : AxisBank) : List Chunk :=
  (List.range (b.depth cap)).map fun k => memRead cap b (b.head + k)

/-- 10_state R35: +n for FORWARD, -n for REVERSE. -/
def signed (d : Dir) (n : Int) : Int :=
  match d with
  | .forward => n
  | .reverse => -n

/-- 10_state R35: the planned position. -/
def AxisBank.planned (cap : Nat) (b : AxisBank) : Int :=
  b.pos.toInt + signed b.curDir b.curRem.toNat +
    ((ringChunks cap b).map fun c => signed c.dir c.count.toNat).sum

/-! ## Registers -/

/-- ax[a] <- b (00_scope R10). -/
def State.setBank (s : State) (a : Axis) (b : AxisBank) : State :=
  match a with
  | .spindle => { s with spindle := b }
  | .traverse => { s with traverse := b }

/-- The environment drives limit_sw[a] (10_state R49(c)). -/
def State.setLimitSw (s : State) (a : Axis) (level : Bool) : State :=
  match a with
  | .spindle => { s with limitSpindle := level }
  | .traverse => { s with limitTraverse := level }

/-- planned(a), 10_state R35. -/
def State.planned (s : State) (a : Axis) : Int := (s.bank a).planned s.cfg.cap

/-! ## Responses and raising an error (60_exceptions R301 to R305) -/

/-- emit Ev (00_scope R10): append to the output history. -/
def State.emit (s : State) (e : OutEvent) : State := { s with history := s.history ++ [e] }

/-- Layer 1 result codes (60_exceptions R302). -/
inductive ResultCode where
  | ok
  | queueFull
  | estopped
  | invalidChunk
  | homingTimeout
  | illegalOp
  | paused
  deriving DecidableEq, Repr

/-- 30_encoding R104: the numbers of the codes. -/
def codeBits : ResultCode → BitVec 4
  | .ok => 0#4
  | .queueFull => 1#4
  | .estopped => 2#4
  | .invalidChunk => 3#4
  | .homingTimeout => 4#4
  | .illegalOp => 5#4
  | .paused => 6#4

/-- 30_encoding R104: RSP = code, value. -/
def rspWord (c : ResultCode) (v : BitVec 64) : RspWord := codeBits c ++ v

/-- return (code, value) of a Layer 1 operation. -/
def respond (c : ResultCode) (v : BitVec 64) (s : State) : State := s.emit (.rsp (rspWord c v))

/-- The one way a Layer 1 operation without a value ends. An error is RAISED (60_exceptions R301): it keeps the state
the operation found, and its value is 0. -/
def finish (s : State) : Except ResultCode State → Host.Outcome State Fault Refusal
  | .error c => .next (respond c 0#64 s)
  | .ok t => .next (respond .ok 0#64 t)

/-- The Layer 2 error reasons (60_exceptions R303). -/
inductive Reason where
  | unknownCommand
  | malformed
  | missingParam
  | outOfRange
  | unsupportedAxis
  | queueFull
  | safetyState
  | spindleNotStopped
  | homingTimeout
  deriving DecidableEq, Repr

/-- 30_encoding R117, 60_exceptions R303: the reason's line. -/
def errorText : Reason → List Byte
  | .unknownCommand => ascii "ERROR_UNKNOWN_COMMAND"
  | .malformed => ascii "ERROR_MALFORMED"
  | .missingParam => ascii "ERROR_MISSING_PARAM"
  | .outOfRange => ascii "ERROR_OUT_OF_RANGE"
  | .unsupportedAxis => ascii "ERROR_UNSUPPORTED_AXIS"
  | .queueFull => ascii "ERROR_QUEUE_FULL"
  | .safetyState => ascii "ERROR_SAFETY_STATE"
  | .spindleNotStopped => ascii "ERROR_SPINDLE_NOT_STOPPED"
  | .homingTimeout => ascii "ERROR_HOMING_TIMEOUT"

/-- respond L (43_command_interpreter): a response line is its text and LF (30_encoding R117). -/
def reply (text : List Byte) (s : State) : State := s.emit (.line (text ++ [byteLf]))

/-- The one way a Layer 2 command that answers OK or an error ends. A rejected command keeps the state it found
(43 R268, 60_exceptions R301). -/
def finishLine (s : State) : Except Reason State → Host.Outcome State Fault Refusal
  | .error r => .next (reply (errorText r) s)
  | .ok t => .next (reply (ascii "OK") t)

/-- 60_exceptions R304: the line a Layer 1 code becomes; two codes cannot arise from a command and have none. -/
def lineOfCode : ResultCode → Option (List Byte)
  | .ok => some (ascii "OK")
  | .queueFull => some (errorText .queueFull)
  | .estopped => some (errorText .safetyState)
  | .paused => some (errorText .safetyState)
  | .homingTimeout => some (errorText .homingTimeout)
  | .invalidChunk => none
  | .illegalOp => none

/-! ## Move Queue operations (41_move_queue) -/

/-- R170 ENQUEUE: its effect, or the code it raises. -/
def enqueueOp (a : Axis) (d : Dir) (count delay : BitVec 32) (s : State) : Except ResultCode State :=
  if s.safety = .emergencyStopped ∨ (s.bank a).estop = true then .error .estopped
  else if count = 0#32 ∨ delay = 0#32 then .error .invalidChunk
  else if s.depth a = s.cfg.cap then .error .queueFull
  else
    let b := memWrite s.cfg.cap (s.bank a) (s.bank a).tail ⟨count, delay, d⟩
    .ok (s.setBank a { b with tail := (b.tail + 1) % (2 * s.cfg.cap), active := true })

/-- R171 PAUSE. -/
def pauseOp (a : Axis) (s : State) : State := s.setBank a { s.bank a with paused := true }

/-- R172 RESUME. -/
def resumeOp (a : Axis) (s : State) : State := s.setBank a { s.bank a with paused := false }

/-- The clearing writes of ESTOP (R173) and of the homing flush (R176): ring, loaded chunk and active flag. -/
def AxisBank.flush (b : AxisBank) : AxisBank :=
  { b with head := b.tail, curRem := 0#32, curCnt := 0#32, active := false }

/-- R173 ESTOP. -/
def estopOp (a : Axis) (s : State) : State := s.setBank a { (s.bank a).flush with estop := true }

/-- R174 QSTOP. -/
def qstopOp (a : Axis) (s : State) : State := s.setBank a { s.bank a with head := (s.bank a).tail }

/-- R175 CLR_ESTOP. -/
def clrEstopOp (a : Axis) (s : State) : State := s.setBank a { s.bank a with estop := false, paused := false }

/-- R181 ESTOP_ALL, without its response. -/
def estopAllOp (s : State) : State :=
  let t := estopOp .traverse (estopOp .spindle { s with safety := .emergencyStopped })
  { t with targetRpm := 0 }.emit (.spindleDrive .cut)

/-- R176, the start step of HOME. -/
def homeStart (a : Axis) (caller : HomeCaller) (s : State) : Except ResultCode State :=
  if s.safety = .emergencyStopped ∨ (s.bank a).estop = true then .error .estopped
  else if s.safety = .feedHold ∨ (s.bank a).paused = true then .error .paused
  else .ok { s with fg := .home a s.now caller }

/-! ## Time and speed -/

/-- sub_64(now, t) as a number (00_scope R9, 10_state R38). -/
def State.since (s : State) (t : BitVec 64) : Nat := (s.now - t).toNat

/-- 42_rpm_estimator R227: whether GET_RPM reads 0 because of a stall or for want of any edge. -/
def State.stalled (s : State) : Bool := !s.hallValid || decide (s.cfg.stallTimeoutTs < s.since s.lastEdgeTs)

/-- 42_rpm_estimator R227: the speed GET_RPM reads. -/
def State.readRpm (s : State) : Rat := if s.stalled then 0 else s.currentRpm

end Sys2Proof.Machine
end

