-- ==== Sys2Proof/Machine/Commands.lean ====
section
/-!
DEFINITION. The text commands of Layer 2 (43_command_interpreter R251 to R265): they act on motion only through the
Layer 1 operations of Ops.
-/

namespace Sys2Proof.Machine

/-! ## Motion -/

/-- R252: k = ceil(m / (2^32-1)), the pieces a move of m steps needs. -/
def pieceCount (m : Nat) : Nat := m / maxWord32 + if m % maxWord32 = 0 then 0 else 1

/-- R252: `repeat k times` enqueue the next piece of a move of m steps, each at most 2^32-1 of them. The pieces are all
enqueued when no step is left; n bounds their number, which is at most CAP. -/
def enqueueMove (d : Dir) (delay : BitVec 32) : Nat → Nat → State → State
  | 0, _, s => s
  | n + 1, m, s =>
    if m = 0 then s
    else
      let c := min m maxWord32
      match enqueueOp .traverse d (BitVec.ofNat 32 c) delay s with
      | .ok t => enqueueMove d delay n (m - c) t
      | .error _ => s

/-- R252, from the target on: `f` is the feed rate in force, already in range. -/
def moveTo (y f : Rat) (s : State) : Except Reason State :=
  let d := feedDelay s.cfg f
  if d < 1 ∨ (maxWord32 : Int) < d then .error .outOfRange
  else
    let n := steps s.cfg y - s.planned .traverse
    if n = 0 then .ok { s with feed := f }
    else
      let m := n.natAbs
      if (s.cfg.cap : Int) - s.depth .traverse < pieceCount m then .error .queueFull
      else
        let dir := if 0 < n then Dir.forward else Dir.reverse
        .ok { enqueueMove dir (BitVec.ofInt 32 d) s.cfg.cap m s with feed := f }

/-- R252: the feed rate in force, or out of range. -/
def moveFeed (ps : List Param) (s : State) : Option Rat :=
  match paramValue letterF ps with
  | some f => if f ≤ 0 ∨ s.cfg.maxFeed < f then none else some f
  | none => some s.feed

/-- R251, R252: the effect of G0 and G1. -/
def moveOp (ps : List Param) (s : State) : Except Reason State :=
  if s.safety = .emergencyStopped ∨ s.traverse.estop = true then .error .safetyState
  else if paramPresent letterX ps then .error .unsupportedAxis
  else
    match paramValue letterY ps with
    | none => .error .missingParam
    | some y =>
      if y < s.cfg.travelMinMm ∨ s.cfg.travelMaxMm < y then .error .outOfRange
      else
        match moveFeed ps s with
        | none => .error .outOfRange
        | some f => moveTo y f s

/-- G0 (R251). -/
def execG0 (ps : List Param) (s : State) : Host.Outcome State Fault Refusal := finishLine s (moveOp ps s)

/-- G1 (R252). -/
def execG1 (ps : List Param) (s : State) : Host.Outcome State Fault Refusal := finishLine s (moveOp ps s)

/-- R253: the start step of G28, or the reason it is rejected. -/
def g28Start (ps : List Param) (s : State) : Except Reason State :=
  if s.safety ≠ .normal then .error .safetyState
  else if paramPresent letterX ps then .error .unsupportedAxis
  else
    match homeStart .traverse .g28 s with
    | .ok t => .ok t
    | .error _ => .error .safetyState  -- ERR_ESTOPPED or ERR_PAUSED (60_exceptions R304)

/-- G28 (R253), its start step: it blocks, and answers from a later poll. -/
def execG28 (ps : List Param) (s : State) : Host.Outcome State Fault Refusal :=
  match g28Start ps s with
  | .error r => .next (reply (errorText r) s)
  | .ok t => .next t

/-- Both axes idle: what a sync waits for (R254). -/
def State.allIdle (s : State) : Bool := !s.spindle.active && !s.traverse.active

/-- An axis with work left is paused: a sync could not end (R254). -/
def State.frozenWork (s : State) : Bool :=
  (s.spindle.active && s.spindle.paused) || (s.traverse.active && s.traverse.paused)

/-- R254: the sync; with both axes idle already its wait is over in the same step (log entry 18). -/
def syncStart (s : State) : State :=
  if s.allIdle then reply (ascii "OK") { s with fg := .idle } else { s with fg := .sync }

/-- G4 (R254). -/
def execG4 (ps : List Param) (s : State) : Host.Outcome State Fault Refusal :=
  let p := (paramValue letterP ps).getD 0
  let dur := dwellTs s.cfg p
  if p < 0 ∨ (2 : Int) ^ (63 : Nat) ≤ dur then .next (reply (errorText .outOfRange) s)
  else if p = 0 then
    if s.frozenWork then .next (reply (errorText .safetyState) s) else .next (syncStart s)
  else .next { s with fg := .dwell s.now dur.toNat }

/-! ## Spindle -/

/-- R255, R256: the effect of M3 and M4. -/
def spindleOp (dir : SpinDir) (ps : List Param) (s : State) : Except Reason State :=
  if s.safety ≠ .normal then .error .safetyState
  else
    match paramValue letterS ps with
    | none => .error .missingParam
    | some v =>
      if v < 0 ∨ s.cfg.maxRpm < v then .error .outOfRange
      else .ok ({ s with targetRpm := v, spinDir := dir }.emit (.spindleDrive .ramp))

/-- M3 (R255). -/
def execM3 (ps : List Param) (s : State) : Host.Outcome State Fault Refusal := finishLine s (spindleOp .cw ps s)

/-- M4 (R256). -/
def execM4 (ps : List Param) (s : State) : Host.Outcome State Fault Refusal := finishLine s (spindleOp .ccw ps s)

/-- M5 (R257); its parameters, if any, are ignored (30_encoding R112), as are those of the commands below. -/
def execM5 (_ps : List Param) (s : State) : Host.Outcome State Fault Refusal :=
  finishLine s (.ok ({ s with targetRpm := 0 }.emit (.spindleDrive s.cfg.m5Mode)))

/-! ## Safety -/

/-- M0 (R258). -/
def execM0 (_ps : List Param) (s : State) : Host.Outcome State Fault Refusal :=
  finishLine s
    (if s.safety ≠ .normal then .error .safetyState
     else .ok (pauseOp .traverse (pauseOp .spindle { s with safety := .feedHold })))

/-- M1 (R259). -/
def execM1 (_ps : List Param) (s : State) : Host.Outcome State Fault Refusal :=
  finishLine s
    (if s.safety ≠ .feedHold then .error .safetyState
     else .ok (resumeOp .traverse (resumeOp .spindle { s with safety := .normal })))

/-- M112 (R260). -/
def execM112 (_ps : List Param) (s : State) : Host.Outcome State Fault Refusal := finishLine s (.ok (estopAllOp s))

/-- M410 (R261). -/
def execM410 (_ps : List Param) (s : State) : Host.Outcome State Fault Refusal :=
  finishLine s (.ok (qstopOp .traverse (qstopOp .spindle s)))

/-- M999 (R262). -/
def execM999 (_ps : List Param) (s : State) : Host.Outcome State Fault Refusal :=
  finishLine s
    (if s.safety ≠ .emergencyStopped then .error .safetyState
     else if s.cfg.rpmZeroEps < s.readRpm then .error .spindleNotStopped
     else .ok (clrEstopOp .traverse (clrEstopOp .spindle { s with safety := .normal })))

/-! ## Queries -/

/-- 30_encoding R118: the STATUS line. -/
def statusText (s : State) : List Byte :=
  ascii "STATUS: Spindle=" ++ decimal (roundAway s.readRpm).natAbs ++ ascii "RPM(" ++
    (if 0 < s.targetRpm then ascii "RUN" else ascii "STOP") ++ ascii ") Traverse=" ++
    decimalHundredths (roundAway (s.traverse.pos.toInt * 100 / s.cfg.stepsPerMm)) ++ ascii "mm"

/-- STATUS (R263). -/
def execStatus (s : State) : Host.Outcome State Fault Refusal := .next (reply (statusText s) s)

/-- PING (R264). -/
def execPing (s : State) : Host.Outcome State Fault Refusal := .next (reply (ascii "PONG") s)

/-- VERSION (R265). -/
def execVersion (s : State) : Host.Outcome State Fault Refusal := .next (reply s.cfg.versionString s)

end Sys2Proof.Machine
end

