-- ==== Sys2Proof/Machine/MoveQueue.lean ====
section
/-!
DEFINITION. The Move Queue operations of Layer 1 (41_move_queue R170 to R181).
-/

namespace Sys2Proof.Machine

/-- ENQUEUE (R170). -/
def execEnqueue (a : Axis) (d : Dir) (count delay : BitVec 32) (s : State) : Host.Outcome State Fault Refusal :=
  finish s (enqueueOp a d count delay s)

/-- PAUSE (R171). -/
def execPause (a : Axis) (s : State) : Host.Outcome State Fault Refusal := finish s (.ok (pauseOp a s))

/-- RESUME (R172). -/
def execResume (a : Axis) (s : State) : Host.Outcome State Fault Refusal := finish s (.ok (resumeOp a s))

/-- ESTOP (R173). -/
def execEstop (a : Axis) (s : State) : Host.Outcome State Fault Refusal := finish s (.ok (estopOp a s))

/-- QSTOP (R174). -/
def execQstop (a : Axis) (s : State) : Host.Outcome State Fault Refusal := finish s (.ok (qstopOp a s))

/-- CLR_ESTOP (R175). -/
def execClrEstop (a : Axis) (s : State) : Host.Outcome State Fault Refusal := finish s (.ok (clrEstopOp a s))

/-- ESTOP_ALL on the command port (R181). -/
def execEstopAll (s : State) : Host.Outcome State Fault Refusal := finish s (.ok (estopAllOp s))

/-- HOME, its start step (R176): it blocks, and answers from a later poll. -/
def execHome (a : Axis) (s : State) : Host.Outcome State Fault Refusal :=
  match homeStart a .operation s with
  | .error c => .next (respond c 0#64 s)
  | .ok t => .next t

/-- IS_ACTIVE (R177). -/
def execIsActive (a : Axis) (s : State) : Host.Outcome State Fault Refusal :=
  .next (respond .ok (if (s.bank a).active then 1#64 else 0#64) s)

/-- 30_encoding R104: the response value of QUEUE_DEPTH. For a depth that 64 bits cannot hold the spec gives none
(DESIGN CHOICE, a free value: log entry 23). -/
def depthWord (n : Nat) : BitVec 64 := if n < 2 ^ 64 then BitVec.ofNat 64 n else Config.wideDepthWord n

/-- QUEUE_DEPTH (R178). -/
def execQueueDepth (a : Axis) (s : State) : Host.Outcome State Fault Refusal :=
  .next (respond .ok (depthWord (s.depth a)) s)

/-- POSITION (R179). -/
def execPosition (a : Axis) (s : State) : Host.Outcome State Fault Refusal := .next (respond .ok (s.bank a).pos s)

/-- RD_STATE (R180). -/
def execRdState (a : Axis) (s : State) : Host.Outcome State Fault Refusal := .next (respond .ok (s.axstat a) s)

end Sys2Proof.Machine
end

