-- ==== Sys2Proof/Machine/RpmEstimator.lean ====
section
/-!
DEFINITION. The Hall edge event and the RPM estimator (42_rpm_estimator R221 to R228).
-/

namespace Sys2Proof.Machine

/-- R224 InstRpm. -/
def instRpm (cfg : Config) (delta : Nat) : Rat :=
  rnd cfg.rpmFormat (mkRat (60 * cfg.tsHz : Nat) (delta * cfg.edgesPerRev))

/-- R225 Ema(x, s). -/
def ema (cfg : Config) (x s : Rat) : Rat :=
  let r := rnd cfg.rpmFormat
  r (r (r cfg.emaAlpha * x) + r (r (1 - cfg.emaAlpha) * s))

/-- R221 to R226: what an edge at `ts` stores. A discarded edge does not move `lastEdgeTs`, so a later edge of the same
fast spindle is accepted, against the last sentence of R223 and 70 R358(1) (DEDUCED, log entry 25). -/
def hallEdgeOp (ts : BitVec 64) (s : State) : State :=
  if s.hallValid = false then { s with lastEdgeTs := ts, hallValid := true }
  else
    let delta := (ts - s.lastEdgeTs).toNat
    if delta < s.cfg.debounceTs then s
    else { s with currentRpm := ema s.cfg (instRpm s.cfg delta) s.currentRpm, lastEdgeTs := ts }

/-- HALL_EDGE (R221): no response. -/
def execHallEdge (ts : BitVec 64) (s : State) : Host.Outcome State Fault Refusal := .next (hallEdgeOp ts s)

/-- R227: the response value of GET_RPM; 0 where the rule returns 0. -/
def State.rpmValue (s : State) : BitVec 64 := if s.stalled then 0#64 else rpmWord s.cfg.rpmFormat s.currentRpm

/-- GET_RPM (R227). -/
def execGetRpm (s : State) : Host.Outcome State Fault Refusal := .next (respond .ok s.rpmValue s)

end Sys2Proof.Machine
end

