-- ==== Sys2Proof/Machine/Scheduler.lean ====
section
/-!
DEFINITION. TICK and the step/direction pulse generator (40_scheduler R140 to R149).
-/

namespace Sys2Proof.Machine

/-- R144 LoadNext, its loop run at most n times; n is the depth the loop began with, so it ends by an empty ring.
R145: a record with count or delay 0 is dropped. R146: an empty ring idles the axis. -/
def loadLoop (cap : Nat) : Nat → AxisBank → AxisBank
  | 0, b => { b with active := false }
  | n + 1, b =>
    let c := memRead cap b b.head
    let b' := { b with head := (b.head + 1) % (2 * cap) }
    if c.count = 0#32 ∨ c.delay = 0#32 then loadLoop cap n b'
    else { b' with curRem := c.count, curDelay := c.delay, curCnt := c.delay, curDir := c.dir }

/-- R144. -/
def loadNext (cap : Nat) (b : AxisBank) : AxisBank := loadLoop cap (b.depth cap) b

/-- R143 EmitStep, the bank's part of it. -/
def emitStep (cap : Nat) (b : AxisBank) : AxisBank :=
  let b' := { b with
    pos := b.pos + (match b.curDir with | .forward => 1#64 | .reverse => -1#64)
    curRem := b.curRem - 1#32
    curCnt := b.curDelay }
  if b'.curRem = 0#32 then loadNext cap b' else b'

/-- R142: the countdown of a serviced axis with a chunk loaded, and the direction of the pulse if it emits one. -/
def countdown (cap : Nat) (b : AxisBank) : AxisBank × Option Dir :=
  let b' := { b with curCnt := b.curCnt - 1#32 }
  if b'.curCnt = 0#32 then (emitStep cap b', some b'.curDir) else (b', none)

/-- R140, R141: what one TICK does to one axis. -/
def tickBank (cap : Nat) (b : AxisBank) : AxisBank × Option Dir :=
  if b.eligible then
    let b' := if b.curRem = 0#32 then loadNext cap b else b
    if b'.active then countdown cap b' else (b', none)
  else (b, none)

/-- One axis's service and its pulse. This is the only place that emits StepPulse (R143, R153, 00_scope R4). -/
def tickAxis (a : Axis) (s : State) : State :=
  let r := tickBank s.cfg.cap (s.bank a)
  let t := s.setBank a r.1
  match r.2 with
  | some d => t.emit (.stepPulse a d)
  | none => t

/-- TICK (R140); SPINDLE before TRAVERSE (R148). -/
def execTick (s : State) : Host.Outcome State Fault Refusal := .next (tickAxis .traverse (tickAxis .spindle s))

end Sys2Proof.Machine
end

