-- ==== Sys2Proof/Machine/Dispatch.lean ====
section
/-!
DEFINITION. exec: one arm per instruction, each one call of its meaning.
-/

namespace Sys2Proof.Machine

def exec (i : Instr) (s : State) : Host.Outcome State Fault Refusal :=
  match i with
  | .enqueue a d count delay => Sys2Proof.Machine.execEnqueue a d count delay s
  | .pause a => Sys2Proof.Machine.execPause a s
  | .resume a => Sys2Proof.Machine.execResume a s
  | .estop a => Sys2Proof.Machine.execEstop a s
  | .home a => Sys2Proof.Machine.execHome a s
  | .isActive a => Sys2Proof.Machine.execIsActive a s
  | .queueDepth a => Sys2Proof.Machine.execQueueDepth a s
  | .position a => Sys2Proof.Machine.execPosition a s
  | .getRpm => Sys2Proof.Machine.execGetRpm s
  | .qstop a => Sys2Proof.Machine.execQstop a s
  | .clrEstop a => Sys2Proof.Machine.execClrEstop a s
  | .rdState a => Sys2Proof.Machine.execRdState a s
  | .estopAll => Sys2Proof.Machine.execEstopAll s
  | .tick => Sys2Proof.Machine.execTick s
  | .hallEdge ts => Sys2Proof.Machine.execHallEdge ts s
  | .g0 ps => Sys2Proof.Machine.execG0 ps s
  | .g1 ps => Sys2Proof.Machine.execG1 ps s
  | .g28 ps => Sys2Proof.Machine.execG28 ps s
  | .g4 ps => Sys2Proof.Machine.execG4 ps s
  | .m3 ps => Sys2Proof.Machine.execM3 ps s
  | .m4 ps => Sys2Proof.Machine.execM4 ps s
  | .m5 ps => Sys2Proof.Machine.execM5 ps s
  | .m0 ps => Sys2Proof.Machine.execM0 ps s
  | .m1 ps => Sys2Proof.Machine.execM1 ps s
  | .m112 ps => Sys2Proof.Machine.execM112 ps s
  | .m410 ps => Sys2Proof.Machine.execM410 ps s
  | .m999 ps => Sys2Proof.Machine.execM999 ps s
  | .status => Sys2Proof.Machine.execStatus s
  | .ping => Sys2Proof.Machine.execPing s
  | .version => Sys2Proof.Machine.execVersion s

end Sys2Proof.Machine
end

