-- ==== Sys2Proof/Machine/Foreground.lean ====
section
/-!
DEFINITION. The later steps of the blocking operations HOME, G28 and G4 (41_move_queue R176, 43_command_interpreter
R253, R254).
-/

namespace Sys2Proof.Machine

/-- The result of a HOME, in its caller's form (30_encoding R104; 43 R253 with 60_exceptions R304), the foreground idle
again. A code without a line is ERR_INVALID_CHUNK from the homing chunk itself, which only a configuration that breaks
00_scope R7 can give (log entry 17). -/
def answerHome (caller : HomeCaller) (c : ResultCode) (s : State) : Host.Outcome State Fault Refusal :=
  let t := { s with fg := .idle }
  match caller with
  | .operation => .next (respond c 0#64 t)
  | .g28 =>
    match lineOfCode c with
    | some text => .next (reply text t)
    | none => .refused .inadmissibleConfiguration

/-- R176: whether the homing deadline has passed. -/
def State.homeOverdue (s : State) (t0 : BitVec 64) : Bool := decide (s.cfg.homingTimeoutTs < s.since t0)

/-- R176: when a HomePoll is enabled. -/
def State.homePollEnabled (s : State) (a : Axis) (t0 : BitVec 64) : Bool :=
  !(s.bank a).active || s.homeOverdue t0 || (s.bank a).estop

/-- R176 HomePoll. -/
def homePoll (a : Axis) (t0 : BitVec 64) (caller : HomeCaller) (s : State) : Host.Outcome State Fault Refusal :=
  if s.safety = .emergencyStopped ∨ (s.bank a).estop = true then answerHome caller .estopped s
  else if (s.bank a).active = false ∧ s.limitSw a = true then
    answerHome caller .ok (s.setBank a { s.bank a with pos := 0#64, homed := true })
  else if s.homeOverdue t0 then answerHome caller .homingTimeout (s.setBank a (s.bank a).flush)
  else
    match enqueueOp a s.cfg.homeDir s.cfg.homeChunkSteps s.cfg.homeDelay s with
    | .ok t => .next t
    | .error c => answerHome caller c s

/-- One step of the blocking operation in progress; where it is not enabled, or nothing is in progress, the foreground
takes no step (00_scope R10, `wait until`). -/
def pollOp (s : State) : Host.Outcome State Fault Refusal :=
  match s.fg with
  | .idle => .next s
  | .home a t0 caller => if s.homePollEnabled a t0 then homePoll a t0 caller s else .next s
  | .dwell t0 dur =>
    if dur ≤ s.since t0 then .next (reply (ascii "OK") { s with fg := .idle }) else .next s
  | .sync => if s.allIdle then .next (reply (ascii "OK") { s with fg := .idle }) else .next s

end Sys2Proof.Machine
end

