-- ==== Sys2Proof/Machine/Fetch.lean ====
section
/-!
DEFINITION. What the next action of the schedule is: an instruction to run, or a step that runs none. The bits of an
instruction are fetched and decoded here (30_encoding R103, R107; 60_exceptions R305; 43_command_interpreter R266).
-/

namespace Sys2Proof.Machine

/-- The next step of the machine. -/
inductive Fetched where
  /-- An instruction, and the state it runs on. -/
  | run (i : Instr) (s : State)
  /-- A step that runs no instruction. -/
  | settled (o : Host.Outcome State Fault Refusal)

/-- The foreground takes an operation word: only while it is idle (10_state R39) and if one waits. An illegal word is
answered ERR_ILLEGAL_OP and changes nothing else (60_exceptions R305). -/
def fetchWord (s : State) : Fetched :=
  if s.fg ≠ .idle then .settled (.next s)
  else
    match s.opPort with
    | [] => .settled (.next s)
    | w :: ws =>
      match decodePort w with
      | .ok i => .run i { s with opPort := ws }
      | .error _ => .settled (.next (respond .illegalOp 0#64 { s with opPort := ws }))

/-- What answers a line that is no command (43 R266); a blank line is not answered (30_encoding R107). -/
def rejectLine (r : Reject) (s : State) : State :=
  match r with
  | .blank | .incomplete => s
  | .unknownCommand => reply (errorText .unknownCommand) s
  | .malformed | .illegalWord => reply (errorText .malformed) s

/-- The foreground takes a line: only while it is idle and if a whole one waits (30_encoding R107). -/
def fetchLine (s : State) : Fetched :=
  if s.fg ≠ .idle then .settled (.next s)
  else
    match cutLine s.rx with
    | none => .settled (.next s)
    | some (l, rest) =>
      match decodeLine s.cfg.lineMax l with
      | .ok i => .run i { s with rx := rest }
      | .error r => .settled (.next (rejectLine r { s with rx := rest }))

/-- 42_rpm_estimator R220: the edge detector raises a HALL_EDGE stamped with `now` when the level differs from the last
one it saw. -/
def fetchHall (level : Bool) (s : State) : Fetched :=
  if level = s.hallPrev then .settled (.next { s with hallIn := level })
  else .run (.hallEdge s.now) { s with hallIn := level, hallPrev := level }

/-- The next action of the schedule (20_memory R80). With none left nothing happens. -/
def fetch (s : State) : Fetched :=
  match s.sched with
  | [] => .settled (.next s)
  | act :: rest =>
    let t := { s with sched := rest }
    match act with
    | .tick => .run .tick t
    | .hallLevel level => fetchHall level t
    | .hallEdge ts => .run (.hallEdge ts) t
    | .estopReq => .settled (.next (estopAllOp t))
    | .limitSwitch a level => .settled (.next (t.setLimitSw a level))
    | .clock delta => .settled (.next { t with now := t.now + delta })
    | .takeWord => fetchWord t
    | .takeLine => fetchLine t
    | .poll => .settled (pollOp t)

/-- The state in which the next step fetches and runs exactly the instruction `e` encodes: a TICK or HALL_EDGE word is
raised by its own agent, any other word or a line is first at the command port, and the foreground is idle. -/
def placeEncoding (s : State) (e : Encoding) : State :=
  match e with
  | .word w =>
    match decodeWord w with
    | .ok .tick => { s with sched := .tick :: s.sched }
    | .ok (.hallEdge ts) => { s with sched := .hallEdge ts :: s.sched }
    | _ => { s with fg := .idle, opPort := w :: s.opPort, sched := .takeWord :: s.sched }
  | .line bytes => { s with fg := .idle, rx := bytes ++ s.rx, sched := .takeLine :: s.sched }

end Sys2Proof.Machine
end

