-- ==== Sys2Proof/Machine/Step.lean ====
section
/-!
DEFINITION. One atomic step of the core (00_scope R6, 20_memory R80), and how a test places one instruction.
-/

namespace Sys2Proof.Machine

/-- One step: the next action of the schedule. An inadmissible configuration is refused (00_scope R7). -/
def step (s : State) : Host.Outcome State Fault Refusal :=
  if s.cfg.admissible then
    match fetch s with
    | .run i t => exec i t
    | .settled o => o
  else .refused .inadmissibleConfiguration

/-- `s` with an opcode-table row's number stored where the next step fetches (log entry 5). -/
def State.withFetchWord (s : State) (nbits w : Nat) : State := placeEncoding s (tableEncoding nbits w)

end Sys2Proof.Machine
end

