-- ==== Sys2Proof/Safety.lean ====
section
/-!
DEFINITION. The terms claims about the core are made in: the invariants of 10_state R53, the pulses of a history, the
pulse train an axis has before it (40_scheduler R150), and runs of instructions.
-/

namespace Sys2Proof.Machine

/-! ## Invariants (10_state R53) -/

/-- The invariants of one axis: its ring is in canonical form within its CAP slots, its indices are in range, and I1 to
I5 of R53. -/
structure BankInv (cap : Nat) (b : AxisBank) : Prop where
  ring_wf : Memory.wf b.ring = true
  slots_lt : ∀ e ∈ b.ring, e.1 < cap
  head_lt : b.head < 2 * cap
  tail_lt : b.tail < 2 * cap
  /-- I1. -/
  depth_le : b.depth cap ≤ cap
  /-- I2 (00_scope R8). -/
  chunks_valid : ∀ c ∈ ringChunks cap b, c.count ≠ 0#32 ∧ c.delay ≠ 0#32
  /-- I3. -/
  idle_empty : b.active = false → b.depth cap = 0 ∧ b.curRem = 0#32
  /-- I4. -/
  loaded : b.curRem ≠ 0#32 → 1 ≤ b.curCnt.toNat ∧ b.curCnt.toNat ≤ b.curDelay.toNat ∧ b.active = true
  /-- I5. -/
  stopped_idle : b.estop = true → b.active = false

/-- The invariant of the whole machine that every step keeps, whatever client issues whatever operation: R53 I1 to I5 on
both axes, the spindle half of I6, and the ranges of the registers. -/
structure CoreInv (s : State) : Prop where
  admissible : s.cfg.admissible = true
  banks : ∀ a, BankInv s.cfg.cap (s.bank a)
  /-- 10_state R37, 43 R252: the modal feed rate is an accepted one. -/
  feed_range : 0 < s.feed ∧ s.feed ≤ s.cfg.maxFeed
  /-- 10_state R42, 43 R255. -/
  target_range : 0 ≤ s.targetRpm ∧ s.targetRpm ≤ s.cfg.maxRpm
  /-- 10_state R41. -/
  speed_nonneg : 0 ≤ s.currentRpm
  /-- 42 R222: no speed sample before the first edge. -/
  unseen_speed : s.hallValid = false → s.currentRpm = 0
  /-- R53 I6, the spindle half. -/
  emergency_target : s.safety = .emergencyStopped → s.targetRpm = 0
  /-- 43 R254. -/
  dwell_range : ∀ t0 dur, s.fg = .dwell t0 dur → dur < 2 ^ 63

/-- R53 I6, the axis half, I7 and I8: they hold while no Layer 1 client issues PAUSE, RESUME, ESTOP or CLR_ESTOP
itself. -/
structure SafetyInv (s : State) : Prop where
  emergency_stopped : s.safety = .emergencyStopped → ∀ a, (s.bank a).estop = true
  hold_paused : s.safety = .feedHold → ∀ a, (s.bank a).paused = true
  normal_unpaused : s.safety = .normal → ∀ a, (s.bank a).paused = false

/-- The operations that R53 lets break SafetyInv when a Layer 1 client issues them. -/
def touchesFlagsDirectly : Instr → Bool
  | .pause _ | .resume _ | .estop _ | .clrEstop _ => true
  | .enqueue .. | .home _ | .isActive _ | .queueDepth _ | .position _ | .getRpm | .qstop _ | .rdState _ | .estopAll
  | .tick | .hallEdge _ | .g0 _ | .g1 _ | .g28 _ | .g4 _ | .m3 _ | .m4 _ | .m5 _ | .m0 _ | .m1 _ | .m112 _ | .m410 _
  | .m999 _ | .status | .ping | .version => false

/-! ## Pulses -/

/-- The directions of an axis's step pulses in a history, oldest first. -/
def pulsesIn (a : Axis) (h : List OutEvent) : List Dir :=
  h.filterMap fun e => match e with
    | .stepPulse b d => if b = a then some d else none
    | .spindleDrive _ | .rsp _ | .line _ => none

/-- The directions of all step pulses of an axis so far. -/
def State.pulses (s : State) (a : Axis) : List Dir := pulsesIn a s.history

/-- What `count` steps at `delay` TICKs each look like, TICK by TICK (40_scheduler R150): delay-1 TICKs without a pulse
and one with, count times. -/
def stepTrain (count delay : Nat) (d : Dir) : List (Option Dir) :=
  (List.replicate count (List.replicate (delay - 1) none ++ [some d])).flatten

/-- The loaded chunk's part of the pulse train: its next step comes when the countdown has run out. -/
def AxisBank.loadedTrain (b : AxisBank) : List (Option Dir) :=
  if b.curRem = 0#32 then []
  else List.replicate (b.curCnt.toNat - 1) none ++ [some b.curDir] ++
    stepTrain (b.curRem.toNat - 1) b.curDelay.toNat b.curDir

/-- The pulse train an axis has before it, one entry for each serviced TICK: the loaded chunk, then the ring's chunks
without a gap (R150). -/
def AxisBank.train (cap : Nat) (b : AxisBank) : List (Option Dir) :=
  b.loadedTrain ++ (ringChunks cap b).flatMap fun c => stepTrain c.count.toNat c.delay.toNat c.dir

/-- The directions of the pulses that chunks stepped one after another from an idle axis have given after `n` serviced
TICKs: pulse k of a chunk comes `k * delay` TICKs after the chunk before it ended (R150). -/
def timedPulses : List Chunk → Nat → List Dir
  | [], _ => []
  | c :: cs, n =>
    if n < c.count.toNat * c.delay.toNat then List.replicate (n / c.delay.toNat) c.dir
    else List.replicate c.count.toNat c.dir ++ timedPulses cs (n - c.count.toNat * c.delay.toNat)

/-- The serviced TICKs that chunks take, one after another. -/
def totalTicks (cs : List Chunk) : Nat := (cs.map fun c => c.count.toNat * c.delay.toNat).sum

/-! ## Runs -/

/-- Instructions one after another, each on the state the one before left. -/
def execAll : List Instr → State → Host.Outcome State Fault Refusal
  | [], s => .next s
  | i :: is, s =>
    match exec i s with
    | .next t => execAll is t
    | .fault f => .fault f
    | .refused r => .refused r

/-- How many TICKs of a run of TICK, PAUSE a and RESUME a service an axis that is paused or not at its start. -/
def servicedTicks (a : Axis) : Bool → List Instr → Nat
  | _, [] => 0
  | p, i :: is =>
    if i = .tick then (if p then 0 else 1) + servicedTicks a p is
    else if i = .pause a then servicedTicks a true is
    else if i = .resume a then servicedTicks a false is
    else servicedTicks a p is

/-- The instructions that make CLR_ESTOP happen on an axis (R155). -/
def clearsStop (a : Axis) : Instr → Bool
  | .clrEstop b => b == a
  | .m999 _ => true
  | .enqueue .. | .pause _ | .resume _ | .estop _ | .home _ | .isActive _ | .queueDepth _ | .position _ | .getRpm
  | .qstop _ | .rdState _ | .estopAll | .tick | .hallEdge _ | .g0 _ | .g1 _ | .g28 _ | .g4 _ | .m3 _ | .m4 _ | .m5 _
  | .m0 _ | .m1 _ | .m112 _ | .m410 _ | .status | .ping | .version => false

/-- The instructions that can make ENQUEUE happen on an axis in the step that runs them (R155). -/
def enqueuesOn (a : Axis) : Instr → Bool
  | .enqueue b _ _ _ => b == a
  | .g0 _ | .g1 _ => a == .traverse
  | .pause _ | .resume _ | .estop _ | .home _ | .isActive _ | .queueDepth _ | .position _ | .getRpm | .qstop _
  | .clrEstop _ | .rdState _ | .estopAll | .tick | .hallEdge _ | .g28 _ | .g4 _ | .m3 _ | .m4 _ | .m5 _ | .m0 _ | .m1 _
  | .m112 _ | .m410 _ | .m999 _ | .status | .ping | .version => false

/-- ENQUEUEs of chunks on an axis, each after a number of TICKs. -/
def lateEnqueues (a : Axis) : List (Nat × Chunk) → List Instr
  | [] => []
  | (gap, c) :: cs => List.replicate gap .tick ++ .enqueue a c.dir c.count c.delay :: lateEnqueues a cs

/-- An axis gives no pulse until its stop has been cleared and a chunk enqueued after that (R155): every run that does
not clear the stop, followed by any run that enqueues nothing on the axis, leaves its pulses as they are. -/
def SilentUntilRestarted (a : Axis) (s : State) : Prop :=
  ∀ stopped cleared t, (∀ i ∈ stopped, clearsStop a i = false) → (∀ i ∈ cleared, enqueuesOn a i = false) →
    execAll (stopped ++ cleared) s = .next t → t.pulses a = s.pulses a

/-- An axis with nothing to do: no chunk loaded, none queued. -/
def Quiet (cap : Nat) (b : AxisBank) : Prop := b.active = false ∧ b.curRem = 0#32 ∧ b.depth cap = 0

/-! ## The grammar of command lines (30_encoding R107 to R111), written apart from the decoder -/

/-- R108: the tokens of a line: folded to upper case, split at every SP and TAB, the empty pieces left out. -/
def lineTokens (body : List Byte) : List (List Byte) :=
  ((body.map fun b => if 0x61 ≤ b.toNat ∧ b.toNat ≤ 0x7A then b - 0x20#8 else b).splitOnP
    fun b => b = 0x20#8 ∨ b = 0x09#8).filter (· ≠ [])

/-- R108 DIGITS, but for being at least one. -/
def SpellsDigits (t : List Byte) (ds : List Digit) : Prop := t = ds.map fun d => BitVec.ofNat 8 (0x30 + d.val)

/-- R108 number, at most 18 digits in all. -/
def SpellsNumber (t : List Byte) (n : Number) : Prop :=
  ∃ sign whole frac, t = sign ++ whole ++ frac ∧
    (match n.sign with | .none => sign = [] | .plus => sign = [0x2B#8] | .minus => sign = [0x2D#8]) ∧
    SpellsDigits whole n.whole ∧ n.whole ≠ [] ∧
    (if n.frac = [] then frac = [] else ∃ digits, frac = 0x2E#8 :: digits ∧ SpellsDigits digits n.frac) ∧
    n.whole.length + n.frac.length ≤ 18

/-- R108 param. -/
def SpellsParam (t : List Byte) (p : Param) : Prop :=
  ∃ number, t = BitVec.ofNat 8 (0x41 + p.letter.val) :: number ∧ SpellsNumber number p.num

/-- R108 cmdtoken, and the letter and the integer it gives (R110); the limit of 18 digits is log entry 14. -/
def SpellsCommand (t : List Byte) (l : Letter) (n : Nat) : Prop :=
  ∃ digits ds, t = BitVec.ofNat 8 (0x41 + l.val) :: digits ∧ SpellsDigits digits ds ∧ ds ≠ [] ∧ ds.length ≤ 18 ∧
    n = Nat.ofDigits 10 (ds.reverse.map Fin.val)

/-- R108: a command token and parameters, no letter of a parameter twice. -/
def CommandLine (ts : List (List Byte)) (l : Letter) (n : Nat) (ps : List Param) : Prop :=
  ∃ t us, ts = t :: us ∧ SpellsCommand t l n ∧ List.Forall₂ SpellsParam us ps ∧ (ps.map Param.letter).Nodup

/-- R110: the recognised pairs of letter (G is number 6, M number 12) and integer. -/
def commandTable : List ((Letter × Nat) × (List Param → Instr)) :=
  [((6, 0), .g0), ((6, 1), .g1), ((6, 4), .g4), ((6, 28), .g28), ((12, 0), .m0), ((12, 1), .m1), ((12, 3), .m3),
    ((12, 4), .m4), ((12, 5), .m5), ((12, 112), .m112), ((12, 410), .m410), ((12, 999), .m999)]

/-- R111. -/
def keywordTable : List (List Byte × Instr) :=
  [(ascii "STATUS", .status), (ascii "PING", .ping), (ascii "VERSION", .version)]

/-! ## Forms of an answer -/

/-- How the end of a HOME is answered: a response word to a Layer 1 client, a line to the client of G28. -/
def homeAnswer (caller : HomeCaller) (r : RspWord) (text : List Byte) : OutEvent :=
  match caller with
  | .operation => .rsp r
  | .g28 => .line (text ++ [byteLf])

/-- A Layer 1 operation on axis `a` completes: bank a becomes `b`, the other bank and every other register and port keep
their values, and the response word is `r`. -/
def AnswersOnAxis (i : Instr) (s : State) (a : Axis) (b : AxisBank) (r : RspWord) : Prop :=
  ∃ t, exec i s = .next t ∧ t.bank a = b ∧ (∀ c, c ≠ a → t.bank c = s.bank c) ∧
    t = { s with spindle := t.spindle, traverse := t.traverse, history := s.history ++ [.rsp r] }

/-- A Layer 1 operation answers `r` and changes nothing else. -/
def OnlyAnswers (i : Instr) (s : State) (r : RspWord) : Prop :=
  exec i s = .next { s with history := s.history ++ [.rsp r] }

/-- A Layer 2 command answers the line `text` and changes nothing else. -/
def OnlyReplies (i : Instr) (s : State) (text : List Byte) : Prop :=
  exec i s = .next { s with history := s.history ++ [.line (text ++ [byteLf])] }

end Sys2Proof.Machine
end

