-- ==== Sys2Proof/Certificates/Slice0/Obligations.lean ====
section
/-!
DEFINITION. The statements for the provers. Response words are written out: code in bits 67:64, value in bits 63:0
(30_encoding R104).
-/

open Sys2Proof Sys2Proof.Machine

/-! ## Encoding (30_encoding) -/

/-- Decoding the encoding of any well-formed instruction gives it back, every operand at every value. -/
def Obligations.DecodeInvertsEncode : Prop :=
  ∀ lineMax i, Instr.wellFormed lineMax i = true → decode lineMax (encode i) = .ok i

/-- Each legal operation word is the only encoding of its instruction. -/
def Obligations.EncodeInvertsDecodeWord : Prop :=
  ∀ w i, decodeWord w = .ok i → encode i = .word w

/-- Whatever bits decode, decode to a well-formed instruction. -/
def Obligations.DecodedInstructionIsWellFormed : Prop :=
  ∀ lineMax e i, decode lineMax e = .ok i → i.wellFormed lineMax = true

/-- R103: exactly these words are illegal on the command port; every other word is an operation; an illegal word is
answered ERR_ILLEGAL_OP and changes nothing; the arguments of ENQUEUE are no decode-time check. -/
def Obligations.IllegalWordsAreRefused : Prop :=
  (∀ w : OpWord,
    let op := w.extractLsb' 68 4
    let axis := w.extractLsb' 67 1
    let dir := w.extractLsb' 66 1
    let arg0 := w.extractLsb' 32 32
    let arg1 := w.extractLsb' 0 32
    let illegal := op = 0x0#4 ∨ w.extractLsb' 64 2 ≠ 0#2 ∨ op = 0xE#4 ∨ op = 0xF#4 ∨
      (op ≠ 0x1#4 ∧ (dir ≠ 0#1 ∨ arg0 ≠ 0#32 ∨ arg1 ≠ 0#32)) ∨ ((op = 0x9#4 ∨ op = 0xD#4) ∧ axis ≠ 0#1)
    (illegal → decodePort w = .error .illegalWord) ∧ (¬illegal → ∃ i, decodePort w = .ok i) ∧
      ∀ s rest ws, s.cfg.admissible = true → s.fg = .idle → s.sched = .takeWord :: rest → s.opPort = w :: ws →
        illegal → step s = .next { s with
          sched := rest, opPort := ws, history := s.history ++ [.rsp 0x50000000000000000#68] }) ∧
  ∀ a d n l s, n = 0#32 ∨ l = 0#32 →
    decodePort (0x1#4 ++ axisBit a ++ dirBit d ++ 0#2 ++ n ++ l) = .ok (.enqueue a d n l) ∧
      (s.safety ≠ .emergencyStopped → (s.bank a).estop = false →
        OnlyAnswers (.enqueue a d n l) s 0x30000000000000000#68)

/-- R116: where the operands of HALL_EDGE and ENQUEUE stand in their words. -/
def Obligations.OperandFieldsOfWord : Prop :=
  ∀ w : OpWord,
    (∀ ts, decodeWord w = .ok (.hallEdge ts) →
      ts.extractLsb' 32 32 = w.extractLsb' 32 32 ∧ ts.extractLsb' 0 32 = w.extractLsb' 0 32) ∧
    (∀ a d count delay, decodeWord w = .ok (.enqueue a d count delay) →
      count = w.extractLsb' 32 32 ∧ delay = w.extractLsb' 0 32)

/-- A few of the spec's worked encodings, and lines written out byte by byte, decode to what they stand for. -/
def Obligations.WrittenOutEncodingsDecode : Prop :=
  decodeWord 0x180000000300000002#72 = .ok (.enqueue .traverse .forward 3#32 2#32) ∧
  decodeWord 0x1C0000000200000003#72 = .ok (.enqueue .traverse .reverse 2#32 3#32) ∧
  decodeWord 0x400000000000000000#72 = .ok (.estop .spindle) ∧
  decodeWord 0xC80000000000000000#72 = .ok (.rdState .traverse) ∧
  decodeLine 96 [0x47#8, 0x31#8, 0x20#8, 0x59#8, 0x35#8, 0x30#8] = .ok (.g1 [⟨24, .none, [5, 0], []⟩]) ∧
  decodeLine 96 [0x6D#8, 0x31#8, 0x31#8, 0x32#8, 0x0D#8] = .ok (.m112 [])

/-- R106: the bits of a slot record, and how ENQUEUE's word gives them. -/
def Obligations.SlotRecordLayout : Prop :=
  (∀ c : Chunk, (slotRecord c).extractLsb' 64 1 = dirBit c.dir ∧ (slotRecord c).extractLsb' 32 32 = c.count ∧
    (slotRecord c).extractLsb' 0 32 = c.delay) ∧
  ∀ (w : OpWord) a d count delay, decodeWord w = .ok (.enqueue a d count delay) →
    slotRecord ⟨count, delay, d⟩ = w.extractLsb' 66 1 ++ w.extractLsb' 32 32 ++ w.extractLsb' 0 32

/-! ## Steps -/

/-- A step runs the decoded instruction: the foreground, when it is idle and it is its turn, runs what the next word or
the next line decodes to, on the state without that word or line. It starts nothing while it is busy, when nothing waits,
or when nothing of its own is in progress to go on with; with no turn left nothing happens (the turns: log entry 6). -/
def Obligations.StepRunsDecodedInstruction : Prop :=
  (∀ s rest w ws i, s.cfg.admissible = true → s.fg = .idle → s.sched = .takeWord :: rest → s.opPort = w :: ws →
    decodePort w = .ok i → step s = exec i { s with sched := rest, opPort := ws }) ∧
  (∀ s rest l after i, s.cfg.admissible = true → s.fg = .idle → s.sched = .takeLine :: rest →
    cutLine s.rx = some (l, after) → decodeLine s.cfg.lineMax l = .ok i →
    step s = exec i { s with sched := rest, rx := after }) ∧
  (∀ s rest, s.cfg.admissible = true →
    (s.sched = .takeWord :: rest ∧ (s.fg ≠ .idle ∨ s.opPort = []) ∨
     s.sched = .takeLine :: rest ∧ (s.fg ≠ .idle ∨ 0x0A#8 ∉ s.rx) ∨ s.sched = .poll :: rest ∧ s.fg = .idle) →
    step s = .next { s with sched := rest }) ∧
  ∀ s, s.cfg.admissible = true → s.sched = [] → step s = .next s

/-- What a step does when it is another agent's turn or the environment's: TICK, the edge detector, `estop_req`, a limit
switch, the clock. -/
def Obligations.StepTakesEvents : Prop :=
  ∀ s rest, s.cfg.admissible = true →
    (s.sched = .tick :: rest → step s = exec .tick { s with sched := rest }) ∧
    (∀ level, s.sched = .hallLevel level :: rest →
      step s = if level = s.hallPrev then .next { s with sched := rest, hallIn := level }
        else exec (.hallEdge s.now) { s with sched := rest, hallIn := level, hallPrev := level }) ∧
    (∀ ts, s.sched = .hallEdge ts :: rest → step s = exec (.hallEdge ts) { s with sched := rest }) ∧
    (s.sched = .estopReq :: rest → step s = .next { s with
      sched := rest
      safety := .emergencyStopped
      spindle := { s.spindle with
        head := s.spindle.tail, curRem := 0#32, curCnt := 0#32, active := false, estop := true }
      traverse := { s.traverse with
        head := s.traverse.tail, curRem := 0#32, curCnt := 0#32, active := false, estop := true }
      targetRpm := 0
      history := s.history ++ [.spindleDrive .cut] }) ∧
    (∀ level, s.sched = .limitSwitch .traverse level :: rest →
      step s = .next { s with sched := rest, limitTraverse := level }) ∧
    (∀ level, s.sched = .limitSwitch .spindle level :: rest →
      step s = .next { s with sched := rest, limitSpindle := level }) ∧
    (∀ delta, s.sched = .clock delta :: rest → step s = .next { s with sched := rest, now := s.now + delta })

/-- Which lines are blank, malformed, unknown or commands, and which command each is; that a line of the first three
kinds is answered so, a blank one not at all, and changes nothing else. A dropped CR, an over-long blank line and the
digits of a command token are read as log entries 12, 13 and 14 say. -/
def Obligations.RejectedLinesAreAnswered : Prop :=
  (∀ lineMax body l, l = body ++ [0x0D#8] ∨ (l = body ∧ body.getLast? ≠ some 0x0D#8) →
    if ∀ b ∈ body, b = 0x20#8 ∨ b = 0x09#8 then decodeLine lineMax l = .error .blank
    else if lineMax < body.length ∨ ∃ b ∈ body, ¬(0x20 ≤ b.toNat ∧ b.toNat ≤ 0x7E ∨ b = 0x09#8) then
      decodeLine lineMax l = .error .malformed
    else
      (∀ e ∈ keywordTable, lineTokens body = [e.1] → decodeLine lineMax l = .ok e.2) ∧
      (∀ c n ps, CommandLine (lineTokens body) c n ps →
        (∀ e ∈ commandTable, e.1 = (c, n) → decodeLine lineMax l = .ok (e.2 ps)) ∧
        ((∀ e ∈ commandTable, e.1 ≠ (c, n)) → decodeLine lineMax l = .error .unknownCommand)) ∧
      ((∀ e ∈ keywordTable, lineTokens body ≠ [e.1]) → (∀ c n ps, ¬CommandLine (lineTokens body) c n ps) →
        decodeLine lineMax l = .error .malformed)) ∧
  ∀ s rest l after, s.cfg.admissible = true → s.fg = .idle → s.sched = .takeLine :: rest →
    cutLine s.rx = some (l, after) →
    s.rx = l ++ 0x0A#8 :: after ∧ 0x0A#8 ∉ l ∧
    (decodeLine s.cfg.lineMax l = .error .malformed → step s = .next { s with
      sched := rest, rx := after, history := s.history ++ [.line (ascii "ERROR_MALFORMED" ++ [0x0A#8])] }) ∧
    (decodeLine s.cfg.lineMax l = .error .unknownCommand → step s = .next { s with
      sched := rest, rx := after, history := s.history ++ [.line (ascii "ERROR_UNKNOWN_COMMAND" ++ [0x0A#8])] }) ∧
    (decodeLine s.cfg.lineMax l = .error .blank → step s = .next { s with sched := rest, rx := after })

/-- Which configurations run: exactly those within the spec's bounds, with a printable version string (log entry 21), are
admissible; a step on any other is refused by name, and no step changes the configuration. -/
def Obligations.InadmissibleConfigurationIsRefused : Prop :=
  (∀ cfg : Config, cfg.admissible = true ↔
    1 ≤ cfg.cap ∧ 1 ≤ cfg.tsHz ∧ 1 ≤ cfg.tickPeriodTs ∧ 1 ≤ cfg.edgesPerRev ∧ 1 ≤ cfg.debounceTs ∧
    0 < cfg.emaAlpha ∧ cfg.emaAlpha ≤ 1 ∧
    (1 ≤ cfg.homeChunkSteps.toNat ∧ cfg.homeChunkSteps.toNat ≤ 2 ^ 32 - 1) ∧
    (1 ≤ cfg.homeDelay.toNat ∧ cfg.homeDelay.toNat ≤ 2 ^ 32 - 1) ∧
    0 < cfg.stepsPerMm ∧ cfg.travelMinMm ≤ cfg.travelMaxMm ∧ 0 ≤ cfg.maxRpm ∧
    0 < cfg.defaultFeed ∧ cfg.defaultFeed ≤ cfg.maxFeed ∧ 0 ≤ cfg.rpmZeroEps ∧ 16 ≤ cfg.lineMax ∧
    ∀ b ∈ cfg.versionString, 0x20 ≤ b.toNat ∧ b.toNat ≤ 0x7E) ∧
  (∀ s : State, s.cfg.admissible = false → step s = .refused .inadmissibleConfiguration) ∧
  ∀ s t, step s = .next t → s.cfg.admissible = true ∧ t.cfg = s.cfg

/-- The core has no halted state: with an admissible configuration every step, in every state, goes on. -/
def Obligations.AdmissibleStepCompletes : Prop :=
  ∀ s : State, s.cfg.admissible = true → ∃ t, step s = .next t

/-! ## Move Queue operations (41_move_queue) -/

/-- An ENQUEUE that nothing forbids writes its record to the slot at `tail`, advances `tail`, sets `active`, writes no
other slot and nothing else, and answers OK; the ring then holds the chunk behind those it held. -/
def Obligations.EnqueueStoresChunk : Prop :=
  ∀ s a d n l, s.safety ≠ .emergencyStopped → (s.bank a).estop = false → n ≠ 0#32 → l ≠ 0#32 →
    s.depth a ≠ s.cfg.cap → BankInv s.cfg.cap (s.bank a) →
    ∃ t, exec (.enqueue a d n l) s = .next t ∧
      t = { s with spindle := t.spindle, traverse := t.traverse, history := s.history ++ [.rsp 0#68] } ∧
      (∀ c, c ≠ a → t.bank c = s.bank c) ∧
      t.bank a = { s.bank a with
        ring := (t.bank a).ring, tail := ((s.bank a).tail + 1) % (2 * s.cfg.cap), active := true } ∧
      memRead s.cfg.cap (t.bank a) (s.bank a).tail = ⟨n, l, d⟩ ∧
      (∀ j, j % s.cfg.cap ≠ (s.bank a).tail % s.cfg.cap →
        memRead s.cfg.cap (t.bank a) j = memRead s.cfg.cap (s.bank a) j) ∧
      ringChunks s.cfg.cap (t.bank a) = ringChunks s.cfg.cap (s.bank a) ++ [⟨n, l, d⟩] ∧
      t.planned a = s.planned a + signed d n.toNat

/-- What ENQUEUE refuses, in the order of its tests, and that a refused one changes nothing. -/
def Obligations.EnqueueRejections : Prop :=
  ∀ s a d n l,
    if s.safety = .emergencyStopped ∨ (s.bank a).estop = true then
      OnlyAnswers (.enqueue a d n l) s 0x20000000000000000#68
    else if n = 0#32 ∨ l = 0#32 then OnlyAnswers (.enqueue a d n l) s 0x30000000000000000#68
    else s.depth a = s.cfg.cap → OnlyAnswers (.enqueue a d n l) s 0x10000000000000000#68

/-- PAUSE and RESUME write the paused flag of their axis and nothing else, in every state. -/
def Obligations.PauseAndResumeWriteOneFlag : Prop :=
  ∀ s a, AnswersOnAxis (.pause a) s a { s.bank a with paused := true } 0#68 ∧
    AnswersOnAxis (.resume a) s a { s.bank a with paused := false } 0#68

/-- ESTOP, QSTOP and CLR_ESTOP: what each writes of its axis, in every state. -/
def Obligations.StopsOfOneAxis : Prop :=
  ∀ s a,
    AnswersOnAxis (.estop a) s a { s.bank a with
      head := (s.bank a).tail, curRem := 0#32, curCnt := 0#32, active := false, estop := true } 0#68 ∧
    AnswersOnAxis (.qstop a) s a { s.bank a with head := (s.bank a).tail } 0#68 ∧
    AnswersOnAxis (.clrEstop a) s a { s.bank a with estop := false, paused := false } 0#68

/-- R181: ESTOP_ALL, on the command port, from `estop_req` and as M112, in every state: both axes flushed and stopped,
the spindle request cut. -/
def Obligations.EstopAllStopsBothAxes : Prop :=
  (∀ s, let stopped := fun (out : List OutEvent) => { s with
      safety := .emergencyStopped
      spindle := { s.spindle with
        head := s.spindle.tail, curRem := 0#32, curCnt := 0#32, active := false, estop := true }
      traverse := { s.traverse with
        head := s.traverse.tail, curRem := 0#32, curCnt := 0#32, active := false, estop := true }
      targetRpm := 0
      history := s.history ++ [.spindleDrive .cut] ++ out }
    exec .estopAll s = .next (stopped [.rsp 0#68]) ∧
    (∀ ps, exec (.m112 ps) s = .next (stopped [.line (ascii "OK" ++ [0x0A#8])])) ∧
    (∀ rest, s.cfg.admissible = true → s.sched = .estopReq :: rest →
      step s = .next { stopped [] with sched := rest })) ∧
  encode .estopAll = .word 0xD00000000000000000#72

/-- HOME begins, or is refused, by its start step. That the foreground keeps who called (`.operation` here) is the
model's: log entry 15. -/
def Obligations.HomeStarts : Prop :=
  ∀ s a,
    if s.safety = .emergencyStopped ∨ (s.bank a).estop = true then
      OnlyAnswers (.home a) s 0x20000000000000000#68
    else if s.safety = .feedHold ∨ (s.bank a).paused = true then
      OnlyAnswers (.home a) s 0x60000000000000000#68
    else exec (.home a) s = .next { s with fg := .home a s.now .operation }

/-- A poll of HOME, whoever started it: when it is enabled, what it tests in which order, and what each outcome writes
and answers. -/
def Obligations.HomePollSteps : Prop :=
  ∀ s rest a t0 caller, s.cfg.admissible = true → s.sched = .poll :: rest → s.fg = .home a t0 caller →
    BankInv s.cfg.cap (s.bank a) →
    let overdue := s.cfg.homingTimeoutTs < (s.now - t0).toNat
    let switch := match a with | .spindle => s.limitSpindle | .traverse => s.limitTraverse
    if ¬((s.bank a).active = false ∨ overdue ∨ (s.bank a).estop = true) then
      step s = .next { s with sched := rest }
    else if s.safety = .emergencyStopped ∨ (s.bank a).estop = true then
      step s = .next { s with
        sched := rest, fg := .idle
        history := s.history ++ [homeAnswer caller 0x20000000000000000#68 (ascii "ERROR_SAFETY_STATE")] }
    else if (s.bank a).active = false ∧ switch = true then
      ∃ t, step s = .next t ∧ t.bank a = { s.bank a with pos := 0#64, homed := true } ∧
        (∀ c, c ≠ a → t.bank c = s.bank c) ∧
        t = { s with
          sched := rest, fg := .idle, spindle := t.spindle, traverse := t.traverse
          history := s.history ++ [homeAnswer caller 0#68 (ascii "OK")] }
    else if overdue then
      ∃ t, step s = .next t ∧ t.bank a = { s.bank a with
          head := (s.bank a).tail, curRem := 0#32, curCnt := 0#32, active := false } ∧
        (∀ c, c ≠ a → t.bank c = s.bank c) ∧
        t = { s with
          sched := rest, fg := .idle, spindle := t.spindle, traverse := t.traverse
          history := s.history ++ [homeAnswer caller 0x40000000000000000#68 (ascii "ERROR_HOMING_TIMEOUT")] }
    else
      ∃ t, step s = .next t ∧ t.bank a = { s.bank a with
          ring := (t.bank a).ring, tail := ((s.bank a).tail + 1) % (2 * s.cfg.cap), active := true } ∧
        ringChunks s.cfg.cap (t.bank a) = [⟨s.cfg.homeChunkSteps, s.cfg.homeDelay, s.cfg.homeDir⟩] ∧
        (∀ j, j % s.cfg.cap ≠ (s.bank a).tail % s.cfg.cap →
          memRead s.cfg.cap (t.bank a) j = memRead s.cfg.cap (s.bank a) j) ∧
        (∀ c, c ≠ a → t.bank c = s.bank c) ∧
        t = { s with sched := rest, spindle := t.spindle, traverse := t.traverse }

/-- The reads of an axis answer its register or view and change nothing, in every state. The word of a depth that 64 bits
cannot hold is the model's free value (log entry 23). -/
def Obligations.AxisReadsAnswer : Prop :=
  ∀ s a,
    OnlyAnswers (.isActive a) s (if (s.bank a).active = true then 1#68 else 0#68) ∧
    (let depth := ((((s.bank a).tail : Int) - ((s.bank a).head : Int)) % (2 * s.cfg.cap : Int)).toNat
     ∃ v : BitVec 64, OnlyAnswers (.queueDepth a) s (0#4 ++ v) ∧ (depth < 2 ^ 64 → v.toNat = depth)) ∧
    OnlyAnswers (.position a) s (0#4 ++ (s.bank a).pos) ∧
    OnlyAnswers (.rdState a) s (0#4 ++ s.axstat a)

/-- R40: the bits of AXSTAT. -/
def Obligations.AxstatBits : Prop :=
  ∀ (s : State) a,
    ((s.axstat a).getLsbD 0 = (s.bank a).active) ∧ ((s.axstat a).getLsbD 1 = (s.bank a).paused) ∧
    ((s.axstat a).getLsbD 2 = (s.bank a).estop) ∧ ((s.axstat a).getLsbD 3 = (s.bank a).homed) ∧
    (s.axstat a).extractLsb' 4 2 = (match s.safety with
      | .normal => 0#2 | .feedHold => 1#2 | .emergencyStopped => 2#2) ∧
    ((s.axstat a).getLsbD 6 = decide ((s.bank a).curDir = .reverse)) ∧ (s.axstat a).extractLsb' 7 57 = 0#57

/-- R33: the four-state view is a function of the flags, and which operation makes which transition of it. A TICK finds
nothing left when the axis has at most one serviced TICK's worth of pulse train before it. -/
def Obligations.AxisViewTransitions : Prop :=
  ∀ s a, BankInv s.cfg.cap (s.bank a) →
    ((s.bank a).view = if (s.bank a).estop then .estopped else if (s.bank a).paused then .paused
      else if (s.bank a).active then .active else .idle) ∧
    (∀ d n l t, (s.bank a).view = .idle → exec (.enqueue a d n l) s = .next t → t.bank a ≠ s.bank a →
      (t.bank a).view = .active) ∧
    (∀ d n l t, (s.bank a).view = .paused → exec (.enqueue a d n l) s = .next t → t.bank a ≠ s.bank a →
      (t.bank a).view = .paused ∧ (t.bank a).active = true) ∧
    (∀ t, (s.bank a).view = .idle ∨ (s.bank a).view = .active → exec (.pause a) s = .next t →
      (t.bank a).view = .paused ∧ (t.bank a).active = (s.bank a).active) ∧
    (∀ t, (s.bank a).view = .paused → exec (.resume a) s = .next t →
      (t.bank a).view = if (s.bank a).active then .active else .idle) ∧
    (∀ t, exec (.estop a) s = .next t → (t.bank a).view = .estopped) ∧
    (∀ t, (s.bank a).view = .estopped → exec (.clrEstop a) s = .next t → (t.bank a).view = .idle) ∧
    (∀ t, (s.bank a).view = .active → exec .tick s = .next t →
      (t.bank a).view = if 1 < ((s.bank a).train s.cfg.cap).length then .active else .idle)

/-! ## TICK (40_scheduler) -/

/-- TICK answers in every state. It writes only the two banks, and of them not the ring, `tail` or a flag but `active`;
the spindle's pulse comes before the traverse's; what becomes of an axis does not depend on the other axis. -/
def Obligations.TickOrderAndFrame : Prop :=
  ∀ s, ∃ t ds dt, exec .tick s = .next t ∧
    t = { s with
      spindle := t.spindle, traverse := t.traverse
      history := s.history ++ ((Option.map (OutEvent.stepPulse .spindle) ds).toList ++
        (Option.map (OutEvent.stepPulse .traverse) dt).toList) } ∧
    (∀ a, (t.bank a).ring = (s.bank a).ring ∧ (t.bank a).tail = (s.bank a).tail ∧
      (t.bank a).homed = (s.bank a).homed ∧ (t.bank a).paused = (s.bank a).paused ∧
      (t.bank a).estop = (s.bank a).estop ∧ ((t.bank a).active = true → (s.bank a).active = true)) ∧
    ∀ s' t' a, s'.cfg.cap = s.cfg.cap → s'.bank a = s.bank a → exec .tick s' = .next t' → t'.bank a = t.bank a

/-- A TICK does not touch an axis that is idle, paused or stopped. -/
def Obligations.TickLeavesIneligibleAxis : Prop :=
  ∀ s a, (s.bank a).active = false ∨ (s.bank a).paused = true ∨ (s.bank a).estop = true →
    ∃ t, exec .tick s = .next t ∧ t.bank a = s.bank a ∧ t.pulses a = s.pulses a

/-- A TICK on an axis with a chunk loaded counts down; when the countdown ends it gives one pulse, moves the position
by one step, and goes on with the same chunk, with the next one of the ring, or idles. -/
def Obligations.TickStepsLoadedAxis : Prop :=
  ∀ s a, let b := s.bank a
    let next := memRead s.cfg.cap b b.head
    let moved := { b with
      curRem := b.curRem - 1#32, curCnt := b.curDelay
      pos := if b.curDir = .forward then b.pos + 1#64 else b.pos - 1#64 }
    b.active = true → b.paused = false → b.estop = false → b.curRem ≠ 0#32 →
    ∃ t, exec .tick s = .next t ∧
      (if b.curCnt ≠ 1#32 then t.pulses a = s.pulses a ∧ t.bank a = { b with curCnt := b.curCnt - 1#32 }
       else t.pulses a = s.pulses a ++ [b.curDir] ∧
        (if b.curRem ≠ 1#32 then t.bank a = moved
         else if b.head = b.tail then t.bank a = { moved with active := false }
         else b.head < 2 * s.cfg.cap → b.tail < 2 * s.cfg.cap → next.count ≠ 0#32 → next.delay ≠ 0#32 →
          t.bank a = { moved with
            head := (b.head + 1) % (2 * s.cfg.cap), curRem := next.count, curDelay := next.delay
            curCnt := next.delay, curDir := next.dir }))

/-- A TICK on an axis with nothing loaded loads the oldest chunk and makes its first countdown in the same TICK, or, with
an empty ring, idles the axis without a pulse. A chunk of one step with delay 1 ends in that TICK: the axis idles, or
loads the next chunk as well. -/
def Obligations.TickLoadsChunk : Prop :=
  ∀ s a, let b := s.bank a
    let next := memRead s.cfg.cap b b.head
    let loaded := { b with
      head := (b.head + 1) % (2 * s.cfg.cap), curRem := next.count, curDelay := next.delay
      curCnt := next.delay - 1#32, curDir := next.dir }
    b.active = true → b.paused = false → b.estop = false → b.curRem = 0#32 → BankInv s.cfg.cap b →
    ∃ t, exec .tick s = .next t ∧
      (if b.head = b.tail then t.bank a = { b with active := false } ∧ t.pulses a = s.pulses a
       else if next.delay ≠ 1#32 then t.bank a = loaded ∧ t.pulses a = s.pulses a
       else
        let stepped := { loaded with
          curRem := next.count - 1#32, curCnt := 1#32
          pos := if next.dir = .forward then b.pos + 1#64 else b.pos - 1#64 }
        let after := memRead s.cfg.cap b (b.head + 1)
        t.pulses a = s.pulses a ++ [next.dir] ∧
        (if next.count ≠ 1#32 then t.bank a = stepped
         else if (b.head + 1) % (2 * s.cfg.cap) = b.tail then t.bank a = { stepped with active := false }
         else t.bank a = { stepped with
          head := (b.head + 2) % (2 * s.cfg.cap), curRem := after.count, curDelay := after.delay
          curCnt := after.delay, curDir := after.dir }))

/-- R145: a record without steps or without delay at the head of the ring is dropped whenever it is looked at, at the
start of a TICK with nothing loaded and after the last step of a loaded chunk: the TICK does what it would have done had
the ring begun after it. So it is for the second look of a TICK too: a TICK that loads a chunk does what it would have
done had the chunk been loaded before it. -/
def Obligations.TickDiscardsEmptyRecord : Prop :=
  ∀ s a, let b := s.bank a
    let next := memRead s.cfg.cap b b.head
    b.active = true → b.paused = false → b.estop = false → b.head ≠ b.tail →
    b.head < 2 * s.cfg.cap → b.tail < 2 * s.cfg.cap →
    (next.count = 0#32 ∨ next.delay = 0#32 → b.curRem = 0#32 ∨ (b.curRem = 1#32 ∧ b.curCnt = 1#32) →
      exec .tick s = exec .tick (s.setBank a { b with head := (b.head + 1) % (2 * s.cfg.cap) })) ∧
    (next.count ≠ 0#32 → next.delay ≠ 0#32 → b.curRem = 0#32 →
      exec .tick s = exec .tick (s.setBank a { b with
        head := (b.head + 1) % (2 * s.cfg.cap), curRem := next.count, curDelay := next.delay
        curCnt := next.delay, curDir := next.dir }))

/-- The pulse train of an axis: from any state of the invariant, n TICKs give the first n entries of the train the axis
has before it (the loaded chunk, then the ring's, without a gap), and the axis is idle from the end of the train on. -/
def Obligations.PulseTrain : Prop :=
  ∀ s a n, BankInv s.cfg.cap (s.bank a) → (s.bank a).eligible = true →
    ∃ t, execAll (List.replicate n .tick) s = .next t ∧
      t.pulses a = s.pulses a ++ (((s.bank a).train s.cfg.cap).take n).filterMap id ∧
      (0 < n → (t.bank a).active = decide (n < ((s.bank a).train s.cfg.cap).length))

/-- R150: a chunk enqueued on an idle axis steps at the serviced TICKs k * delay; chunks enqueued, at any moments, before
the first has ended and as many as the ring holds beside the loaded one, follow without a gap; the axis is idle from the
end of the last chunk's last TICK. -/
def Obligations.ChunkTiming : Prop :=
  ∀ s a c cs n, BankInv s.cfg.cap (s.bank a) → s.safety ≠ .emergencyStopped → (s.bank a).estop = false →
    (s.bank a).paused = false → (s.bank a).active = false →
    (∀ e ∈ c :: cs.map Prod.snd, e.count ≠ 0#32 ∧ e.delay ≠ 0#32) →
    cs.length + (if (cs.map Prod.fst).sum = 0 then 1 else 0) ≤ s.cfg.cap →
    (cs.map Prod.fst).sum < c.count.toNat * c.delay.toNat →
    ∃ t, execAll (lateEnqueues a ((0, c) :: cs) ++ List.replicate n .tick) s = .next t ∧
      t.pulses a = s.pulses a ++ timedPulses (c :: cs.map Prod.snd) ((cs.map Prod.fst).sum + n) ∧
      (t.bank a).active = decide ((cs.map Prod.fst).sum + n < totalTicks (c :: cs.map Prod.snd))

/-- A TICK keeps the planned position of each axis (modulo the wrap of the position counter), and an axis that is idle
stands where it was planned to be. -/
def Obligations.TickKeepsPlanned : Prop :=
  ∀ s a, BankInv s.cfg.cap (s.bank a) →
    (∃ t, exec .tick s = .next t ∧ BitVec.ofInt 64 (t.planned a) = BitVec.ofInt 64 (s.planned a)) ∧
    ((s.bank a).active = false → s.planned a = (s.bank a).pos.toInt)

/-- R152: a run of TICKs with PAUSE and RESUME among them leaves an axis as the TICKs that service it alone would have,
with the same pulses. -/
def Obligations.PauseResumeDeterminism : Prop :=
  ∀ s a ops, (∀ i ∈ ops, i = .tick ∨ i = .pause a ∨ i = .resume a) →
    ∃ t u, execAll ops s = .next t ∧
      execAll (List.replicate (servicedTicks a (s.bank a).paused ops) .tick)
        (s.setBank a { s.bank a with paused := false }) = .next u ∧
      { t.bank a with paused := false } = u.bank a ∧ t.pulses a = u.pulses a

/-- R153: only a TICK puts step pulses into the output history. -/
def Obligations.OnlyTickEmitsPulses : Prop :=
  (∀ i s t a, i ≠ .tick → exec i s = .next t → t.pulses a = s.pulses a) ∧
  ∀ s t a, s.sched.head? ≠ some .tick → step s = .next t → t.pulses a = s.pulses a

/-- R155: after ESTOP_ALL, M112 or `estop_req` both axes, and after ESTOP its axis, are stopped, idle and empty, and
silent until the stop has been cleared and a chunk enqueued after that. For every step, whoever takes it: a stopped, idle
and empty axis stays so and gives no pulse unless the step clears the stop, and an idle and empty axis stays so and gives
no pulse unless the step enqueues on it (itself, or as a poll of its homing). -/
def Obligations.EmergencyStopSilencesAxes : Prop :=
  (∀ s, let silent := fun a (t : State) =>
      (t.bank a).estop = true ∧ Quiet t.cfg.cap (t.bank a) ∧ SilentUntilRestarted a t
    (∀ i, i = .estopAll ∨ (∃ ps, i = .m112 ps) → ∃ t, exec i s = .next t ∧ ∀ a, silent a t) ∧
    (∀ rest, s.cfg.admissible = true → s.sched = .estopReq :: rest → ∃ t, step s = .next t ∧ ∀ a, silent a t) ∧
    ∀ a, ∃ t, exec (.estop a) s = .next t ∧ silent a t) ∧
  ∀ s t a, step s = .next t → Quiet s.cfg.cap (s.bank a) →
    ((s.bank a).estop = true → (∀ i u, fetch s = .run i u → clearsStop a i = false) →
      (t.bank a).estop = true ∧ Quiet t.cfg.cap (t.bank a) ∧ t.pulses a = s.pulses a) ∧
    ((∀ i u, fetch s = .run i u → enqueuesOn a i = false) →
      (s.sched.head? = some .poll → ∀ t0 caller, s.fg ≠ .home a t0 caller) →
      Quiet t.cfg.cap (t.bank a) ∧ t.pulses a = s.pulses a)

/-! ## The Hall edge and the speed (42_rpm_estimator) -/

/-- R222: the first edge stores its timestamp and leaves the speed, which is 0 until then; the second accepted edge gives
the first sample. -/
def Obligations.FirstHallEdge : Prop :=
  (∀ s ts, s.hallValid = false → exec (.hallEdge ts) s = .next { s with lastEdgeTs := ts, hallValid := true }) ∧
  (∀ s t, (s.hallValid = false → s.currentRpm = 0) → step s = .next t → t.hallValid = false → t.currentRpm = 0) ∧
  ∀ s t1 t2, s.hallValid = false → s.currentRpm = 0 → s.cfg.debounceTs ≤ (t2 - t1).toNat →
    execAll [.hallEdge t1, .hallEdge t2] s = .next { s with
      hallValid := true, lastEdgeTs := t2, currentRpm := ema s.cfg (instRpm s.cfg (t2 - t1).toNat) 0 }

/-- An edge closer to the last accepted one than the debounce floor changes nothing; that the difference is taken
against the last accepted edge, so that above the debounce ceiling some edges are accepted, is the model's choice between
42 R221 and 70 R358 (1): log entry 25 (DEDUCED). Any other stores the smoothed
speed, rounded at the five places the spec names, and its timestamp; in exact arithmetic the speed is the weighted mean
of the new sample and the old speed. -/
def Obligations.LaterHallEdge : Prop :=
  ∀ s ts, s.hallValid = true →
    let r := rnd s.cfg.rpmFormat
    let q : Rat := 60 * s.cfg.tsHz / ((ts - s.lastEdgeTs).toNat * s.cfg.edgesPerRev)
    if (ts - s.lastEdgeTs).toNat < s.cfg.debounceTs then exec (.hallEdge ts) s = .next s
    else exec (.hallEdge ts) s = .next { s with
      currentRpm := r (r (r s.cfg.emaAlpha * r q) + r (r (1 - s.cfg.emaAlpha) * s.currentRpm))
      lastEdgeTs := ts } ∧
    (s.cfg.rpmFormat = .exact → ∀ t, exec (.hallEdge ts) s = .next t →
      t.currentRpm = s.cfg.emaAlpha * q + (1 - s.cfg.emaAlpha) * s.currentRpm)

/-- GET_RPM answers 0 before any edge and when the last one is longer ago than the stall timeout, else the stored speed,
and changes nothing. The word of a speed in another format than binary32, and of one that is no binary32 number, is the
model's free value (log entries 10, 19). -/
def Obligations.GetRpmReads : Prop :=
  ∀ s, if s.hallValid = false ∨ s.cfg.stallTimeoutTs < (s.now - s.lastEdgeTs).toNat then
      OnlyAnswers .getRpm s 0#68
    else OnlyAnswers .getRpm s (0#4 ++ rpmWord s.cfg.rpmFormat s.currentRpm)

/-- The response value of a binary32 speed is its IEEE 754 image, zero-extended: exponent field and fraction of a normal
number, the fraction alone of a subnormal one. -/
def Obligations.RpmWordIsBinary32Image : Prop :=
  (∀ e m : Nat, 1 ≤ e → e ≤ 254 → m < 2 ^ 23 →
    rpmWord .binary32 ((2 ^ 23 + m : Nat) * (2 : Rat) ^ ((e : Int) - 150)) = BitVec.ofNat 64 (e * 2 ^ 23 + m)) ∧
  ∀ m : Nat, m < 2 ^ 23 → rpmWord .binary32 (m * (2 : Rat) ^ (-149 : Int)) = BitVec.ofNat 64 m

/-- binary32 rounding gives a binary32 number, none is nearer, and of two equally near it gives the one whose significand
is even. Strictly between 2^-150 and 2^-149 too it rounds to nearest, which is the model's choice: log entry 24.
From 2^128 - 2^103 on the result is a free value: log entries 9 and 26. -/
def Obligations.Binary32RoundsToNearest : Prop :=
  ∀ q : Rat, 0 ≤ q → q < (2 : Rat) ^ 128 - (2 : Rat) ^ 103 →
    (∀ (m : Nat) (e : Int), m < 2 ^ 24 → -149 ≤ e → e ≤ 104 → |rnd .binary32 q - q| ≤ |m * (2 : Rat) ^ e - q|) ∧
    ∃ (m : Nat) (e : Int), m < 2 ^ 24 ∧ -149 ≤ e ∧ e ≤ 104 ∧ (2 ^ 23 ≤ m ∨ e = -149) ∧
      rnd .binary32 q = m * (2 : Rat) ^ e ∧
      ∀ (m' : Nat) (e' : Int), m' < 2 ^ 24 → -149 ≤ e' → e' ≤ 104 →
        |rnd .binary32 q - q| = |m' * (2 : Rat) ^ e' - q| → m' * (2 : Rat) ^ e' ≠ rnd .binary32 q → m % 2 = 0

/-- A TICK and a Hall edge give the same state in either order. -/
def Obligations.HallEdgeAndTickCommute : Prop :=
  ∀ s ts, ∃ t, execAll [.tick, .hallEdge ts] s = .next t ∧ execAll [.hallEdge ts, .tick] s = .next t

/-! ## Commands (43_command_interpreter) -/

/-- An accepted G0 or G1 plans the traverse to end exactly at its target: it enqueues the missing steps at the feed
rate's delay, in chunks of at most 2^32-1 steps, the full ones first, into the slots from `tail` on and no other, stores
the feed rate, answers OK and changes nothing else. -/
def Obligations.MoveReachesTarget : Prop :=
  ∀ s ps y f (i : Instr), i = .g0 ps ∨ i = .g1 ps → CoreInv s → s.safety ≠ .emergencyStopped →
    s.traverse.estop = false → paramPresent letterX ps = false → paramValue letterY ps = some y →
    s.cfg.travelMinMm ≤ y → y ≤ s.cfg.travelMaxMm → (paramValue letterF ps).getD s.feed = f → 0 < f →
    f ≤ s.cfg.maxFeed → 1 ≤ feedDelay s.cfg f → feedDelay s.cfg f ≤ 2 ^ 32 - 1 →
    let n := steps s.cfg y - s.planned .traverse
    let pieces := ⌈(n.natAbs : Rat) / (2 ^ 32 - 1)⌉.toNat
    (n.natAbs : Int) ≤ (2 ^ 32 - 1) * (s.cfg.cap - s.depth .traverse) →
    ∃ t, exec i s = .next t ∧
      t = { s with
        traverse := { s.traverse with
          ring := t.traverse.ring, tail := t.traverse.tail, active := t.traverse.active }
        feed := f
        history := s.history ++ [.line (ascii "OK" ++ [0x0A#8])] } ∧
      t.planned .traverse = steps s.cfg y ∧
      (n = 0 → t.traverse = s.traverse) ∧
      (n ≠ 0 → t.traverse.active = true) ∧
      t.traverse.tail = (s.traverse.tail + pieces) % (2 * s.cfg.cap) ∧
      (∀ j, (∀ k < pieces, j % s.cfg.cap ≠ (s.traverse.tail + k) % s.cfg.cap) →
        memRead s.cfg.cap t.traverse j = memRead s.cfg.cap s.traverse j) ∧
      ringChunks s.cfg.cap t.traverse = ringChunks s.cfg.cap s.traverse ++ (List.range pieces).map fun k =>
        ⟨BitVec.ofNat 32 (min (2 ^ 32 - 1) (n.natAbs - k * (2 ^ 32 - 1))), BitVec.ofInt 32 (feedDelay s.cfg f),
          if 0 < n then .forward else .reverse⟩

/-- What G0 and G1 refuse, in the order of their tests, and that a refused one changes nothing. -/
def Obligations.MoveRejections : Prop :=
  ∀ s ps, let refuse := fun text => OnlyReplies (.g0 ps) s (ascii text) ∧ OnlyReplies (.g1 ps) s (ascii text)
    if s.safety = .emergencyStopped ∨ s.traverse.estop = true then refuse "ERROR_SAFETY_STATE"
    else if paramPresent letterX ps = true then refuse "ERROR_UNSUPPORTED_AXIS"
    else match paramValue letterY ps with
      | none => refuse "ERROR_MISSING_PARAM"
      | some y =>
        let f := (paramValue letterF ps).getD s.feed
        let d := feedDelay s.cfg f
        let m := (steps s.cfg y - s.planned .traverse).natAbs
        if y < s.cfg.travelMinMm ∨ s.cfg.travelMaxMm < y ∨
            (paramPresent letterF ps = true ∧ (f ≤ 0 ∨ s.cfg.maxFeed < f)) ∨ d < 1 ∨ 2 ^ 32 - 1 < d then
          refuse "ERROR_OUT_OF_RANGE"
        else m ≠ 0 → (s.cfg.cap : Int) - s.depth .traverse < ⌈(m : Rat) / (2 ^ 32 - 1)⌉ →
          refuse "ERROR_QUEUE_FULL"

/-- G28 begins to home the traverse, or is refused, by its start step. -/
def Obligations.HomingCommandStarts : Prop :=
  ∀ s ps,
    if s.safety ≠ .normal then OnlyReplies (.g28 ps) s (ascii "ERROR_SAFETY_STATE")
    else if paramPresent letterX ps = true then OnlyReplies (.g28 ps) s (ascii "ERROR_UNSUPPORTED_AXIS")
    else if s.traverse.estop = true ∨ s.traverse.paused = true then
      OnlyReplies (.g28 ps) s (ascii "ERROR_SAFETY_STATE")
    else exec (.g28 ps) s = .next { s with fg := .home .traverse s.now .g28 }

/-- G4: an impossible dwell and a sync that could not end are refused; a sync with both axes idle is answered at once;
any other one begins to wait. -/
def Obligations.DwellAndSyncStart : Prop :=
  ∀ s ps, let p := (paramValue letterP ps).getD 0
    let dur := ⌈p * s.cfg.tsHz / 1000⌉
    if p < 0 ∨ 2 ^ 63 ≤ dur then OnlyReplies (.g4 ps) s (ascii "ERROR_OUT_OF_RANGE")
    else if p ≠ 0 then exec (.g4 ps) s = .next { s with fg := .dwell s.now dur.toNat }
    else if (s.spindle.active = true ∧ s.spindle.paused = true) ∨
        (s.traverse.active = true ∧ s.traverse.paused = true) then
      OnlyReplies (.g4 ps) s (ascii "ERROR_SAFETY_STATE")
    else if s.spindle.active = false ∧ s.traverse.active = false then
      exec (.g4 ps) s = .next { s with
        fg := .idle, history := s.history ++ [.line (ascii "OK" ++ [0x0A#8])] }
    else exec (.g4 ps) s = .next { s with fg := .sync }

/-- The end of a G4: a dwell ends at the first foreground step after its time, a sync at the first with both axes idle;
before that the foreground takes no step. -/
def Obligations.DwellAndSyncEnd : Prop :=
  ∀ s rest, s.cfg.admissible = true → s.sched = .poll :: rest →
    let done := { s with
      sched := rest, fg := .idle, history := s.history ++ [.line (ascii "OK" ++ [0x0A#8])] }
    (∀ t0 dur, s.fg = .dwell t0 dur →
      step s = if dur ≤ (s.now - t0).toNat then .next done else .next { s with sched := rest }) ∧
    (s.fg = .sync → step s =
      if s.spindle.active = false ∧ s.traverse.active = false then .next done else .next { s with sched := rest })

/-- M3 and M4 set the target speed and the direction and ask the drive to ramp, or are refused, in the order of their
tests. -/
def Obligations.SpindleCommands : Prop :=
  ∀ s ps, let refuse := fun text => OnlyReplies (.m3 ps) s (ascii text) ∧ OnlyReplies (.m4 ps) s (ascii text)
    if s.safety ≠ .normal then refuse "ERROR_SAFETY_STATE"
    else match paramValue letterS ps with
      | none => refuse "ERROR_MISSING_PARAM"
      | some v =>
        if v < 0 ∨ s.cfg.maxRpm < v then refuse "ERROR_OUT_OF_RANGE"
        else
          let started := fun d => { s with
            targetRpm := v, spinDir := d
            history := s.history ++ [.spindleDrive .ramp, .line (ascii "OK" ++ [0x0A#8])] }
          exec (.m3 ps) s = .next (started .cw) ∧ exec (.m4 ps) s = .next (started .ccw)

/-- M5 and M410 are allowed in every state: one asks the spindle to stop, the other drops the chunks of both rings and
keeps the loaded ones. -/
def Obligations.StopCommandsAlwaysRun : Prop :=
  ∀ s ps,
    exec (.m5 ps) s = .next { s with
      targetRpm := 0
      history := s.history ++ [.spindleDrive s.cfg.m5Mode, .line (ascii "OK" ++ [0x0A#8])] } ∧
    exec (.m410 ps) s = .next { s with
      spindle := { s.spindle with head := s.spindle.tail }
      traverse := { s.traverse with head := s.traverse.tail }
      history := s.history ++ [.line (ascii "OK" ++ [0x0A#8])] }

/-- M0 holds and M1 releases both axes, each in the one SafetyState that admits it; elsewhere they change nothing. -/
def Obligations.FeedHoldAndResume : Prop :=
  ∀ s ps, let switched := fun safety paused => { s with
      safety := safety
      spindle := { s.spindle with paused := paused }
      traverse := { s.traverse with paused := paused }
      history := s.history ++ [.line (ascii "OK" ++ [0x0A#8])] }
    (if s.safety = .normal then exec (.m0 ps) s = .next (switched .feedHold true)
     else OnlyReplies (.m0 ps) s (ascii "ERROR_SAFETY_STATE")) ∧
    (if s.safety = .feedHold then exec (.m1 ps) s = .next (switched .normal false)
     else OnlyReplies (.m1 ps) s (ascii "ERROR_SAFETY_STATE"))

/-- M999 returns to NORMAL only from EMERGENCY_STOPPED and only with the spindle read as stopped; it clears the stop and
the pause of both axes and nothing else. -/
def Obligations.ResetFromEmergencyStop : Prop :=
  ∀ s ps, let speed := if s.hallValid = false ∨ s.cfg.stallTimeoutTs < (s.now - s.lastEdgeTs).toNat then 0
      else s.currentRpm
    if s.safety ≠ .emergencyStopped then OnlyReplies (.m999 ps) s (ascii "ERROR_SAFETY_STATE")
    else if s.cfg.rpmZeroEps < speed then OnlyReplies (.m999 ps) s (ascii "ERROR_SPINDLE_NOT_STOPPED")
    else exec (.m999 ps) s = .next { s with
      safety := .normal
      spindle := { s.spindle with estop := false, paused := false }
      traverse := { s.traverse with estop := false, paused := false }
      history := s.history ++ [.line (ascii "OK" ++ [0x0A#8])] }

/-- R264, R265: PING and VERSION answer their text in every state and change nothing. -/
def Obligations.PingAndVersionAnswer : Prop :=
  ∀ s, OnlyReplies .ping s (ascii "PONG") ∧ OnlyReplies .version s s.cfg.versionString

/-- STATUS answers its one line, built from the speed as GET_RPM reads it, the target and the traverse position, in
every state, and changes nothing; the decimal numbers in it are spelled right. -/
def Obligations.StatusAnswers : Prop :=
  (∀ s : State, let speed := if s.hallValid = false ∨ s.cfg.stallTimeoutTs < (s.now - s.lastEdgeTs).toNat then 0
      else s.currentRpm
    OnlyReplies .status s (ascii "STATUS: Spindle=" ++ decimal (roundAway speed).natAbs ++ ascii "RPM(" ++
      (if 0 < s.targetRpm then ascii "RUN" else ascii "STOP") ++ ascii ") Traverse=" ++
      decimalHundredths (roundAway (s.traverse.pos.toInt / s.cfg.stepsPerMm * 100)) ++ ascii "mm")) ∧
  (∀ n, decimal n ≠ [] ∧ (n ≠ 0 → (decimal n).head? ≠ some 0x30#8) ∧
    (∀ b ∈ decimal n, 0x30 ≤ b.toNat ∧ b.toNat ≤ 0x39) ∧
    (decimal n).foldl (fun v b => 10 * v + (b.toNat - 0x30)) 0 = n) ∧
  decimal 0 = ascii "0" ∧ decimalHundredths 0 = ascii "0.00" ∧
  ∀ (neg : Bool) (n d : Nat), d < 100 → 100 * n + d ≠ 0 →
    decimalHundredths ((if neg then -1 else 1) * (100 * n + d : Nat)) =
      (if neg then [0x2D#8] else []) ++ decimal n ++
        [0x2E#8, BitVec.ofNat 8 (0x30 + d / 10), BitVec.ofNat 8 (0x30 + d % 10)]

/-- R113, R115: millimetres to steps and milliseconds to timestamp units, and the feed rate to a delay: to the nearest
whole number, ties away from zero, but a dwell upwards. -/
def Obligations.ConversionsRound : Prop :=
  (∀ q : Rat, |(roundAway q : Rat) - q| ≤ 1 / 2 ∧ (|(roundAway q : Rat) - q| = 1 / 2 → |q| < |(roundAway q : Rat)|)) ∧
  (∀ cfg y, steps cfg y = roundAway (y * cfg.stepsPerMm)) ∧
  (∀ cfg f, feedDelay cfg f = roundAway (60 * cfg.tsHz / (cfg.tickPeriodTs * f * cfg.stepsPerMm))) ∧
  ∀ cfg p, p * cfg.tsHz / 1000 ≤ (dwellTs cfg p : Rat) ∧ (dwellTs cfg p : Rat) < p * cfg.tsHz / 1000 + 1

/-- R273: in EMERGENCY_STOPPED every command that enqueues motion, and ENQUEUE, is refused and changes nothing. -/
def Obligations.MotionIsGated : Prop :=
  ∀ s, s.safety = .emergencyStopped →
    (∀ ps, OnlyReplies (.g0 ps) s (ascii "ERROR_SAFETY_STATE") ∧ OnlyReplies (.g1 ps) s (ascii "ERROR_SAFETY_STATE") ∧
      OnlyReplies (.g28 ps) s (ascii "ERROR_SAFETY_STATE")) ∧
    ∀ a d n l, OnlyAnswers (.enqueue a d n l) s 0x20000000000000000#68

/-! ## The whole machine -/

/-- The transitions of the SafetyState are exactly those of the admission table, each by its command. -/
def Obligations.SafetyTransitions : Prop :=
  ∀ s t, step s = .next t →
    t.safety = s.safety ∨ (s.sched.head? = some .estopReq ∧ t.safety = .emergencyStopped) ∨
    ∃ i u, fetch s = .run i u ∧
      (((∃ ps, i = .m0 ps) ∧ s.safety = .normal ∧ t.safety = .feedHold) ∨
       ((∃ ps, i = .m1 ps) ∧ s.safety = .feedHold ∧ t.safety = .normal) ∨
       ((i = .estopAll ∨ ∃ ps, i = .m112 ps) ∧ t.safety = .emergencyStopped) ∨
       ((∃ ps, i = .m999 ps) ∧ s.safety = .emergencyStopped ∧ t.safety = .normal ∧
        (s.hallValid = false ∨ s.cfg.stallTimeoutTs < (s.now - s.lastEdgeTs).toNat ∨
          s.currentRpm ≤ s.cfg.rpmZeroEps)))

/-- An instruction that answers an error has changed nothing, and its response word carries no value. -/
def Obligations.RejectionChangesNothing : Prop :=
  ∀ i s t, exec i s = .next t →
    (∀ w : RspWord, t.history = s.history ++ [.rsp w] → w.extractLsb' 64 4 ≠ 0#4 →
      t = { s with history := t.history } ∧ w.extractLsb' 0 64 = 0#64) ∧
    (∀ reason, t.history = s.history ++ [.line (ascii "ERROR_" ++ reason)] → t = { s with history := t.history })

/-- R53 I6 to I8 hold on, unless a Layer 1 client issues PAUSE, RESUME, ESTOP or CLR_ESTOP itself. -/
def Obligations.SafetyInvariantsHold : Prop :=
  (∀ s t, SafetyInv s → (∀ i u, fetch s = .run i u → touchesFlagsDirectly i = false) → step s = .next t →
    SafetyInv t) ∧
  ∀ cfg now h l1 l2, SafetyInv (State.resetWith cfg now h l1 l2)

/-- Who writes what: no step changes the brake field; the speed is changed by Hall edges only; positions and home
flags by TICKs and polls only; what TICK, a Hall edge and the clock leave alone. -/
def Obligations.RegisterOwnership : Prop :=
  ∀ s t, step s = .next t →
    t.brakeEngaged = s.brakeEngaged ∧
    (s.hallValid = true → t.hallValid = true) ∧
    (∀ a, (s.bank a).homed = true → (t.bank a).homed = true) ∧
    ((∀ ts u, fetch s ≠ .run (.hallEdge ts) u) →
      t.currentRpm = s.currentRpm ∧ t.lastEdgeTs = s.lastEdgeTs ∧ t.hallValid = s.hallValid) ∧
    ((∀ d, s.sched.head? ≠ some (.clock d)) → t.now = s.now) ∧
    (s.sched.head? ≠ some .tick → ∀ a, (t.bank a).curDelay = (s.bank a).curDelay ∧
      (t.bank a).curDir = (s.bank a).curDir ∧
      (s.sched.head? ≠ some .poll → (t.bank a).pos = (s.bank a).pos ∧ (t.bank a).homed = (s.bank a).homed)) ∧
    (s.sched.head? = some .tick → t.safety = s.safety ∧ t.feed = s.feed ∧ t.fg = s.fg ∧
      t.targetRpm = s.targetRpm ∧ t.spinDir = s.spinDir ∧ ∀ a, (t.bank a).ring = (s.bank a).ring ∧
      (t.bank a).tail = (s.bank a).tail ∧ (t.bank a).homed = (s.bank a).homed ∧
      (t.bank a).paused = (s.bank a).paused ∧ (t.bank a).estop = (s.bank a).estop) ∧
    (∀ ts u, fetch s = .run (.hallEdge ts) u → t.safety = s.safety ∧ t.feed = s.feed ∧ t.fg = s.fg ∧
      t.targetRpm = s.targetRpm ∧ t.spinDir = s.spinDir ∧ t.history = s.history ∧ ∀ a, t.bank a = s.bank a)

/-- Every step keeps the invariant: R53 I1 to I5 on both axes, the rings' canonical form, the ranges of the registers. -/
def Obligations.StepKeepsInvariant : Prop :=
  ∀ s t, CoreInv s → step s = .next t → CoreInv t

/-- The machine right after reset has the invariant, whatever its admissible configuration, clock and inputs. -/
def Obligations.ResetHasInvariant : Prop :=
  (∀ cfg now h l1 l2, cfg.admissible = true → CoreInv (State.resetWith cfg now h l1 l2)) ∧ CoreInv State.reset

/-- R341, R343: the values after reset, whatever the configuration, the clock and the input levels, which the rules leave
open; State.reset is one such state (its configuration, clock and levels are the model's choice, log entries 1 to 4). -/
def Obligations.ResetValues : Prop :=
  (∀ cfg now h l1 l2, let s := State.resetWith cfg now h l1 l2
    (∀ a, (s.bank a).head = 0 ∧ (s.bank a).tail = 0 ∧ (s.bank a).curRem = 0#32 ∧ (s.bank a).curCnt = 0#32 ∧
      (s.bank a).curDelay = 0#32 ∧ (s.bank a).curDir = .forward ∧ (s.bank a).pos = 0#64 ∧
      (s.bank a).homed = false ∧ (s.bank a).active = false ∧ (s.bank a).paused = false ∧ (s.bank a).estop = false ∧
      s.dirOut a = 0#1 ∧ s.idleOut a = true) ∧
    s.safety = .normal ∧ s.feed = cfg.defaultFeed ∧ s.fg = .idle ∧ s.currentRpm = 0 ∧ s.targetRpm = 0 ∧
    s.spinDir = .cw ∧ s.brakeEngaged = false ∧ s.lastEdgeTs = 0#64 ∧ s.hallValid = false ∧ s.hallPrev = s.hallIn ∧
    s.history = [] ∧ s.spinTargetOut = 0 ∧ s.spinDirOut = 0#1) ∧
  ∃ cfg now h l1 l2, State.reset = State.resetWith cfg now h l1 l2

/-- The first step after reset, whosever it is: a TICK changes nothing, GET_RPM reads 0, STATUS shows a stopped spindle
at 0.00mm. -/
def Obligations.FirstStepsAfterReset : Prop :=
  ∀ cfg now h l1 l2, cfg.admissible = true → let s := State.resetWith cfg now h l1 l2
    exec .tick s = .next s ∧ OnlyAnswers .getRpm s 0#68 ∧
    OnlyReplies .status s (ascii "STATUS: Spindle=0RPM(STOP) Traverse=0.00mm") ∧
    (∀ a, OnlyAnswers (.rdState a) s 0#68)
end

