-- ==== Sys2Proof/Laws/Decode.lean ====
section
/-!
SUPPORT. One lemma per function of the line decoder that says what it accepts, in the terms of the grammar in Safety.lean
(30_encoding R107 to R111).
-/

namespace Sys2Proof.Laws

open Sys2Proof.Machine

/-- A digit's byte. -/
theorem digitOf_eq_some_iff (b : Byte) (d : Digit) : digitOf b = some d ↔ b = BitVec.ofNat 8 (0x30 + d.val) := by
  revert b d; decide +kernel

/-- A letter's byte. -/
theorem letterOf_eq_some_iff (b : Byte) (l : Letter) : letterOf b = some l ↔ b = BitVec.ofNat 8 (0x41 + l.val) := by
  revert b l; decide +kernel

/-- The run of digits at the front, and what stands behind it. -/
theorem spanDigits_spells (t : List Byte) :
    ∃ pre, t = pre ++ (spanDigits t).2 ∧ SpellsDigits pre (spanDigits t).1 := by
  induction t with
  | nil => exact ⟨[], rfl, rfl⟩
  | cons b bs ih =>
    obtain ⟨pre, h1, h2⟩ := ih
    unfold spanDigits
    cases hd : digitOf b with
    | some d =>
      refine ⟨b :: pre, ?_, ?_⟩
      · simp only [List.cons_append]; rw [← h1]
      · unfold SpellsDigits at *; simp [← h2, (digitOf_eq_some_iff b d).1 hd]
    | none => exact ⟨[], rfl, rfl⟩

/-- Digits in front of a byte that is none are read whole. -/
theorem spanDigits_append {pre rest : List Byte} {ds : List Digit} (h : SpellsDigits pre ds)
    (hr : ∀ b, rest.head? = some b → digitOf b = none) : spanDigits (pre ++ rest) = (ds, rest) := by
  unfold SpellsDigits at h
  subst h
  induction ds with
  | nil => cases rest with
    | nil => rfl
    | cons b bs => simp [spanDigits, hr b (by simp)]
  | cons d ds ih => simp [spanDigits, (digitOf_eq_some_iff _ d).2 rfl, ih]

/-- Digits alone are read whole. -/
theorem spanDigits_of_spells {t : List Byte} {ds : List Digit} (h : SpellsDigits t ds) : spanDigits t = (ds, []) := by
  simpa using spanDigits_append (rest := []) h (by simp)

/-- The sign in front of a number. -/
theorem parseSign_spells (t : List Byte) : ∃ sign, t = sign ++ (parseSign t).2 ∧
    (match (parseSign t).1 with | .none => sign = [] | .plus => sign = [0x2B#8] | .minus => sign = [0x2D#8]) := by
  cases t with
  | nil => exact ⟨[], rfl, rfl⟩
  | cons b bs =>
    by_cases hp : b = bytePlus
    · subst hp; exact ⟨[0x2B#8], rfl, rfl⟩
    · by_cases hm : b = byteMinus
      · subst hm; exact ⟨[0x2D#8], rfl, rfl⟩
      · exact ⟨[], by simp [parseSign, hp, hm], by simp [parseSign, hp, hm]⟩

/-- No digit is a sign. -/
theorem digit_ne_sign (d : Digit) :
    BitVec.ofNat 8 (0x30 + d.val) ≠ bytePlus ∧ BitVec.ofNat 8 (0x30 + d.val) ≠ byteMinus := by
  revert d; decide +kernel

/-- The numbers of R108. -/
theorem parseNumber_eq_some_iff (t : List Byte) (n : Number) : parseNumber t = some n ↔ SpellsNumber t n := by
  constructor
  · intro h
    obtain ⟨sign, hs1, hs2⟩ := parseSign_spells t
    obtain ⟨whole, hw1, hw2⟩ := spanDigits_spells (parseSign t).2
    unfold parseNumber at h
    simp only at h
    split at h
    · rename_i hr
      split at h
      · rename_i hc
        cases h
        rw [hr, List.append_nil] at hw1
        exact ⟨sign, whole, [], by rw [List.append_nil, ← hw1]; exact hs1, hs2, hw2, hc.1, by simp, by simpa using hc.2⟩
      · cases h
    · rename_i b bs hr
      split at h
      · rename_i hc
        obtain ⟨digits, hf1, hf2⟩ := spanDigits_spells bs
        cases h
        rw [hr] at hw1
        rw [hc.2.2.2.1, List.append_nil] at hf1
        refine ⟨sign, whole, b :: bs, by rw [List.append_assoc, ← hw1]; exact hs1, hs2, hw2, hc.2.1, ?_, hc.2.2.2.2⟩
        rw [if_neg hc.2.2.1]
        exact ⟨bs, by rw [hc.1]; rfl, by rw [hf1]; exact hf1 ▸ hf2⟩
      · cases h
  · rintro ⟨sign, whole, frac, rfl, h1, h2, h3, h4, h5⟩
    obtain ⟨s, w, f⟩ := n
    simp only at *
    have key : parseSign (sign ++ whole ++ frac) = (s, whole ++ frac) := by
      cases s <;> simp only at h1 <;> subst h1
      · cases w with
        | nil => exact absurd rfl h3
        | cons d ds =>
          simp only [SpellsDigits, List.map_cons] at h2
          subst h2
          simp [parseSign, (digit_ne_sign d).1, (digit_ne_sign d).2]
      · simp [parseSign, bytePlus]
      · simp [parseSign, bytePlus, byteMinus]
    unfold parseNumber
    rw [key]
    by_cases hf : f = []
    · subst hf
      simp only [if_true] at h4
      subst h4
      simpa [spanDigits_of_spells h2, h3] using h5
    · rw [if_neg hf] at h4
      obtain ⟨digits, rfl, hd⟩ := h4
      have hw := spanDigits_append (rest := 0x2E#8 :: digits) h2 (by simp; decide)
      simpa [hw, spanDigits_of_spells hd, h3, hf, byteDot] using h5

/-- The parameters of R108. -/
theorem parseParam_eq_some_iff (t : List Byte) (p : Param) : parseParam t = some p ↔ SpellsParam t p := by
  unfold SpellsParam
  cases t with
  | nil => simp [parseParam]
  | cons b bs =>
    simp only [parseParam, List.cons.injEq]
    constructor
    · intro h
      split at h
      · rename_i l n hl hn
        cases h
        exact ⟨bs, ⟨(letterOf_eq_some_iff _ _).1 hl, rfl⟩, (parseNumber_eq_some_iff _ _).1 hn⟩
      · cases h
    · rintro ⟨number, ⟨h1, rfl⟩, h2⟩
      rw [(letterOf_eq_some_iff _ _).2 h1, (parseNumber_eq_some_iff _ _).2 h2]

theorem parseParams_eq_some_iff (ts : List (List Byte)) (ps : List Param) :
    parseParams ts = some ps ↔ List.Forall₂ SpellsParam ts ps := by
  induction ts generalizing ps with
  | nil => cases ps <;> simp [parseParams]
  | cons t ts ih =>
    cases ps with
    | nil =>
      simp only [parseParams]
      constructor
      · intro h
        split at h <;> cases h
      · intro h
        cases h
    | cons p ps =>
      rw [List.forall₂_cons, ← parseParam_eq_some_iff, ← ih]
      simp only [parseParams]
      constructor
      · intro h
        split at h
        · cases h; exact ⟨‹_›, ‹_›⟩
        · cases h
      · rintro ⟨h1, h2⟩; rw [h1, h2]

/-- The integer of a run of digits (R110). -/
theorem natOfDigits_eq (ds : List Digit) : natOfDigits ds = Nat.ofDigits 10 (ds.reverse.map Fin.val) := by
  have h : ∀ l : List Digit, l.foldr (fun d n => 10 * n + d.val) 0 = Nat.ofDigits 10 (l.map Fin.val) := by
    intro l
    induction l with
    | nil => rfl
    | cons d l ih => simp [Nat.ofDigits_cons, ih]; omega
  rw [← h, List.foldr_reverse]; rfl

/-- The command tokens of R108. -/
theorem parseCmdToken_eq_some_iff (t : List Byte) (l : Letter) (n : Nat) :
    (∃ ds, parseCmdToken t = some (l, ds) ∧ natOfDigits ds = n) ↔ SpellsCommand t l n := by
  unfold SpellsCommand
  cases t with
  | nil => simp [parseCmdToken]
  | cons b bs =>
    simp only [parseCmdToken, List.cons.injEq]
    constructor
    · rintro ⟨ds, h, rfl⟩
      split at h
      · cases h
      · rename_i l' hl
        split at h
        · rename_i hc
          cases h
          obtain ⟨pre, h1, h2⟩ := spanDigits_spells bs
          rw [hc.2.1, List.append_nil] at h1
          exact ⟨bs, _, ⟨(letterOf_eq_some_iff _ _).1 hl, rfl⟩, by rw [h1]; exact h1 ▸ h2, hc.1, hc.2.2,
            natOfDigits_eq _⟩
        · cases h
    · rintro ⟨digits, ds, ⟨h1, rfl⟩, h2, h3, h4, rfl⟩
      exact ⟨ds, by simp [(letterOf_eq_some_iff _ _).2 h1, spanDigits_of_spells h2, h3, h4], natOfDigits_eq _⟩

/-- Gathering tokens from the right is splitting at every blank. -/
theorem foldr_tokenStep (l : List Byte) : ∃ hd tl, l.splitOnP isBlankByte = hd :: tl ∧
    l.foldr tokenStep ([], []) = (hd, tl.filter (· ≠ [])) := by
  induction l with
  | nil => exact ⟨[], [], by simp, rfl⟩
  | cons b l ih =>
    obtain ⟨hd, tl, h1, h2⟩ := ih
    rw [List.splitOnP_cons_eq_if_modifyHead, List.foldr_cons, h2, h1]
    unfold tokenStep
    by_cases hb : isBlankByte b = true
    · simp only [hb, if_true]
      refine ⟨[], hd :: tl, rfl, ?_⟩
      by_cases hh : hd = [] <;> simp [hh]
    · rw [if_neg hb, if_neg hb]
      exact ⟨b :: hd, tl, by simp [List.modifyHead], rfl⟩

/-- The tokens of a line are those of R108. -/
theorem tokens_map_foldByte (body : List Byte) : tokens (body.map foldByte) = lineTokens body := by
  have hf : (fun b : Byte => if 0x61 ≤ b.toNat ∧ b.toNat ≤ 0x7A then b - 0x20#8 else b) = foldByte := by
    funext b; simp [foldByte, BitVec.le_def]
  have hb : (fun b : Byte => decide (b = 0x20#8 ∨ b = 0x09#8)) = isBlankByte := by
    funext b; revert b; decide +kernel
  unfold tokens lineTokens
  rw [hf, hb]
  obtain ⟨hd, tl, h1, h2⟩ := foldr_tokenStep (body.map foldByte)
  rw [h1, h2]
  by_cases hh : hd = [] <;> simp [hh]

end Sys2Proof.Laws
end

