-- ==== Sys2Proof/Laws/State.lean ====
section
/-!
SUPPORT. One lemma per field per update of State, so that no later proof unfolds a record update.
-/

namespace Sys2Proof.Machine

/-! ## setBank -/

@[simp] theorem bank_setBank_same (s : State) (a : Axis) (b : AxisBank) : (s.setBank a b).bank a = b := by
  cases a <;> rfl

theorem bank_setBank_ne (s : State) {a c : Axis} (b : AxisBank) (h : c ≠ a) : (s.setBank a b).bank c = s.bank c := by
  cases a <;> cases c <;> first | rfl | exact absurd rfl h

theorem bank_setBank (s : State) (a c : Axis) (b : AxisBank) :
    (s.setBank a b).bank c = if c = a then b else s.bank c := by
  by_cases h : c = a
  · subst h; simp
  · simp [bank_setBank_ne s b h, h]

@[simp] theorem setBank_bank (s : State) (a : Axis) : s.setBank a (s.bank a) = s := by cases a <;> rfl

@[simp] theorem setBank_spindle_spindle (s : State) (b : AxisBank) : (s.setBank .spindle b).spindle = b := rfl
@[simp] theorem setBank_spindle_traverse (s : State) (b : AxisBank) : (s.setBank .spindle b).traverse = s.traverse := rfl
@[simp] theorem setBank_traverse_traverse (s : State) (b : AxisBank) : (s.setBank .traverse b).traverse = b := rfl
@[simp] theorem setBank_traverse_spindle (s : State) (b : AxisBank) : (s.setBank .traverse b).spindle = s.spindle := rfl
@[simp] theorem bank_spindle (s : State) : s.bank .spindle = s.spindle := rfl
@[simp] theorem bank_traverse (s : State) : s.bank .traverse = s.traverse := rfl
@[simp] theorem setBank_cfg (s : State) (a : Axis) (b : AxisBank) : (s.setBank a b).cfg = s.cfg := by cases a <;> rfl
@[simp] theorem setBank_safety (s : State) (a : Axis) (b : AxisBank) : (s.setBank a b).safety = s.safety := by cases a <;> rfl
@[simp] theorem setBank_feed (s : State) (a : Axis) (b : AxisBank) : (s.setBank a b).feed = s.feed := by cases a <;> rfl
@[simp] theorem setBank_now (s : State) (a : Axis) (b : AxisBank) : (s.setBank a b).now = s.now := by cases a <;> rfl
@[simp] theorem setBank_fg (s : State) (a : Axis) (b : AxisBank) : (s.setBank a b).fg = s.fg := by cases a <;> rfl
@[simp] theorem setBank_currentRpm (s : State) (a : Axis) (b : AxisBank) : (s.setBank a b).currentRpm = s.currentRpm := by cases a <;> rfl
@[simp] theorem setBank_targetRpm (s : State) (a : Axis) (b : AxisBank) : (s.setBank a b).targetRpm = s.targetRpm := by cases a <;> rfl
@[simp] theorem setBank_spinDir (s : State) (a : Axis) (b : AxisBank) : (s.setBank a b).spinDir = s.spinDir := by cases a <;> rfl
@[simp] theorem setBank_brakeEngaged (s : State) (a : Axis) (b : AxisBank) : (s.setBank a b).brakeEngaged = s.brakeEngaged := by cases a <;> rfl
@[simp] theorem setBank_lastEdgeTs (s : State) (a : Axis) (b : AxisBank) : (s.setBank a b).lastEdgeTs = s.lastEdgeTs := by cases a <;> rfl
@[simp] theorem setBank_hallValid (s : State) (a : Axis) (b : AxisBank) : (s.setBank a b).hallValid = s.hallValid := by cases a <;> rfl
@[simp] theorem setBank_hallPrev (s : State) (a : Axis) (b : AxisBank) : (s.setBank a b).hallPrev = s.hallPrev := by cases a <;> rfl
@[simp] theorem setBank_hallIn (s : State) (a : Axis) (b : AxisBank) : (s.setBank a b).hallIn = s.hallIn := by cases a <;> rfl
@[simp] theorem setBank_limitSpindle (s : State) (a : Axis) (b : AxisBank) : (s.setBank a b).limitSpindle = s.limitSpindle := by cases a <;> rfl
@[simp] theorem setBank_limitTraverse (s : State) (a : Axis) (b : AxisBank) : (s.setBank a b).limitTraverse = s.limitTraverse := by cases a <;> rfl
@[simp] theorem setBank_opPort (s : State) (a : Axis) (b : AxisBank) : (s.setBank a b).opPort = s.opPort := by cases a <;> rfl
@[simp] theorem setBank_rx (s : State) (a : Axis) (b : AxisBank) : (s.setBank a b).rx = s.rx := by cases a <;> rfl
@[simp] theorem setBank_sched (s : State) (a : Axis) (b : AxisBank) : (s.setBank a b).sched = s.sched := by cases a <;> rfl
@[simp] theorem setBank_history (s : State) (a : Axis) (b : AxisBank) : (s.setBank a b).history = s.history := by cases a <;> rfl

/-! ## setLimitSw -/

@[simp] theorem setLimitSw_bank (s : State) (a c : Axis) (l : Bool) : (s.setLimitSw a l).bank c = s.bank c := by
  cases a <;> cases c <;> rfl
@[simp] theorem setLimitSw_limitSw (s : State) (a : Axis) (l : Bool) : (s.setLimitSw a l).limitSw a = l := by
  cases a <;> rfl
@[simp] theorem setLimitSw_cfg (s : State) (a : Axis) (l : Bool) : (s.setLimitSw a l).cfg = s.cfg := by cases a <;> rfl
@[simp] theorem setLimitSw_spindle (s : State) (a : Axis) (l : Bool) : (s.setLimitSw a l).spindle = s.spindle := by cases a <;> rfl
@[simp] theorem setLimitSw_traverse (s : State) (a : Axis) (l : Bool) : (s.setLimitSw a l).traverse = s.traverse := by cases a <;> rfl
@[simp] theorem setLimitSw_safety (s : State) (a : Axis) (l : Bool) : (s.setLimitSw a l).safety = s.safety := by cases a <;> rfl
@[simp] theorem setLimitSw_feed (s : State) (a : Axis) (l : Bool) : (s.setLimitSw a l).feed = s.feed := by cases a <;> rfl
@[simp] theorem setLimitSw_now (s : State) (a : Axis) (l : Bool) : (s.setLimitSw a l).now = s.now := by cases a <;> rfl
@[simp] theorem setLimitSw_fg (s : State) (a : Axis) (l : Bool) : (s.setLimitSw a l).fg = s.fg := by cases a <;> rfl
@[simp] theorem setLimitSw_currentRpm (s : State) (a : Axis) (l : Bool) : (s.setLimitSw a l).currentRpm = s.currentRpm := by cases a <;> rfl
@[simp] theorem setLimitSw_targetRpm (s : State) (a : Axis) (l : Bool) : (s.setLimitSw a l).targetRpm = s.targetRpm := by cases a <;> rfl
@[simp] theorem setLimitSw_spinDir (s : State) (a : Axis) (l : Bool) : (s.setLimitSw a l).spinDir = s.spinDir := by cases a <;> rfl
@[simp] theorem setLimitSw_brakeEngaged (s : State) (a : Axis) (l : Bool) : (s.setLimitSw a l).brakeEngaged = s.brakeEngaged := by cases a <;> rfl
@[simp] theorem setLimitSw_lastEdgeTs (s : State) (a : Axis) (l : Bool) : (s.setLimitSw a l).lastEdgeTs = s.lastEdgeTs := by cases a <;> rfl
@[simp] theorem setLimitSw_hallValid (s : State) (a : Axis) (l : Bool) : (s.setLimitSw a l).hallValid = s.hallValid := by cases a <;> rfl
@[simp] theorem setLimitSw_hallPrev (s : State) (a : Axis) (l : Bool) : (s.setLimitSw a l).hallPrev = s.hallPrev := by cases a <;> rfl
@[simp] theorem setLimitSw_hallIn (s : State) (a : Axis) (l : Bool) : (s.setLimitSw a l).hallIn = s.hallIn := by cases a <;> rfl
@[simp] theorem setLimitSw_opPort (s : State) (a : Axis) (l : Bool) : (s.setLimitSw a l).opPort = s.opPort := by cases a <;> rfl
@[simp] theorem setLimitSw_rx (s : State) (a : Axis) (l : Bool) : (s.setLimitSw a l).rx = s.rx := by cases a <;> rfl
@[simp] theorem setLimitSw_sched (s : State) (a : Axis) (l : Bool) : (s.setLimitSw a l).sched = s.sched := by cases a <;> rfl
@[simp] theorem setLimitSw_history (s : State) (a : Axis) (l : Bool) : (s.setLimitSw a l).history = s.history := by cases a <;> rfl

/-! ## emit -/

@[simp] theorem emit_bank (s : State) (e : OutEvent) (a : Axis) : (s.emit e).bank a = s.bank a := by cases a <;> rfl
@[simp] theorem emit_cfg (s : State) (e : OutEvent) : (s.emit e).cfg = s.cfg := rfl
@[simp] theorem emit_spindle (s : State) (e : OutEvent) : (s.emit e).spindle = s.spindle := rfl
@[simp] theorem emit_traverse (s : State) (e : OutEvent) : (s.emit e).traverse = s.traverse := rfl
@[simp] theorem emit_safety (s : State) (e : OutEvent) : (s.emit e).safety = s.safety := rfl
@[simp] theorem emit_feed (s : State) (e : OutEvent) : (s.emit e).feed = s.feed := rfl
@[simp] theorem emit_now (s : State) (e : OutEvent) : (s.emit e).now = s.now := rfl
@[simp] theorem emit_fg (s : State) (e : OutEvent) : (s.emit e).fg = s.fg := rfl
@[simp] theorem emit_currentRpm (s : State) (e : OutEvent) : (s.emit e).currentRpm = s.currentRpm := rfl
@[simp] theorem emit_targetRpm (s : State) (e : OutEvent) : (s.emit e).targetRpm = s.targetRpm := rfl
@[simp] theorem emit_spinDir (s : State) (e : OutEvent) : (s.emit e).spinDir = s.spinDir := rfl
@[simp] theorem emit_brakeEngaged (s : State) (e : OutEvent) : (s.emit e).brakeEngaged = s.brakeEngaged := rfl
@[simp] theorem emit_lastEdgeTs (s : State) (e : OutEvent) : (s.emit e).lastEdgeTs = s.lastEdgeTs := rfl
@[simp] theorem emit_hallValid (s : State) (e : OutEvent) : (s.emit e).hallValid = s.hallValid := rfl
@[simp] theorem emit_hallPrev (s : State) (e : OutEvent) : (s.emit e).hallPrev = s.hallPrev := rfl
@[simp] theorem emit_hallIn (s : State) (e : OutEvent) : (s.emit e).hallIn = s.hallIn := rfl
@[simp] theorem emit_limitSpindle (s : State) (e : OutEvent) : (s.emit e).limitSpindle = s.limitSpindle := rfl
@[simp] theorem emit_limitTraverse (s : State) (e : OutEvent) : (s.emit e).limitTraverse = s.limitTraverse := rfl
@[simp] theorem emit_opPort (s : State) (e : OutEvent) : (s.emit e).opPort = s.opPort := rfl
@[simp] theorem emit_rx (s : State) (e : OutEvent) : (s.emit e).rx = s.rx := rfl
@[simp] theorem emit_sched (s : State) (e : OutEvent) : (s.emit e).sched = s.sched := rfl

/-! ## respond -/

@[simp] theorem respond_bank (s : State) (c : ResultCode) (v : BitVec 64) (a : Axis) : (respond c v s).bank a = s.bank a := by cases a <;> rfl
@[simp] theorem respond_cfg (s : State) (c : ResultCode) (v : BitVec 64) : (respond c v s).cfg = s.cfg := rfl
@[simp] theorem respond_spindle (s : State) (c : ResultCode) (v : BitVec 64) : (respond c v s).spindle = s.spindle := rfl
@[simp] theorem respond_traverse (s : State) (c : ResultCode) (v : BitVec 64) : (respond c v s).traverse = s.traverse := rfl
@[simp] theorem respond_safety (s : State) (c : ResultCode) (v : BitVec 64) : (respond c v s).safety = s.safety := rfl
@[simp] theorem respond_feed (s : State) (c : ResultCode) (v : BitVec 64) : (respond c v s).feed = s.feed := rfl
@[simp] theorem respond_now (s : State) (c : ResultCode) (v : BitVec 64) : (respond c v s).now = s.now := rfl
@[simp] theorem respond_fg (s : State) (c : ResultCode) (v : BitVec 64) : (respond c v s).fg = s.fg := rfl
@[simp] theorem respond_currentRpm (s : State) (c : ResultCode) (v : BitVec 64) : (respond c v s).currentRpm = s.currentRpm := rfl
@[simp] theorem respond_targetRpm (s : State) (c : ResultCode) (v : BitVec 64) : (respond c v s).targetRpm = s.targetRpm := rfl
@[simp] theorem respond_spinDir (s : State) (c : ResultCode) (v : BitVec 64) : (respond c v s).spinDir = s.spinDir := rfl
@[simp] theorem respond_brakeEngaged (s : State) (c : ResultCode) (v : BitVec 64) : (respond c v s).brakeEngaged = s.brakeEngaged := rfl
@[simp] theorem respond_lastEdgeTs (s : State) (c : ResultCode) (v : BitVec 64) : (respond c v s).lastEdgeTs = s.lastEdgeTs := rfl
@[simp] theorem respond_hallValid (s : State) (c : ResultCode) (v : BitVec 64) : (respond c v s).hallValid = s.hallValid := rfl
@[simp] theorem respond_hallPrev (s : State) (c : ResultCode) (v : BitVec 64) : (respond c v s).hallPrev = s.hallPrev := rfl
@[simp] theorem respond_hallIn (s : State) (c : ResultCode) (v : BitVec 64) : (respond c v s).hallIn = s.hallIn := rfl
@[simp] theorem respond_limitSpindle (s : State) (c : ResultCode) (v : BitVec 64) : (respond c v s).limitSpindle = s.limitSpindle := rfl
@[simp] theorem respond_limitTraverse (s : State) (c : ResultCode) (v : BitVec 64) : (respond c v s).limitTraverse = s.limitTraverse := rfl
@[simp] theorem respond_opPort (s : State) (c : ResultCode) (v : BitVec 64) : (respond c v s).opPort = s.opPort := rfl
@[simp] theorem respond_rx (s : State) (c : ResultCode) (v : BitVec 64) : (respond c v s).rx = s.rx := rfl
@[simp] theorem respond_sched (s : State) (c : ResultCode) (v : BitVec 64) : (respond c v s).sched = s.sched := rfl

/-! ## reply -/

@[simp] theorem reply_bank (s : State) (text : List Byte) (a : Axis) : (reply text s).bank a = s.bank a := by cases a <;> rfl
@[simp] theorem reply_cfg (s : State) (text : List Byte) : (reply text s).cfg = s.cfg := rfl
@[simp] theorem reply_spindle (s : State) (text : List Byte) : (reply text s).spindle = s.spindle := rfl
@[simp] theorem reply_traverse (s : State) (text : List Byte) : (reply text s).traverse = s.traverse := rfl
@[simp] theorem reply_safety (s : State) (text : List Byte) : (reply text s).safety = s.safety := rfl
@[simp] theorem reply_feed (s : State) (text : List Byte) : (reply text s).feed = s.feed := rfl
@[simp] theorem reply_now (s : State) (text : List Byte) : (reply text s).now = s.now := rfl
@[simp] theorem reply_fg (s : State) (text : List Byte) : (reply text s).fg = s.fg := rfl
@[simp] theorem reply_currentRpm (s : State) (text : List Byte) : (reply text s).currentRpm = s.currentRpm := rfl
@[simp] theorem reply_targetRpm (s : State) (text : List Byte) : (reply text s).targetRpm = s.targetRpm := rfl
@[simp] theorem reply_spinDir (s : State) (text : List Byte) : (reply text s).spinDir = s.spinDir := rfl
@[simp] theorem reply_brakeEngaged (s : State) (text : List Byte) : (reply text s).brakeEngaged = s.brakeEngaged := rfl
@[simp] theorem reply_lastEdgeTs (s : State) (text : List Byte) : (reply text s).lastEdgeTs = s.lastEdgeTs := rfl
@[simp] theorem reply_hallValid (s : State) (text : List Byte) : (reply text s).hallValid = s.hallValid := rfl
@[simp] theorem reply_hallPrev (s : State) (text : List Byte) : (reply text s).hallPrev = s.hallPrev := rfl
@[simp] theorem reply_hallIn (s : State) (text : List Byte) : (reply text s).hallIn = s.hallIn := rfl
@[simp] theorem reply_limitSpindle (s : State) (text : List Byte) : (reply text s).limitSpindle = s.limitSpindle := rfl
@[simp] theorem reply_limitTraverse (s : State) (text : List Byte) : (reply text s).limitTraverse = s.limitTraverse := rfl
@[simp] theorem reply_opPort (s : State) (text : List Byte) : (reply text s).opPort = s.opPort := rfl
@[simp] theorem reply_rx (s : State) (text : List Byte) : (reply text s).rx = s.rx := rfl
@[simp] theorem reply_sched (s : State) (text : List Byte) : (reply text s).sched = s.sched := rfl
@[simp] theorem emit_history (s : State) (e : OutEvent) : (s.emit e).history = s.history ++ [e] := rfl
@[simp] theorem respond_history (s : State) (c : ResultCode) (v : BitVec 64) :
    (respond c v s).history = s.history ++ [.rsp (rspWord c v)] := rfl
@[simp] theorem reply_history (s : State) (text : List Byte) :
    (reply text s).history = s.history ++ [.line (text ++ [byteLf])] := rfl

theorem setBank_emit (s : State) (a : Axis) (b : AxisBank) (e : OutEvent) :
    (s.emit e).setBank a b = (s.setBank a b).emit e := by cases a <;> rfl

/-- Two states with the same banks, whose other fields are those of one state, differ in nothing. -/
theorem State.ext_banks {s t : State} (h : ∀ a, s.bank a = t.bank a)
    (r : s = { t with spindle := s.spindle, traverse := s.traverse }) : s = t := by
  have h1 := h .spindle
  have h2 := h .traverse
  rw [r]
  simp only [bank_spindle, bank_traverse] at h1 h2
  rw [h1, h2]

end Sys2Proof.Machine
end

