-- ==== Sys2Proof/Laws/Memory.lean ====
section
/-!
SUPPORT. Ring space: reads after writes, the canonical form, queue depth and the chunks in the ring.
-/

namespace Sys2Proof.Machine

/-! ## One store -/

@[simp] theorem Memory.read_nil (i : Nat) : Memory.read [] i = blankChunk := rfl

@[simp] theorem Memory.wf_nil : Memory.wf [] = true := rfl

theorem Memory.wf_cons {k : Nat} {c : Chunk} {m : Memory} :
    Memory.wf ((k, c) :: m) = true ↔ c ≠ blankChunk ∧ (∀ e ∈ m, k < e.1) ∧ Memory.wf m = true := by
  simp [Memory.wf, and_assoc]

theorem Memory.read_of_lt {m : Memory} {i : Nat} (h : ∀ e ∈ m, i < e.1) : Memory.read m i = blankChunk := by
  induction m with
  | nil => rfl
  | cons e m ih =>
    have h1 := h e (by simp)
    simp only [Memory.read]
    rw [if_neg (by omega), ih fun e he => h e (by simp [he])]

theorem Memory.mem_write {m : Memory} {i : Nat} {c : Chunk} {e : Nat × Chunk} (h : e ∈ Memory.write m i c) :
    e ∈ m ∨ e = (i, c) := by
  induction m with
  | nil => simp only [Memory.write] at h; split at h <;> simp_all
  | cons d m ih =>
    simp only [Memory.write] at h
    split at h
    · split at h
      · exact .inl h
      · rcases List.mem_cons.1 h with h | h
        · exact .inr h
        · exact .inl h
    · split at h
      · split at h
        · exact .inl (by simp [h])
        · rcases List.mem_cons.1 h with h | h
          · exact .inr h
          · exact .inl (by simp [h])
      · rcases List.mem_cons.1 h with h | h
        · exact .inl (by simp [h])
        · rcases ih h with h | h
          · exact .inl (by simp [h])
          · exact .inr h

/-- Every write keeps the canonical form. -/
theorem Memory.write_wf {m : Memory} (h : Memory.wf m = true) (i : Nat) (c : Chunk) :
    Memory.wf (Memory.write m i c) = true := by
  induction m with
  | nil => simp only [Memory.write]; split <;> simp_all [Memory.wf]
  | cons d m ih =>
    obtain ⟨k, d⟩ := d
    obtain ⟨h1, h2, h3⟩ := Memory.wf_cons.1 h
    simp only [Memory.write]
    split
    · rename_i hik
      split
      · exact h
      · rename_i hc
        refine Memory.wf_cons.2 ⟨hc, fun e he => ?_, h⟩
        rcases List.mem_cons.1 he with rfl | he
        · exact hik
        · exact lt_trans hik (h2 e he)
    · split
      · split
        · exact h3
        · rename_i hki hc
          subst hki
          exact Memory.wf_cons.2 ⟨hc, h2, h3⟩
      · refine Memory.wf_cons.2 ⟨h1, fun e he => ?_, ih h3⟩
        rcases Memory.mem_write he with he | rfl
        · exact h2 e he
        · show k < i; omega

theorem Memory.read_write_same {m : Memory} (h : Memory.wf m = true) (i : Nat) (c : Chunk) :
    Memory.read (Memory.write m i c) i = c := by
  induction m with
  | nil => simp only [Memory.write]; split <;> simp_all [Memory.read]
  | cons d m ih =>
    obtain ⟨k, d⟩ := d
    obtain ⟨_, h2, h3⟩ := Memory.wf_cons.1 h
    simp only [Memory.write]
    split
    · rename_i hik
      split
      · rename_i hc
        rw [hc]
        exact Memory.read_of_lt fun e he => by
          rcases List.mem_cons.1 he with rfl | he
          · exact hik
          · exact lt_trans hik (h2 e he)
      · simp [Memory.read]
    · split
      · rename_i hki
        subst hki
        split
        · rename_i hc; rw [hc]; exact Memory.read_of_lt h2
        · simp [Memory.read]
      · rename_i hki
        simp only [Memory.read]
        rw [if_neg (by omega), ih h3]

theorem Memory.read_write_ne (m : Memory) {i j : Nat} (c : Chunk) (h : j ≠ i) :
    Memory.read (Memory.write m i c) j = Memory.read m j := by
  induction m with
  | nil => simp only [Memory.write]; split <;> simp [Memory.read, Ne.symm h]
  | cons d m ih =>
    obtain ⟨k, d⟩ := d
    simp only [Memory.write]
    split
    · split
      · rfl
      · simp [Memory.read, Ne.symm h]
    · split
      · rename_i hki
        subst hki
        split <;> simp [Memory.read, Ne.symm h]
      · simp only [Memory.read, ih]

/-! ## A bank's ring -/

theorem memRead_memWrite_same {cap : Nat} {b : AxisBank} (h : Memory.wf b.ring = true) {i j : Nat} (c : Chunk)
    (hij : j % cap = i % cap) : memRead cap (memWrite cap b i c) j = c := by
  simp only [memRead, memWrite, hij, Memory.read_write_same h]

theorem memRead_memWrite_ne {cap : Nat} (b : AxisBank) {i j : Nat} (c : Chunk) (hij : j % cap ≠ i % cap) :
    memRead cap (memWrite cap b i c) j = memRead cap b j := Memory.read_write_ne _ c hij

/-! ## Indices modulo 2*CAP (10_state R34) -/

theorem succ_mod {x m : Nat} (h : x < m) : (x + 1) % m = if x + 1 = m then 0 else x + 1 := by
  split
  · rename_i e; rw [e, Nat.mod_self]
  · exact Nat.mod_eq_of_lt (by omega)

/-- Depth without a modulus, for indices in range. -/
theorem depth_of_lt {cap : Nat} {b : AxisBank} (hh : b.head < 2 * cap) (ht : b.tail < 2 * cap) :
    b.depth cap = if b.head ≤ b.tail then b.tail - b.head else b.tail + 2 * cap - b.head := by
  unfold AxisBank.depth
  split
  · rename_i h
    rw [Int.emod_eq_of_lt (by omega) (by omega)]; omega
  · rename_i h
    rw [← Int.add_emod_right, Int.emod_eq_of_lt (by omega) (by omega)]; omega

theorem depth_lt {cap : Nat} {b : AxisBank} (hh : b.head < 2 * cap) (ht : b.tail < 2 * cap) :
    b.depth cap < 2 * cap := by
  rw [depth_of_lt hh ht]; split <;> omega

/-- An emptied ring (`head <- tail`) has depth 0. -/
theorem depth_of_eq {cap : Nat} {b : AxisBank} (h : b.head = b.tail) : b.depth cap = 0 := by
  simp [AxisBank.depth, h]

theorem depth_eq_zero {cap : Nat} {b : AxisBank} (hh : b.head < 2 * cap) (ht : b.tail < 2 * cap) :
    b.depth cap = 0 ↔ b.head = b.tail := by
  rw [depth_of_lt hh ht]; split <;> omega

/-- The tail's slot is the one `depth` after the head's. -/
theorem tail_slot {cap : Nat} {b : AxisBank} (hh : b.head < 2 * cap) (ht : b.tail < 2 * cap) :
    b.tail % cap = (b.head + b.depth cap) % cap := by
  rw [depth_of_lt hh ht]
  split
  · congr 1; omega
  · rename_i h
    rw [show b.head + (b.tail + 2 * cap - b.head) = b.tail + cap * 2 by omega, Nat.add_mul_mod_self_left]

theorem mod_two_mul_mod (x cap : Nat) : x % (2 * cap) % cap = x % cap := Nat.mod_mul_left_mod x 2 cap

theorem add_mod_ne {x i j cap : Nat} (hij : i < j) (hj : j - i < cap) : (x + i) % cap ≠ (x + j) % cap := by
  intro h
  have h2 : (x + j) - (x + i) = j - i := by omega
  have h1 : cap ∣ (x + j) - (x + i) := (Nat.modEq_iff_dvd' (by omega)).1 h
  rw [h2] at h1
  exact absurd (Nat.le_of_dvd (by omega) h1) (by omega)

/-! ## The chunks in the ring -/

@[simp] theorem ringChunks_length (cap : Nat) (b : AxisBank) : (ringChunks cap b).length = b.depth cap := by
  simp [ringChunks]

theorem ringChunks_of_empty {cap : Nat} {b : AxisBank} (h : b.depth cap = 0) : ringChunks cap b = [] := by
  simp [ringChunks, h]

/-- Ring, head and tail decide depth and chunks. -/
theorem ringChunks_congr {cap : Nat} {b c : AxisBank} (hr : b.ring = c.ring) (hh : b.head = c.head)
    (ht : b.tail = c.tail) : ringChunks cap b = ringChunks cap c := by
  simp [ringChunks, AxisBank.depth, memRead, hr, hh, ht]

theorem depth_congr {cap : Nat} {b c : AxisBank} (hh : b.head = c.head) (ht : b.tail = c.tail) :
    b.depth cap = c.depth cap := by simp [AxisBank.depth, hh, ht]

/-- Advancing the head drops the oldest chunk. -/
theorem depth_head_succ {cap : Nat} {b c : AxisBank} (hh : b.head < 2 * cap) (ht : b.tail < 2 * cap)
    (hd : b.depth cap ≠ 0) (ch : c.head = (b.head + 1) % (2 * cap)) (ct : c.tail = b.tail) :
    c.head < 2 * cap ∧ b.depth cap = c.depth cap + 1 := by
  have h1 := depth_of_lt hh ht
  rw [succ_mod hh] at ch
  have hc : c.head < 2 * cap := by rw [ch]; split <;> omega
  refine ⟨hc, ?_⟩
  rw [depth_of_lt hc (by omega), h1, ch, ct]
  rw [h1] at hd
  split at hd <;> split <;> split <;> first | omega | (split <;> omega)

theorem ringChunks_head_succ {cap : Nat} {b c : AxisBank} (hh : b.head < 2 * cap) (ht : b.tail < 2 * cap)
    (hd : b.depth cap ≠ 0) (cr : c.ring = b.ring) (ch : c.head = (b.head + 1) % (2 * cap)) (ct : c.tail = b.tail) :
    ringChunks cap b = memRead cap b b.head :: ringChunks cap c := by
  have h := (depth_head_succ hh ht hd ch ct).2
  simp only [ringChunks, h, List.range_succ_eq_map, List.map_cons, List.map_map]
  refine congrArg₂ _ (by simp) (List.map_congr_left fun k _ => ?_)
  simp only [Function.comp, memRead, cr, ch]
  congr 1
  rw [Nat.add_mod ((b.head + 1) % (2 * cap)) k cap, mod_two_mul_mod, ← Nat.add_mod]
  congr 1; omega

/-- An enqueue appends its chunk. -/
theorem depth_enqueue {cap : Nat} {b c : AxisBank} (hh : b.head < 2 * cap) (ht : b.tail < 2 * cap)
    (hd : b.depth cap < cap) (ch : c.head = b.head) (ct : c.tail = (b.tail + 1) % (2 * cap)) :
    c.tail < 2 * cap ∧ c.depth cap = b.depth cap + 1 := by
  have h1 := depth_of_lt hh ht
  rw [succ_mod ht] at ct
  have hc : c.tail < 2 * cap := by rw [ct]; split <;> omega
  refine ⟨hc, ?_⟩
  rw [depth_of_lt (by omega) hc, h1, ct, ch]
  rw [h1] at hd
  split at hd <;> split <;> split <;> omega

theorem ringChunks_enqueue {cap : Nat} {b d : AxisBank} (hw : Memory.wf b.ring = true) (hh : b.head < 2 * cap)
    (ht : b.tail < 2 * cap) (hd : b.depth cap < cap) (c : Chunk) (dr : d.ring = (memWrite cap b b.tail c).ring)
    (dh : d.head = b.head) (dt : d.tail = (b.tail + 1) % (2 * cap)) :
    ringChunks cap d = ringChunks cap b ++ [c] := by
  have h := (depth_enqueue hh ht hd dh dt).2
  have ts := tail_slot hh ht
  have hr : ∀ i, memRead cap d i = memRead cap (memWrite cap b b.tail c) i := fun i => by simp only [memRead, dr]
  simp only [ringChunks, h, List.range_succ, List.map_append, List.map_cons, List.map_nil, dh, hr]
  congr 1
  · refine List.map_congr_left fun k hk => memRead_memWrite_ne b c ?_
    rw [ts]
    exact add_mod_ne (List.mem_range.1 hk) (by omega)
  · rw [memRead_memWrite_same hw c ts.symm]

end Sys2Proof.Machine
end

