-- ==== Sys2Proof/Laws/Ops.lean ====
section
/-!
SUPPORT. One lemma per shared operation that says once everything it can do.
-/

namespace Sys2Proof.Machine

/-! ## Ending an operation -/

/-- A Layer 1 operation without a value raises, on the state it found, or answers OK. -/
theorem finish_next {s t : State} {r : Except ResultCode State} (h : finish s r = .next t) :
    (∃ c, r = .error c ∧ t = respond c 0#64 s) ∨ (∃ u, r = .ok u ∧ t = respond .ok 0#64 u) := by
  cases r <;> simp only [finish, Host.Outcome.next.injEq] at h
  · exact .inl ⟨_, rfl, h.symm⟩
  · exact .inr ⟨_, rfl, h.symm⟩

/-- A Layer 2 command that answers at once is rejected, on the state it found, or answers OK. -/
theorem finishLine_next {s t : State} {r : Except Reason State} (h : finishLine s r = .next t) :
    (∃ c, r = .error c ∧ t = reply (errorText c) s) ∨ (∃ u, r = .ok u ∧ t = reply (ascii "OK") u) := by
  cases r <;> simp only [finishLine, Host.Outcome.next.injEq] at h
  · exact .inl ⟨_, rfl, h.symm⟩
  · exact .inr ⟨_, rfl, h.symm⟩

/-! ## Move Queue operations -/

/-- The bank after an accepted ENQUEUE (R170). -/
theorem enqueueOp_ok {a : Axis} {d : Dir} {n l : BitVec 32} {s t : State} (h : enqueueOp a d n l s = .ok t) :
    s.safety ≠ .emergencyStopped ∧ (s.bank a).estop = false ∧ n ≠ 0#32 ∧ l ≠ 0#32 ∧ s.depth a ≠ s.cfg.cap ∧
      t = s.setBank a { s.bank a with
        ring := (memWrite s.cfg.cap (s.bank a) (s.bank a).tail ⟨n, l, d⟩).ring
        tail := ((s.bank a).tail + 1) % (2 * s.cfg.cap)
        active := true } := by
  unfold enqueueOp at h
  split at h
  · cases h
  · split at h
    · cases h
    · split at h
      · cases h
      · rename_i h1 h2 h3
        simp only [not_or] at h1 h2
        exact ⟨h1.1, by simpa using h1.2, h2.1, h2.2, h3, by cases h; rfl⟩

/-- When ENQUEUE is accepted (R170). -/
theorem enqueueOp_of_valid {a : Axis} {d : Dir} {n l : BitVec 32} {s : State} (h1 : s.safety ≠ .emergencyStopped)
    (h2 : (s.bank a).estop = false) (h3 : n ≠ 0#32) (h4 : l ≠ 0#32) (h5 : s.depth a ≠ s.cfg.cap) :
    enqueueOp a d n l s = .ok (s.setBank a { s.bank a with
        ring := (memWrite s.cfg.cap (s.bank a) (s.bank a).tail ⟨n, l, d⟩).ring
        tail := ((s.bank a).tail + 1) % (2 * s.cfg.cap)
        active := true }) := by
  unfold enqueueOp
  simp [h1, h2, h3, h4, h5, memWrite]

/-- What ENQUEUE raises, in the order R170 tests it. -/
theorem enqueueOp_error {a : Axis} {d : Dir} {n l : BitVec 32} {s : State} {c : ResultCode}
    (h : enqueueOp a d n l s = .error c) :
    (c = .estopped ∧ (s.safety = .emergencyStopped ∨ (s.bank a).estop = true)) ∨
      (c = .invalidChunk ∧ (n = 0#32 ∨ l = 0#32)) ∨ (c = .queueFull ∧ s.depth a = s.cfg.cap) := by
  unfold enqueueOp at h
  split at h
  · cases h; exact .inl ⟨rfl, ‹_›⟩
  · split at h
    · cases h; exact .inr (.inl ⟨rfl, ‹_›⟩)
    · split at h
      · cases h; exact .inr (.inr ⟨rfl, ‹_›⟩)
      · cases h

/-- QUEUE_DEPTH's value is the depth, where 64 bits hold it (R178, log entry 23). -/
@[simp] theorem depthWord_toNat {n : Nat} (h : n < 2 ^ 64) : (depthWord n).toNat = n := by
  rw [depthWord, if_pos h, BitVec.toNat_ofNat, Nat.mod_eq_of_lt h]

/-- The start step of HOME records who runs since when, and writes nothing else (R176). -/
theorem homeStart_ok {a : Axis} {w : HomeCaller} {s t : State} (h : homeStart a w s = .ok t) :
    s.safety = .normal ∧ (s.bank a).estop = false ∧ (s.bank a).paused = false ∧
      t = { s with fg := .home a s.now w } := by
  unfold homeStart at h
  split at h
  · cases h
  · split at h
    · cases h
    · rename_i h1 h2
      simp only [not_or, Bool.not_eq_true] at h1 h2
      refine ⟨?_, h1.2, h2.2, by cases h; rfl⟩
      revert h1 h2; cases s.safety <;> simp

/-- What the start of HOME raises (R176). -/
theorem homeStart_error {a : Axis} {w : HomeCaller} {s : State} {c : ResultCode} (h : homeStart a w s = .error c) :
    (c = .estopped ∧ (s.safety = .emergencyStopped ∨ (s.bank a).estop = true)) ∨
      (c = .paused ∧ (s.safety = .feedHold ∨ (s.bank a).paused = true)) := by
  unfold homeStart at h
  split at h
  · cases h; exact .inl ⟨rfl, ‹_›⟩
  · split at h
    · cases h; exact .inr ⟨rfl, ‹_›⟩
    · cases h

/-- ESTOP_ALL in full (R181). -/
theorem estopAllOp_eq (s : State) :
    estopAllOp s = { s with
      safety := .emergencyStopped
      spindle := { s.spindle.flush with estop := true }
      traverse := { s.traverse.flush with estop := true }
      targetRpm := 0
      history := s.history ++ [.spindleDrive .cut] } := rfl

/-! ## LoadNext and TICK (40_scheduler R140 to R146) -/

/-- LoadNext on a ring of valid chunks: an empty ring idles the axis, else the oldest chunk is loaded (R144, R146). -/
theorem loadNext_of_valid {cap : Nat} {b : AxisBank} (hh : b.head < 2 * cap) (ht : b.tail < 2 * cap)
    (hv : ∀ c ∈ ringChunks cap b, c.count ≠ 0#32 ∧ c.delay ≠ 0#32) :
    (b.depth cap = 0 ∧ loadNext cap b = { b with active := false }) ∨
      (b.depth cap ≠ 0 ∧ loadNext cap b = { b with
        head := (b.head + 1) % (2 * cap)
        curRem := (memRead cap b b.head).count
        curDelay := (memRead cap b b.head).delay
        curCnt := (memRead cap b b.head).delay
        curDir := (memRead cap b b.head).dir }) := by
  unfold loadNext
  cases hd : b.depth cap with
  | zero => exact .inl ⟨rfl, rfl⟩
  | succ n =>
    right
    refine ⟨by omega, ?_⟩
    have hm : memRead cap b b.head ∈ ringChunks cap b := by
      rw [ringChunks_head_succ (c := { b with head := (b.head + 1) % (2 * cap) }) hh ht (by omega) rfl rfl rfl]
      simp
    have hc := hv _ hm
    simp only [loadLoop]
    rw [if_neg (by simp [hc.1, hc.2])]

/-- LoadNext writes only head, the loaded chunk and the active flag (10_state R54). -/
theorem loadLoop_frame (cap n : Nat) (b : AxisBank) :
    loadLoop cap n b = { b with
      head := (loadLoop cap n b).head
      curRem := (loadLoop cap n b).curRem
      curCnt := (loadLoop cap n b).curCnt
      curDelay := (loadLoop cap n b).curDelay
      curDir := (loadLoop cap n b).curDir
      active := (loadLoop cap n b).active } := by
  induction n generalizing b with
  | zero => rfl
  | succ n ih =>
    simp only [loadLoop]
    split
    · exact ih _
    · rfl

theorem loadNext_frame (cap : Nat) (b : AxisBank) :
    loadNext cap b = { b with
      head := (loadNext cap b).head
      curRem := (loadNext cap b).curRem
      curCnt := (loadNext cap b).curCnt
      curDelay := (loadNext cap b).curDelay
      curDir := (loadNext cap b).curDir
      active := (loadNext cap b).active } := loadLoop_frame cap _ b

/-- The countdown writes no more of an axis than the loaded chunk, head, pos and the active flag (10_state R54). -/
theorem countdown_frame (cap : Nat) (b : AxisBank) :
    (countdown cap b).1.ring = b.ring ∧ (countdown cap b).1.tail = b.tail ∧
      (countdown cap b).1.homed = b.homed ∧ (countdown cap b).1.paused = b.paused ∧
      (countdown cap b).1.estop = b.estop := by
  unfold countdown emitStep
  dsimp only
  split
  · split
    · rw [loadNext_frame]; exact ⟨rfl, rfl, rfl, rfl, rfl⟩
    · exact ⟨rfl, rfl, rfl, rfl, rfl⟩
  · exact ⟨rfl, rfl, rfl, rfl, rfl⟩

/-- TICK writes no more of an axis than the loaded chunk, head, pos and the active flag (10_state R54). -/
theorem tickBank_frame (cap : Nat) (b : AxisBank) :
    (tickBank cap b).1.ring = b.ring ∧ (tickBank cap b).1.tail = b.tail ∧
      (tickBank cap b).1.homed = b.homed ∧ (tickBank cap b).1.paused = b.paused ∧
      (tickBank cap b).1.estop = b.estop := by
  have hl := loadNext_frame cap b
  unfold tickBank
  dsimp only
  split
  · split
    · split
      · have h := countdown_frame cap (loadNext cap b)
        rw [hl] at h ⊢; exact h
      · rw [hl]; exact ⟨rfl, rfl, rfl, rfl, rfl⟩
    · split
      · exact countdown_frame cap b
      · exact ⟨rfl, rfl, rfl, rfl, rfl⟩
  · exact ⟨rfl, rfl, rfl, rfl, rfl⟩

/-- An axis that is not eligible is not touched (R141). -/
theorem tickBank_ineligible {cap : Nat} {b : AxisBank} (h : b.eligible = false) : tickBank cap b = (b, none) := by
  simp [tickBank, h]

/-- One axis's service: its bank and at most one pulse (R140, R143). -/
theorem tickAxis_eq (a : Axis) (s : State) :
    tickAxis a s = { s.setBank a (tickBank s.cfg.cap (s.bank a)).1 with
      history := s.history ++ ((tickBank s.cfg.cap (s.bank a)).2.map (OutEvent.stepPulse a)).toList } := by
  unfold tickAxis
  dsimp only
  cases (tickBank s.cfg.cap (s.bank a)).2 <;> cases a <;> simp [State.emit, State.setBank]

/-! ## HALL_EDGE (42_rpm_estimator R221) -/

/-- An edge is the first, is discarded, or is accepted. -/
theorem hallEdgeOp_cases (ts : BitVec 64) (s : State) :
    (s.hallValid = false ∧ hallEdgeOp ts s = { s with lastEdgeTs := ts, hallValid := true }) ∨
      (s.hallValid = true ∧ (ts - s.lastEdgeTs).toNat < s.cfg.debounceTs ∧ hallEdgeOp ts s = s) ∨
      (s.hallValid = true ∧ s.cfg.debounceTs ≤ (ts - s.lastEdgeTs).toNat ∧
        hallEdgeOp ts s = { s with
          currentRpm := ema s.cfg (instRpm s.cfg (ts - s.lastEdgeTs).toNat) s.currentRpm
          lastEdgeTs := ts }) := by
  unfold hallEdgeOp
  dsimp only
  by_cases h : s.hallValid = false
  · exact .inl ⟨h, if_pos h⟩
  · rw [if_neg h]
    by_cases h2 : (ts - s.lastEdgeTs).toNat < s.cfg.debounceTs
    · exact .inr (.inl ⟨by simpa using h, h2, if_pos h2⟩)
    · exact .inr (.inr ⟨by simpa using h, by omega, if_neg h2⟩)

/-- What R223 and R227 give of 70_reset_and_hazards R358 (1): edges that are all taken for bounce, however many, change
nothing, and the time to the stall runs on from the last accepted one. -/
theorem hallEdges_discarded {s : State} (hv : s.hallValid = true) (es : List (BitVec 64))
    (he : ∀ ts ∈ es, (ts - s.lastEdgeTs).toNat < s.cfg.debounceTs) : execAll (es.map .hallEdge) s = .next s := by
  induction es with
  | nil => rfl
  | cons ts es ih =>
    have h : exec (.hallEdge ts) s = .next s := by
      obtain ⟨h, -⟩ | ⟨-, -, h⟩ | ⟨-, h, -⟩ := hallEdgeOp_cases ts s
      · exact absurd hv (by simp [h])
      · exact congrArg _ h
      · exact absurd (he ts (by simp)) (by omega)
    simp only [List.map_cons, execAll, h]
    exact ih fun t ht => he t (by simp [ht])

/-! ## Layer 2 -/

/-- An accepted M3 or M4 (43_command_interpreter R255, R256). -/
theorem spindleOp_ok {d : SpinDir} {ps : List Param} {s t : State} (h : spindleOp d ps s = .ok t) :
    s.safety = .normal ∧ ∃ v, paramValue letterS ps = some v ∧ 0 ≤ v ∧ v ≤ s.cfg.maxRpm ∧
      t = { s with targetRpm := v, spinDir := d }.emit (.spindleDrive .ramp) := by
  unfold spindleOp at h
  split at h
  · cases h
  · rename_i h1
    split at h
    · cases h
    · rename_i v hv
      split at h
      · cases h
      · rename_i h2
        simp only [not_or, not_lt] at h2
        exact ⟨by simpa using h1, v, hv, h2.1, h2.2, by cases h; rfl⟩

/-- An accepted G0 or G1 up to its target (R252). -/
theorem moveOp_ok {ps : List Param} {s t : State} (h : moveOp ps s = .ok t) :
    s.safety ≠ .emergencyStopped ∧ s.traverse.estop = false ∧ paramPresent letterX ps = false ∧
      ∃ y f, paramValue letterY ps = some y ∧ s.cfg.travelMinMm ≤ y ∧ y ≤ s.cfg.travelMaxMm ∧
        moveFeed ps s = some f ∧ moveTo y f s = .ok t := by
  unfold moveOp at h
  split at h
  · cases h
  · rename_i h1
    simp only [not_or, Bool.not_eq_true] at h1
    split at h
    · cases h
    · rename_i h2
      split at h
      · cases h
      · rename_i y hy
        split at h
        · cases h
        · rename_i h3
          simp only [not_or, not_lt] at h3
          split at h
          · cases h
          · rename_i f hf
            exact ⟨h1.1, h1.2, by simpa using h2, y, f, hy, h3.1, h3.2, hf, h⟩

/-- The feed rate in force is F's, in range, or the modal one (R252). -/
theorem moveFeed_some {ps : List Param} {s : State} {f : Rat} (h : moveFeed ps s = some f) :
    (paramValue letterF ps = some f ∧ 0 < f ∧ f ≤ s.cfg.maxFeed) ∨ (paramValue letterF ps = none ∧ f = s.feed) := by
  unfold moveFeed at h
  split at h
  · rename_i g hg
    split at h
    · cases h
    · rename_i h2
      simp only [not_or, not_lt, not_le] at h2
      cases h
      exact .inl ⟨hg, h2.1, h2.2⟩
  · cases h; exact .inr ⟨‹_›, rfl⟩

/-- The pieces of a move write the traverse bank only: its ring, tail and active flag (10_state R54). -/
theorem enqueueMove_frame (d : Dir) (l : BitVec 32) (n m : Nat) (s : State) :
    enqueueMove d l n m s = { s with traverse := { s.traverse with
      ring := (enqueueMove d l n m s).traverse.ring
      tail := (enqueueMove d l n m s).traverse.tail
      active := (enqueueMove d l n m s).traverse.active } } := by
  induction n generalizing m s with
  | zero => rfl
  | succ n ih =>
    simp only [enqueueMove]
    split
    · rfl
    · split
      · rename_i t ht
        obtain ⟨-, -, -, -, -, rfl⟩ := enqueueOp_ok ht
        rw [ih]
        rfl
      · rfl

/-- The pieces of a move: as many as its steps divided by 2^32-1, rounded up (R252). -/
theorem pieceCount_le_iff (m k : Nat) : pieceCount m ≤ k ↔ m ≤ maxWord32 * k := by
  unfold pieceCount
  have h := Nat.div_add_mod m maxWord32
  have h1 := Nat.mod_lt m (show 0 < maxWord32 by decide)
  generalize m / maxWord32 = q at *
  generalize m % maxWord32 = r at *
  subst h
  by_cases hr : r = 0
  · simp only [hr, if_true, Nat.add_zero]
    exact ⟨Nat.mul_le_mul_left _, fun h => Nat.le_of_mul_le_mul_left h (by decide)⟩
  · simp only [hr, if_false]
    constructor
    · intro h
      have := Nat.mul_le_mul_left maxWord32 h
      rw [Nat.mul_add] at this
      omega
    · intro h
      exact Nat.lt_of_mul_lt_mul_left (a := maxWord32) (by omega)

/-! ## exec and step -/

/-- Every instruction answers a next state: no instruction has a fault or a refusal (60_exceptions R307). -/
theorem exec_next (i : Instr) (s : State) : ∃ t, exec i s = .next t := by
  have hf : ∀ r, ∃ t, finish s r = .next t := fun r => by cases r <;> exact ⟨_, rfl⟩
  have hl : ∀ r, ∃ t, finishLine s r = .next t := fun r => by cases r <;> exact ⟨_, rfl⟩
  cases i
  case home a => simp only [exec, execHome]; split <;> exact ⟨_, rfl⟩
  case g28 ps => simp only [exec, execG28]; split <;> exact ⟨_, rfl⟩
  case g4 ps =>
    simp only [exec, execG4]
    split
    · exact ⟨_, rfl⟩
    · split
      · split <;> exact ⟨_, rfl⟩
      · exact ⟨_, rfl⟩
  all_goals first | exact hf _ | exact hl _ | exact ⟨_, rfl⟩

/-- What a step is (00_scope R7, 20_memory R80). -/
theorem step_next {s t : State} (h : step s = .next t) :
    s.cfg.admissible = true ∧
      ((∃ i u, fetch s = .run i u ∧ exec i u = .next t) ∨ fetch s = .settled (.next t)) := by
  unfold step at h
  split at h
  · rename_i ha
    refine ⟨ha, ?_⟩
    split at h
    · exact .inl ⟨_, _, ‹_›, h⟩
    · subst h; exact .inr ‹_›
  · cases h

end Sys2Proof.Machine
end

