-- ==== Sys2Proof/Laws/PerInstr.lean ====
section
/-!
SUPPORT. Statements about every instruction, one lemma per constructor: how long its encoding is.
-/

namespace Sys2Proof.Laws

/-- A number takes as many bytes as `spelledLength` says. -/
theorem encodeNumber_length (n : Number) : (encodeNumber n).length = n.spelledLength := by
  obtain ⟨s, w, f⟩ := n
  simp only [encodeNumber, Number.spelledLength, List.length_append, List.length_map]
  congr 1
  · congr 1
    cases s <;> rfl
  · split
    · rfl
    · simp; omega

/-- Parameters take as many bytes as `paramsLength` says. -/
theorem encodeParams_length (ps : List Param) : (ps.flatMap encodeParam).length = paramsLength ps := by
  induction ps with
  | nil => rfl
  | cons p ps ih =>
    simp only [List.flatMap_cons, List.length_append, ih, encodeParam, List.length_cons, encodeNumber_length,
      paramsLength, List.map_cons, List.sum_cons]
    omega

/-- An operation word, or a line that is as long as `Instr.spelledLength` says and its LF (30_encoding R100, R107). -/
def EncodedLength.Statement (i : Instr) : Prop :=
  match encode i with
  | .word _ => i.spelledLength = 0
  | .line bytes => bytes.length = i.spelledLength + 1

/-- What the lemma of every command line is made of. -/
theorem encodeLine_length (head : List Byte) (ps : List Param) (n : Nat) (h : head.length = n) :
    (head ++ ps.flatMap encodeParam ++ [byteLf]).length = n + paramsLength ps + 1 := by
  simp only [List.length_append, encodeParams_length, h, List.length_singleton]

theorem EncodedLength.enqueue (a : Axis) (d : Dir) (count delay : BitVec 32) : EncodedLength.Statement (.enqueue a d count delay) := rfl
theorem EncodedLength.pause (a : Axis) : EncodedLength.Statement (.pause a) := rfl
theorem EncodedLength.resume (a : Axis) : EncodedLength.Statement (.resume a) := rfl
theorem EncodedLength.estop (a : Axis) : EncodedLength.Statement (.estop a) := rfl
theorem EncodedLength.home (a : Axis) : EncodedLength.Statement (.home a) := rfl
theorem EncodedLength.isActive (a : Axis) : EncodedLength.Statement (.isActive a) := rfl
theorem EncodedLength.queueDepth (a : Axis) : EncodedLength.Statement (.queueDepth a) := rfl
theorem EncodedLength.position (a : Axis) : EncodedLength.Statement (.position a) := rfl
theorem EncodedLength.getRpm : EncodedLength.Statement .getRpm := rfl
theorem EncodedLength.qstop (a : Axis) : EncodedLength.Statement (.qstop a) := rfl
theorem EncodedLength.clrEstop (a : Axis) : EncodedLength.Statement (.clrEstop a) := rfl
theorem EncodedLength.rdState (a : Axis) : EncodedLength.Statement (.rdState a) := rfl
theorem EncodedLength.estopAll : EncodedLength.Statement .estopAll := rfl
theorem EncodedLength.tick : EncodedLength.Statement .tick := rfl
theorem EncodedLength.hallEdge (ts : BitVec 64) : EncodedLength.Statement (.hallEdge ts) := rfl
theorem EncodedLength.g0 (ps : List Param) : EncodedLength.Statement (.g0 ps) := encodeLine_length _ ps _ rfl
theorem EncodedLength.g1 (ps : List Param) : EncodedLength.Statement (.g1 ps) := encodeLine_length _ ps _ rfl
theorem EncodedLength.g28 (ps : List Param) : EncodedLength.Statement (.g28 ps) := encodeLine_length _ ps _ rfl
theorem EncodedLength.g4 (ps : List Param) : EncodedLength.Statement (.g4 ps) := encodeLine_length _ ps _ rfl
theorem EncodedLength.m3 (ps : List Param) : EncodedLength.Statement (.m3 ps) := encodeLine_length _ ps _ rfl
theorem EncodedLength.m4 (ps : List Param) : EncodedLength.Statement (.m4 ps) := encodeLine_length _ ps _ rfl
theorem EncodedLength.m5 (ps : List Param) : EncodedLength.Statement (.m5 ps) := encodeLine_length _ ps _ rfl
theorem EncodedLength.m0 (ps : List Param) : EncodedLength.Statement (.m0 ps) := encodeLine_length _ ps _ rfl
theorem EncodedLength.m1 (ps : List Param) : EncodedLength.Statement (.m1 ps) := encodeLine_length _ ps _ rfl
theorem EncodedLength.m112 (ps : List Param) : EncodedLength.Statement (.m112 ps) := encodeLine_length _ ps _ rfl
theorem EncodedLength.m410 (ps : List Param) : EncodedLength.Statement (.m410 ps) := encodeLine_length _ ps _ rfl
theorem EncodedLength.m999 (ps : List Param) : EncodedLength.Statement (.m999 ps) := encodeLine_length _ ps _ rfl
theorem EncodedLength.status : EncodedLength.Statement .status := rfl
theorem EncodedLength.ping : EncodedLength.Statement .ping := rfl
theorem EncodedLength.version : EncodedLength.Statement .version := rfl

end Sys2Proof.Laws
end

