-- ==== Sys2Proof/Tests/Slice0.lean ====
section
/-!
SUPPORT. The model's own tests: what WellFormed refuses, the decoding of words and lines written out from the spec, one
step of every instruction on the vectors of 95_test_vectors, and for every obligation with hypotheses a state and
operands that meet them (witness_<obligation>).
-/

namespace Sys2Proof.Tests

-- One test after the other: each kernel evaluation waits for those before it, and waiting in threads takes memory.
set_option Elab.async false

open Sys2Proof Sys2Proof.Machine

/-! ## Helpers -/

/-- The outcome is a next state that passes a check. -/
def yields (o : Host.Outcome State Fault Refusal) (p : State → Bool) : Bool :=
  match o with
  | .next t => p t
  | .fault _ => false
  | .refused _ => false

/-- The outcome is the refusal of an inadmissible configuration. -/
def refusedConfiguration (o : Host.Outcome State Fault Refusal) : Bool :=
  match o with
  | .refused .inadmissibleConfiguration => true
  | .next _ | .fault _ | .refused (.notModelled _) => false

/-- What a decoder accepts. -/
def accepted (r : Except Reject Instr) (i : Instr) : Bool :=
  match r with
  | .ok j => decide (j = i)
  | .error _ => false

/-- What a decoder rejects, and why. -/
def rejected (r : Except Reject Instr) (e : Reject) : Bool :=
  match r with
  | .ok _ => false
  | .error f => decide (f = e)

/-- Reset, with a traverse bank. -/
def withTraverse (b : AxisBank) : State := { State.reset with traverse := b }

/-- A parameter without sign and point. -/
def param (l : Letter) (ds : List Digit) : Param := ⟨l, ⟨.none, ds, []⟩⟩

/-- The response line of a text. -/
def lineOf (s : String) : OutEvent := .line (ascii s ++ [byteLf])

/-- One chunk (F,3,2) in the ring: the traverse bank of 95 Q1. -/
def queued : AxisBank := { AxisBank.reset with ring := [(0, ⟨3#32, 2#32, .forward⟩)], tail := 1, active := true }

/-- The same chunk loaded, two steps left and one TICK to the next: the traverse bank of 95 P1 after TICK 3. -/
def loaded : AxisBank := { queued with head := 1, curRem := 2#32, curCnt := 1#32, curDelay := 2#32, pos := 1#64 }

/-- A full ring of four chunks (F,1,1), as after 95 P6 step 1. -/
def full : AxisBank := { AxisBank.reset with
  ring := [(0, ⟨1#32, 1#32, .forward⟩), (1, ⟨1#32, 1#32, .forward⟩), (2, ⟨1#32, 1#32, .forward⟩),
    (3, ⟨1#32, 1#32, .forward⟩)]
  tail := 4, active := true }

/-- After two accepted Hall edges at 1300000 with the speed of 95 H6. -/
def spinning : State := { State.reset with
  currentRpm := mkRat 525 2, lastEdgeTs := 1300000#64, hallValid := true, now := 1350000#64 }

/-- Emergency-stopped, as after M112 from reset. -/
def halted : State := { State.reset with
  safety := .emergencyStopped
  spindle := { AxisBank.reset with estop := true }
  traverse := { AxisBank.reset with estop := true } }

/-- In feed hold, as after M0 from reset. -/
def held : State := { State.reset with
  safety := .feedHold
  spindle := { AxisBank.reset with paused := true }
  traverse := { AxisBank.reset with paused := true } }

/-- A configuration that breaks R7. -/
def brokenConfig : Config := { cfgT with cap := 0 }

/-! ## WellFormed refuses -/

theorem test_number_without_digits_refused : Number.wellFormed ⟨.none, [], []⟩ = false := by decide

theorem test_number_of_19_digits_refused :
    Number.wellFormed ⟨.minus, [1, 2, 3, 4, 5, 6, 7, 8, 9, 0], [1, 2, 3, 4, 5, 6, 7, 8, 9]⟩ = false := by decide

theorem test_letter_twice_refused :
    (Instr.m3 [param letterS [3], param letterS [4]]).wellFormed 96 = false := by decide

/-- `G1 Y50 F1000` takes 12 bytes without its LF. -/
theorem test_line_too_long_refused :
    (Instr.g1 [param letterY [5, 0], param letterF [1, 0, 0, 0]]).wellFormed 11 = false ∧
    (Instr.g1 [param letterY [5, 0], param letterF [1, 0, 0, 0]]).wellFormed 12 = true := by decide

/-! ## Decoding: words (30_encoding R101, R102; 95 E1 to E11, P1, P2, P6) -/

theorem test_decode_enqueue : accepted (decodeWord 0x1C0000000200000003#72)
    (.enqueue .traverse .reverse 2#32 3#32) = true := by decide
theorem test_decode_pause : accepted (decodeWord 0x280000000000000000#72) (.pause .traverse) = true := by decide
theorem test_decode_resume : accepted (decodeWord 0x380000000000000000#72) (.resume .traverse) = true := by decide
theorem test_decode_estop : accepted (decodeWord 0x480000000000000000#72) (.estop .traverse) = true := by decide
theorem test_decode_home : accepted (decodeWord 0x500000000000000000#72) (.home .spindle) = true := by decide
theorem test_decode_isActive : accepted (decodeWord 0x680000000000000000#72) (.isActive .traverse) = true := by decide
theorem test_decode_queueDepth : accepted (decodeWord 0x700000000000000000#72) (.queueDepth .spindle) = true := by
  decide
theorem test_decode_position : accepted (decodeWord 0x880000000000000000#72) (.position .traverse) = true := by decide
theorem test_decode_getRpm : accepted (decodeWord 0x900000000000000000#72) .getRpm = true := by decide
theorem test_decode_qstop : accepted (decodeWord 0xA80000000000000000#72) (.qstop .traverse) = true := by decide
theorem test_decode_clrEstop : accepted (decodeWord 0xB80000000000000000#72) (.clrEstop .traverse) = true := by decide
theorem test_decode_rdState : accepted (decodeWord 0xC00000000000000000#72) (.rdState .spindle) = true := by decide
theorem test_decode_estopAll : accepted (decodeWord 0xD00000000000000000#72) .estopAll = true := by decide
theorem test_decode_tick : accepted (decodeWord 0xE00000000000000000#72) .tick = true := by decide
theorem test_decode_hallEdge : accepted (decodeWord 0xF000000000000FB770#72) (.hallEdge 1030000#64) = true := by decide

/-- 95 E5 to E10. -/
theorem test_illegal_words :
    ([0x000000000000000000#72, 0x290000000000000000#72, 0x2C0000000000000000#72, 0x280000000000000001#72,
      0x980000000000000000#72, 0xE00000000000000000#72, 0xF000000000000FB770#72].all fun w =>
        rejected (decodePort w) .illegalWord) = true := by decide

/-- 95 E11. -/
theorem test_empty_chunk_decodes : accepted (decodePort 0x180000000000000002#72)
    (.enqueue .traverse .forward 0#32 2#32) = true := by decide

/-! ## Decoding: lines (30_encoding R107 to R112; 95 E17, E18 and section 6) -/

theorem test_decode_g0 : accepted (decodeLine 96 [0x47#8, 0x30#8]) (.g0 []) = true := by decide
/-- 95 E17, the bytes of `G1 Y50 F1000`. -/
theorem test_decode_g1 : accepted (decode 96 (.line [0x47#8, 0x31#8, 0x20#8, 0x59#8, 0x35#8, 0x30#8, 0x20#8, 0x46#8,
    0x31#8, 0x30#8, 0x30#8, 0x30#8, 0x0A#8])) (.g1 [param 24 [5, 0], param 5 [1, 0, 0, 0]]) = true := by decide
theorem test_decode_g28 : accepted (decodeLine 96 [0x47#8, 0x32#8, 0x38#8]) (.g28 []) = true := by decide
theorem test_decode_g4 : accepted (decodeLine 96 [0x47#8, 0x34#8, 0x20#8, 0x50#8, 0x30#8, 0x2E#8, 0x35#8])
    (.g4 [⟨15, ⟨.none, [0], [5]⟩⟩]) = true := by decide
theorem test_decode_m3 : accepted (decodeLine 96 [0x4D#8, 0x33#8, 0x20#8, 0x53#8, 0x2D#8, 0x31#8])
    (.m3 [⟨18, ⟨.minus, [1], []⟩⟩]) = true := by decide
theorem test_decode_m4 : accepted (decodeLine 96 [0x4D#8, 0x34#8]) (.m4 []) = true := by decide
theorem test_decode_m5 : accepted (decodeLine 96 [0x4D#8, 0x35#8]) (.m5 []) = true := by decide
theorem test_decode_m0 : accepted (decodeLine 96 [0x4D#8, 0x30#8]) (.m0 []) = true := by decide
theorem test_decode_m1 : accepted (decodeLine 96 [0x4D#8, 0x31#8]) (.m1 []) = true := by decide
theorem test_decode_m112 : accepted (decodeLine 96 [0x4D#8, 0x31#8, 0x31#8, 0x32#8]) (.m112 []) = true := by decide
theorem test_decode_m410 : accepted (decodeLine 96 [0x4D#8, 0x34#8, 0x31#8, 0x30#8]) (.m410 []) = true := by decide
theorem test_decode_m999 : accepted (decodeLine 96 [0x4D#8, 0x39#8, 0x39#8, 0x39#8]) (.m999 []) = true := by decide
theorem test_decode_status : accepted (decodeLine 96 [0x53#8, 0x54#8, 0x41#8, 0x54#8, 0x55#8, 0x53#8]) .status = true :=
  by decide
theorem test_decode_ping : accepted (decodeLine 96 [0x70#8, 0x69#8, 0x6E#8, 0x67#8]) .ping = true := by decide
theorem test_decode_version : accepted (decodeLine 96 [0x56#8, 0x45#8, 0x52#8, 0x53#8, 0x49#8, 0x4F#8, 0x4E#8])
    .version = true := by decide

/-- 95 L3 to L6: a leading zero, a plus sign, a TAB, ignored parameters. -/
theorem test_spellings :
    accepted (decodeLine 96 (ascii "G01 Y50")) (.g1 [param 24 [5, 0]]) = true ∧
    accepted (decodeLine 96 (ascii "G1 Y+50")) (.g1 [⟨24, ⟨.plus, [5, 0], []⟩⟩]) = true ∧
    accepted (decodeLine 96 (ascii "G1" ++ [0x09#8] ++ ascii "Y5")) (.g1 [param 24 [5]]) = true ∧
    accepted (decodeLine 96 (ascii "G1 Y5 T3 S9")) (.g1 [param 24 [5], param 19 [3], param 18 [9]]) = true := by decide

/-- 95 L8 to L12, L39. -/
theorem test_malformed_lines :
    (["G1Y50", "G1 Y", "G1 Y5e3", "G1 Y1.", "G1 Y.5", "G1 Y50 Y60", "G1 Y1234567890123456789", "HELLO", "PING X",
      "G28 Y"].all fun l => rejected (decodeLine 96 (ascii l)) .malformed) = true := by decide

/-- 95 L13, L14. -/
theorem test_unknown_and_blank_lines :
    (["G2 X1", "T1", "M7"].all fun l => rejected (decodeLine 96 (ascii l)) .unknownCommand) = true ∧
    rejected (decodeLine 96 (ascii "   ")) .blank = true := by decide

/-- 30_encoding R107: LINE_MAX is a legal length, one byte more is not. -/
theorem test_line_max :
    accepted (decodeLine 16 (ascii "PING            ")) .ping = true ∧
    rejected (decodeLine 16 (ascii "PING             ")) .malformed = true := by decide

/-! ## One step of every operation -/

/-- 95 Q1. -/
theorem test_enqueue_stores : yields (exec (.enqueue .traverse .forward 3#32 2#32) State.reset) (fun t =>
    decide (t.traverse = queued ∧ t.spindle = AxisBank.reset ∧ t.history = [.rsp 0#68])) = true := by decide

/-- 95 Q2, E14. -/
theorem test_enqueue_full : yields (exec (.enqueue .traverse .forward 1#32 1#32) (withTraverse full)) (fun t =>
    decide (t.traverse = full ∧ t.history = [.rsp 0x10000000000000000#68])) = true := by decide

/-- 95 Q8. -/
theorem test_pause : yields (exec (.pause .traverse) (withTraverse loaded)) (fun t =>
    decide (t.traverse = { loaded with paused := true } ∧ t.spindle.paused = false)) = true := by decide

/-- 95 Q9. -/
theorem test_resume : yields (exec (.resume .traverse) (withTraverse { loaded with paused := true })) (fun t =>
    decide (t.traverse = loaded)) = true := by decide

/-- 95 Q10, on the loaded chunk here. -/
theorem test_estop : yields (exec (.estop .traverse) (withTraverse loaded)) (fun t => decide (t.traverse = { loaded with
    curRem := 0#32, curCnt := 0#32, active := false, estop := true } ∧ t.safety = .normal)) = true := by decide

/-- 95 Q11: the loaded chunk stays, the ring goes. -/
theorem test_qstop : yields (exec (.qstop .traverse) (withTraverse { full with head := 2, tail := 6, curRem := 1#32 }))
    (fun t => decide (t.traverse.head = 6 ∧ t.traverse.tail = 6 ∧ t.traverse.curRem = 1#32 ∧ t.traverse.active = true))
    = true := by decide

/-- 95 Q12. -/
theorem test_clrEstop : yields (exec (.clrEstop .traverse) (withTraverse { AxisBank.reset with
    estop := true, paused := true, pos := 7#64 })) (fun t =>
    decide (t.traverse = { AxisBank.reset with pos := 7#64 })) = true := by decide

/-- 95 Q13. -/
theorem test_estopAll : yields (exec .estopAll { withTraverse loaded with targetRpm := 300 }) (fun t =>
    decide (t.safety = .emergencyStopped ∧ t.spindle.estop = true ∧ t.traverse.estop = true ∧ t.traverse.pos = 1#64 ∧
      t.traverse.curRem = 0#32 ∧ t.targetRpm = 0 ∧ t.history = [.spindleDrive .cut, .rsp 0#68])) = true := by
  decide +kernel

/-- 95 Q14, Q15. -/
theorem test_home_refused :
    yields (exec (.home .traverse) held) (fun t => decide (t.history = [.rsp 0x60000000000000000#68] ∧ t.fg = .idle)) =
      true ∧
    yields (exec (.home .traverse) halted) (fun t => decide (t.history = [.rsp 0x20000000000000000#68])) = true := by
  decide

/-- 95 Q16: with the switch closed the first poll answers OK. -/
theorem test_home_poll : yields (step { State.reset with
    fg := .home .traverse 0#64 .operation, limitTraverse := true, sched := [.poll] }) (fun t =>
    decide (t.fg = .idle ∧ t.traverse = { AxisBank.reset with homed := true } ∧ t.history = [.rsp 0#68])) = true := by
  decide +kernel

/-- 95 Q17. -/
theorem test_isActive : yields (exec (.isActive .traverse) (withTraverse queued)) (fun t =>
    decide (t.history = [.rsp 1#68])) = true := by decide

/-- 95 Q17, E12; the index wraps in the second (Q7). -/
theorem test_queueDepth :
    yields (exec (.queueDepth .traverse) (withTraverse queued)) (fun t => decide (t.history = [.rsp 1#68])) = true ∧
    yields (exec (.queueDepth .traverse) (withTraverse { full with head := 6, tail := 2 })) (fun t =>
      decide (t.history = [.rsp 4#68])) = true := by decide

/-- 95 Q19, E13. -/
theorem test_position : yields (exec (.position .traverse) (withTraverse { AxisBank.reset with pos := -1#64 })) (fun t =>
    decide (t.history = [.rsp 0x0FFFFFFFFFFFFFFFF#68])) = true := by decide

/-- 95 E16. -/
theorem test_rdState : yields (exec (.rdState .traverse) { held with
    traverse := { AxisBank.reset with paused := true, active := true, homed := true } }) (fun t =>
    decide (t.history = [.rsp 0x1B#68])) = true := by decide

/-- 95 E15, H7. -/
theorem test_getRpm : yields (exec .getRpm { spinning with now := 1800000#64 }) (fun t =>
    decide (t.history = [.rsp 0x43834000#68])) = true := by decide +kernel

/-- 95 H8. -/
theorem test_getRpm_stalled : yields (exec .getRpm { spinning with now := 1800001#64 }) (fun t =>
    decide (t.history = [.rsp 0#68] ∧ t.currentRpm = mkRat 525 2)) = true := by decide +kernel

/-- 95 T2: the TICK that loads a chunk counts it down once. -/
theorem test_tick_loads : yields (exec .tick (withTraverse queued)) (fun t => decide (t.traverse = { queued with
    head := 1, curRem := 3#32, curCnt := 1#32, curDelay := 2#32 } ∧ t.history = [])) = true := by decide

/-- 95 T9: the position wraps. -/
theorem test_tick_wraps : yields (exec .tick (withTraverse { loaded with
    curRem := 1#32, pos := 0x7FFFFFFFFFFFFFFF#64 })) (fun t => decide (t.traverse.pos = 0x8000000000000000#64 ∧
      t.traverse.curCnt = 2#32 ∧ t.traverse.active = false ∧ t.history = [.stepPulse .traverse .forward])) = true := by
  decide

/-- 95 H9. -/
theorem test_hallEdge : yields (exec (.hallEdge 2300000#64) spinning) (fun t =>
    decide (t.currentRpm = mkRat 585 4 ∧ t.lastEdgeTs = 2300000#64)) = true := by decide +kernel

/-- 95 H4, H11 and H12: the debounce floor, the edge after a discarded one, and the wrap of the timestamp. -/
theorem test_hallEdge_debounce_and_wrap :
    yields (exec (.hallEdge 1300999#64) spinning) (fun t => decide (t = spinning)) = true ∧
    (let s := { State.reset with hallValid := true, lastEdgeTs := 1000#64, currentRpm := 15000 }
     yields (exec (.hallEdge 1999#64) s) (fun t => decide (t = s)) = true ∧
     yields (exec (.hallEdge 2000#64) s) (fun t => decide (t.currentRpm = 22500 ∧ t.lastEdgeTs = 2000#64)) = true) ∧
    yields (exec (.hallEdge 700#64) { State.reset with hallValid := true, lastEdgeTs := -500#64 }) (fun t =>
      decide (t.currentRpm = 12500)) = true := by decide +kernel

/-! ## One step of every command -/

/-- 95 L7. -/
theorem test_g0 : yields (exec (.g0 [param letterY [5, 0]]) State.reset) (fun t =>
    decide (memRead 4 t.traverse 0 = ⟨4000#32, 15#32, .forward⟩ ∧ t.traverse.tail = 1)) = true := by decide +kernel

/-- 95 L25: measured from the planned position. -/
theorem test_g1 : yields (exec (.g1 [param letterY [5]]) (withTraverse { loaded with
    curRem := 800#32, pos := 0#64 })) (fun t => decide (memRead 4 t.traverse 1 = ⟨400#32, 15#32, .reverse⟩ ∧
      t.traverse.tail = 2 ∧ t.history = [lineOf "OK"])) = true := by decide +kernel

/-- 95 L21: a feed rate out of range leaves the stored one. -/
theorem test_g1_feed : yields (exec (.g1 [param letterY [5, 0], ⟨letterF, ⟨.none, [6, 0, 0, 0], [5]⟩⟩]) State.reset)
    (fun t => decide (t.feed = 1000 ∧ t.traverse = AxisBank.reset ∧ t.history = [lineOf "ERROR_OUT_OF_RANGE"])) = true :=
  by decide +kernel

/-- 95 L40, L41. -/
theorem test_g28 :
    yields (exec (.g28 [param letterX [0]]) State.reset) (fun t =>
      decide (t.history = [lineOf "ERROR_UNSUPPORTED_AXIS"] ∧ t.fg = .idle)) = true ∧
    yields (exec (.g28 [param letterY [0]]) State.reset) (fun t =>
      decide (t.fg = .home .traverse 0#64 .g28 ∧ t.history = [])) = true := by decide +kernel

/-- 95 L37, L38. -/
theorem test_g4_dwell :
    yields (exec (.g4 [param letterP [2, 5, 0]]) State.reset) (fun t => decide (t.fg = .dwell 0#64 250000)) = true ∧
    yields (exec (.g4 [⟨letterP, ⟨.none, [0], [0, 0, 0, 1]⟩⟩]) State.reset) (fun t =>
      decide (t.fg = .dwell 0#64 1)) = true := by decide +kernel

/-- 95 L46. -/
theorem test_g4_frozen : yields (exec (.g4 []) { held with traverse := { queued with paused := true } }) (fun t =>
    decide (t.history = [lineOf "ERROR_SAFETY_STATE"] ∧ t.fg = .idle)) = true := by decide +kernel

/-- 95 L29. -/
theorem test_m3 : yields (exec (.m3 [param letterS [3, 0, 0, 0]]) { State.reset with spinDir := .ccw }) (fun t =>
    decide (t.targetRpm = 3000 ∧ t.spinDir = .cw ∧ t.history = [.spindleDrive .ramp, lineOf "OK"])) = true := by
  decide +kernel

/-- 95 L31. -/
theorem test_m4 : yields (exec (.m4 [⟨letterS, ⟨.none, [1, 5, 0], [5]⟩⟩]) State.reset) (fun t =>
    decide (t.targetRpm = mkRat 301 2 ∧ t.spinDir = .ccw)) = true := by decide +kernel

/-- 95 L32, L34 in their spindle events. -/
theorem test_m5 : yields (exec (.m5 []) { State.reset with targetRpm := 300 }) (fun t =>
    decide (t.targetRpm = 0 ∧ t.history = [.spindleDrive .ramp, lineOf "OK"])) = true := by decide +kernel

/-- 95 P3 step 4. -/
theorem test_m0 : yields (exec (.m0 []) (withTraverse loaded)) (fun t => decide (t.safety = .feedHold ∧
    t.traverse = { loaded with paused := true } ∧ t.spindle.paused = true)) = true := by decide +kernel

/-- 95 P3 step 9, L33. -/
theorem test_m1 :
    yields (exec (.m1 []) held) (fun t => decide (t.safety = .normal ∧ t.spindle = AxisBank.reset ∧
      t.traverse = AxisBank.reset)) = true ∧
    yields (exec (.m1 []) State.reset) (fun t => decide (t.history = [lineOf "ERROR_SAFETY_STATE"])) = true := by
  decide +kernel

/-- 95 L34. -/
theorem test_m112 : yields (exec (.m112 [param letterS [5]]) State.reset) (fun t =>
    decide (t = { halted with history := [.spindleDrive .cut, lineOf "OK"] })) = true := by decide +kernel

/-- 95 L26. -/
theorem test_m410 : yields (exec (.m410 []) (withTraverse { full with curRem := 800#32 })) (fun t =>
    decide (t.traverse.head = 4 ∧ t.traverse.tail = 4 ∧ t.traverse.curRem = 800#32 ∧ t.traverse.active = true)) = true :=
  by decide +kernel

/-- 95 P5 steps 7 and 8. -/
theorem test_m999 :
    yields (exec (.m999 []) { halted with
      currentRpm := mkRat 525 2, lastEdgeTs := 1300000#64, hallValid := true, now := 1800000#64 }) (fun t =>
      decide (t.safety = .emergencyStopped ∧ t.history = [lineOf "ERROR_SPINDLE_NOT_STOPPED"])) = true ∧
    yields (exec (.m999 []) { halted with
      currentRpm := mkRat 525 2, lastEdgeTs := 1300000#64, hallValid := true, now := 1800001#64 }) (fun t =>
      decide (t.safety = .normal ∧ t.spindle = AxisBank.reset ∧ t.traverse = AxisBank.reset ∧
        t.history = [lineOf "OK"])) = true := by decide +kernel

/-- 95 L51, L53. -/
theorem test_status :
    yields (exec .status { spinning with targetRpm := 300 }) (fun t =>
      decide (t.history = [lineOf "STATUS: Spindle=263RPM(RUN) Traverse=0.00mm"])) = true ∧
    yields (exec .status (withTraverse { AxisBank.reset with pos := -8#64 })) (fun t =>
      decide (t.history = [lineOf "STATUS: Spindle=0RPM(STOP) Traverse=-0.10mm"])) = true := by decide +kernel

/-- 95 L52: 0.025 mm rounds away from zero. -/
theorem test_status_rounds : yields (exec .status { withTraverse { AxisBank.reset with pos := 2#64 } with
    targetRpm := 300 }) (fun t => decide (t.history = [lineOf "STATUS: Spindle=0RPM(RUN) Traverse=0.03mm"])) = true := by
  decide +kernel

/-- 95 L48. -/
theorem test_ping : yields (exec .ping State.reset) (fun t => decide (t.history = [lineOf "PONG"])) = true := by
  decide +kernel

/-- 95 L49. -/
theorem test_version : yields (exec .version State.reset) (fun t =>
    decide (t.history = [lineOf "PUWINDER-CORE"])) = true := by decide +kernel

/-! ## One step of the machine -/

/-- 95 E5 on the command port. -/
theorem test_step_illegal_word : yields (step { State.reset with opPort := [0#72], sched := [.takeWord] }) (fun t =>
    decide (t = { State.reset with history := [.rsp 0x50000000000000000#68] })) = true := by decide +kernel

/-- The bytes after the LF stay in the stream. -/
theorem test_step_line : yields (step { State.reset with rx := ascii "PING" ++ [0x0A#8, 0x47#8], sched := [.takeLine] })
    (fun t => decide (t.rx = [0x47#8] ∧ t.history = [lineOf "PONG"])) = true := by decide +kernel

/-- 42_rpm_estimator R220: a change of level is an edge at `now`. -/
theorem test_step_hall_level : yields (step { State.reset with now := 9#64, sched := [.hallLevel true] }) (fun t =>
    decide (t.lastEdgeTs = 9#64 ∧ t.hallValid = true ∧ t.hallPrev = true)) = true := by decide +kernel

/-- The opcode table's rows reach the step (G28 by its bytes, HALL_EDGE by its word). -/
theorem test_table_words :
    decodeTableWord 24 0x473238 = some (.g28 []) ∧ decodeTableWord 72 0xF00000000000000005 = some (.hallEdge 5#64) ∧
    yields (step (State.reset.withFetchWord 24 0x473238)) (fun t =>
      decide (t.fg = .home .traverse 0#64 .g28)) = true := by decide +kernel

/-! ## Witnesses: the hypotheses of each obligation can be met, clause by clause -/

theorem bankInv_queued : BankInv 4 queued := by constructor <;> decide
theorem bankInv_loaded : BankInv 4 loaded := by constructor <;> decide
theorem bankInv_full : BankInv 4 full := by constructor <;> decide
theorem bankInv_reset : BankInv 4 AxisBank.reset := by constructor <;> decide

/-- Three chunks about the wrap of the indices: `head` 6, `tail` 1. -/
theorem bankInv_wrapped : BankInv 4 { full with head := 6, tail := 1 } := by constructor <;> decide

theorem witness_DecodeInvertsEncode :
    (Instr.hallEdge (-1#64)).wellFormed 16 = true ∧ Instr.ping.wellFormed 4 = true ∧
    (Instr.g1 [⟨letterY, ⟨.minus, [1, 2, 3, 4, 5, 6, 7, 8, 9], [1, 2, 3, 4, 5, 6, 7, 8, 9]⟩⟩]).wellFormed 24 = true := by
  decide

theorem witness_EncodeInvertsDecodeWord : decodeWord 0xF8FFFFFFFF00000001#72 = .error .illegalWord ∧
    decodeWord 0xF0FFFFFFFF00000001#72 = .ok (.hallEdge 0xFFFFFFFF00000001#64) := ⟨rfl, rfl⟩

theorem witness_DecodedInstructionIsWellFormed : decode 7 (.line (ascii "G4 P0.5" ++ [0x0A#8])) =
    .ok (.g4 [⟨letterP, ⟨.none, [0], [5]⟩⟩]) := rfl

/-- Words on both sides of each clause, and a state whose next step takes an illegal one. -/
theorem witness_IllegalWordsAreRefused :
    (0x0FFFFFFFFFFFFFFFFF#72).extractLsb' 68 4 = 0x0#4 ∧ (0x210000000000000000#72).extractLsb' 64 2 ≠ 0#2 ∧
    (0xF0FFFFFFFFFFFFFFFF#72).extractLsb' 68 4 = 0xF#4 ∧ (0xC00000000000000001#72).extractLsb' 0 32 ≠ 0#32 ∧
    (0xD80000000000000000#72).extractLsb' 67 1 ≠ 0#1 ∧ decodePort 0xC80000000000000000#72 = .ok (.rdState .traverse) ∧
    (let s := { State.reset with opPort := [0#72], sched := [.takeWord] }
     s.cfg.admissible = true ∧ s.fg = .idle ∧ s.sched = .takeWord :: [] ∧ s.opPort = 0#72 :: []) ∧
    State.reset.safety ≠ .emergencyStopped ∧ (State.reset.bank .spindle).estop = false := by decide +kernel

theorem witness_OperandFieldsOfWord : decodeWord 0xF0FFFFFFFF00000001#72 = .ok (.hallEdge 0xFFFFFFFF00000001#64) ∧
    decodeWord 0x1CFFFFFFFF00000001#72 = .ok (.enqueue .traverse .reverse 0xFFFFFFFF#32 1#32) := ⟨rfl, rfl⟩

theorem witness_SlotRecordLayout :
    decodeWord 0x1C0000000200000003#72 = .ok (.enqueue .traverse .reverse 2#32 3#32) := rfl

theorem witness_StepRunsDecodedInstruction :
    (let s := { State.reset with opPort := [0xC80000000000000000#72], sched := [.takeWord] }
     s.cfg.admissible = true ∧ s.fg = .idle ∧ s.sched = .takeWord :: [] ∧ s.opPort = 0xC80000000000000000#72 :: []) ∧
    decodePort 0xC80000000000000000#72 = .ok (.rdState .traverse) ∧
    (let s := { State.reset with rx := ascii "M5" ++ [0x0D#8, 0x0A#8, 0x47#8], sched := [.takeLine] }
     s.cfg.admissible = true ∧ s.fg = .idle ∧ s.sched = .takeLine :: [] ∧
       cutLine s.rx = some (ascii "M5" ++ [0x0D#8], [0x47#8])) ∧
    decodeLine 96 (ascii "M5" ++ [0x0D#8]) = .ok (.m5 []) ∧
    -- a busy foreground, with a word and a line waiting
    (let s := { State.reset with
        fg := .sync, opPort := [0xC80000000000000000#72], rx := [0x0A#8], sched := [.takeWord, .takeLine] }
     s.cfg.admissible = true ∧ s.sched = .takeWord :: [.takeLine] ∧ s.fg ≠ .idle) ∧
    -- nothing waiting, a line without its LF, nothing in progress, no turn left
    State.reset.opPort = [] ∧ 0x0A#8 ∉ ascii "M5" ∧ State.reset.fg = .idle ∧ State.reset.sched = [] := by decide +kernel

/-- What step does there (93 U34): the word waits while G4 synchronises. -/
theorem test_step_busy_foreground : yields (step { State.reset with
    fg := .sync, opPort := [0xC80000000000000000#72], sched := [.takeWord] }) (fun t =>
    decide (t.opPort = [0xC80000000000000000#72] ∧ t.fg = .sync ∧ t.history = [])) = true := by decide +kernel

theorem witness_StepTakesEvents :
    State.reset.cfg.admissible = true ∧ ∀ act ∈ [Action.tick, .hallLevel true, .hallEdge 5#64, .estopReq,
      .limitSwitch .traverse true, .limitSwitch .spindle false, .clock (-1#64)],
      ({ State.reset with sched := [act] }).sched = act :: [] := by decide +kernel

/-- Every clause: a line with its CR and one without, of each kind; that no grammar fits `G1Y5` shows in its token. -/
theorem witness_RejectedLinesAreAnswered :
    (ascii "PING" ++ [0x0D#8] = ascii "PING" ++ [0x0D#8] ∧ (ascii "PING").getLast? ≠ some 0x0D#8) ∧
    (∀ b ∈ [0x20#8, 0x09#8], b = 0x20#8 ∨ b = 0x09#8) ∧
    (16 < (ascii "PING             ").length ∧ ¬16 < (ascii "PING            ").length) ∧
    ¬(0x20 ≤ (0x7F#8).toNat ∧ (0x7F#8).toNat ≤ 0x7E ∨ 0x7F#8 = 0x09#8) ∧
    ((ascii "PING", Instr.ping) ∈ keywordTable ∧ lineTokens (ascii " ping ") = [ascii "PING"]) ∧
    (lineTokens (ascii "g01" ++ [0x09#8] ++ ascii "Y+5.0") = [ascii "G01", ascii "Y+5.0"] ∧
      CommandLine [ascii "G01", ascii "Y+5.0"] 6 1 [⟨24, ⟨.plus, [5], [0]⟩⟩] ∧ ((6, 1), Instr.g1) ∈ commandTable) ∧
    (CommandLine [ascii "M7"] 12 7 [] ∧ ∀ e ∈ commandTable, e.1 ≠ (12, 7)) ∧
    ((∀ e ∈ keywordTable, lineTokens (ascii "G1Y5") ≠ [e.1]) ∧
      ∀ c n ps, ¬CommandLine (lineTokens (ascii "G1Y5")) c n ps) ∧
    (let s := { State.reset with rx := ascii "G1Y5" ++ [0x0A#8], sched := [.takeLine] }
     s.cfg.admissible = true ∧ s.fg = .idle ∧ s.sched = .takeLine :: [] ∧ cutLine s.rx = some (ascii "G1Y5", [])) ∧
    decodeLine 96 (ascii "G1Y5") = .error .malformed ∧ decodeLine 96 (ascii "M7") = .error .unknownCommand ∧
    decodeLine 96 [0x20#8, 0x0D#8] = .error .blank := by
  refine ⟨by decide, by decide, by decide, by decide, ⟨by simp [keywordTable], by decide +kernel⟩,
    ⟨by decide +kernel, ?_, by simp [commandTable]⟩,
    ⟨⟨ascii "M7", [], rfl, ⟨[0x37#8], [7], rfl, rfl, by decide, by decide, rfl⟩, .nil, by decide⟩, by decide⟩,
    ⟨by decide +kernel, ?_⟩, by decide +kernel⟩
  · exact ⟨ascii "G01", [ascii "Y+5.0"], rfl, ⟨[0x30#8, 0x31#8], [0, 1], rfl, rfl, by decide, by decide, rfl⟩,
      .cons ⟨ascii "+5.0", rfl, [0x2B#8], [0x35#8], [0x2E#8, 0x30#8], rfl, rfl, rfl, by decide, ⟨[0x30#8], rfl, rfl⟩,
        by decide⟩ .nil, by decide⟩
  · rintro c n ps ⟨t, us, h, ht, -, -⟩
    rw [show lineTokens (ascii "G1Y5") = [ascii "G1Y5"] from by decide +kernel] at h
    obtain ⟨rfl, -⟩ := List.cons.inj h
    obtain ⟨ds, hd, -⟩ := (Laws.parseCmdToken_eq_some_iff _ c n).2 ht
    rw [show parseCmdToken (ascii "G1Y5") = none from by decide] at hd
    cases hd

theorem witness_InadmissibleConfigurationIsRefused :
    yields (step State.reset) (fun t => decide (t = State.reset)) = true ∧ brokenConfig.admissible = false ∧
    -- the least admissible bounds, and one below
    ({ cfgT with cap := 1, lineMax := 16, debounceTs := 1, maxRpm := 0 }).admissible = true ∧
    ({ cfgT with lineMax := 15 }).admissible = false ∧ ({ cfgT with homeDelay := 0#32 }).admissible = false ∧
    refusedConfiguration (step { State.reset with cfg := brokenConfig }) = true := by decide +kernel

theorem witness_AdmissibleStepCompletes : halted.cfg.admissible = true := by decide +kernel

/-- With one chunk in the ring, and with room for one more across the wrap of `tail`. -/
theorem witness_EnqueueStoresChunk :
    (∀ b ∈ [queued, { full with head := 6, tail := 1 }, { full with head := 0, tail := 3 }], let s := withTraverse b
      s.safety ≠ .emergencyStopped ∧ (s.bank .traverse).estop = false ∧ s.depth .traverse ≠ s.cfg.cap) ∧
    1#32 ≠ 0#32 ∧ BankInv 4 queued ∧ BankInv 4 { full with head := 6, tail := 1 } :=
  ⟨by decide, by decide, bankInv_queued, bankInv_wrapped⟩

/-- Every clause: the two stops, an empty chunk, a full ring. -/
theorem witness_EnqueueRejections :
    halted.safety = .emergencyStopped ∧ ({ State.reset with spindle := { AxisBank.reset with estop := true } }.bank
      .spindle).estop = true ∧
    (let s := withTraverse full
     ¬(s.safety = .emergencyStopped ∨ (s.bank .traverse).estop = true) ∧ s.depth .traverse = s.cfg.cap) := by decide

theorem witness_EstopAllStopsBothAxes : let s := { withTraverse full with sched := [.estopReq] }
    s.cfg.admissible = true ∧ s.sched = .estopReq :: [] := by decide +kernel

/-- Both refusals, in NORMAL and out of it, and the start. -/
theorem witness_HomeStarts :
    halted.safety = .emergencyStopped ∧
    (¬(held.safety = .emergencyStopped ∨ (held.bank .traverse).estop = true) ∧ held.safety = .feedHold) ∧
    ¬(State.reset.safety = .feedHold ∨ (State.reset.bank .traverse).paused = true) := by decide

/-- A G28 in progress on a bank, `now` after its start. -/
def homing (b : AxisBank) (now : BitVec 64) (switch : Bool) : State := { withTraverse b with
  fg := .home .traverse 0#64 .g28, now := now, limitTraverse := switch, sched := [.poll] }

/-- The five outcomes of a poll; the deadline is HOMING_TIMEOUT_TS = 10000000, which has not passed yet at that time. -/
theorem witness_HomePollSteps :
    (∀ b now switch, (homing b now switch).sched = .poll :: [] ∧
      (homing b now switch).fg = .home .traverse 0#64 .g28) ∧
    (homing loaded 10000000#64 true).cfg.admissible = true ∧ BankInv 4 loaded ∧ BankInv 4 AxisBank.reset ∧
    BankInv 4 { AxisBank.reset with estop := true } ∧
    ¬(loaded.active = false ∨ cfgT.homingTimeoutTs < (10000000#64 - 0#64).toNat ∨ loaded.estop = true) ∧
    (AxisBank.reset.active = false ∧ (homing AxisBank.reset 10000001#64 true).limitTraverse = true) ∧
    cfgT.homingTimeoutTs < (10000001#64 - 0#64).toNat ∧
    (AxisBank.reset.active = false ∧ (homing AxisBank.reset 10000000#64 false).limitTraverse = false) :=
  ⟨fun _ _ _ => ⟨rfl, rfl⟩, by decide +kernel, bankInv_loaded, bankInv_reset, by constructor <;> decide, by decide,
    by decide, by decide, by decide⟩

/-- Every clause: a bank in the view it asks for, and an operation that answers and changes it. -/
theorem witness_AxisViewTransitions :
    BankInv 4 queued ∧ queued.view = .active ∧ AxisBank.reset.view = .idle ∧
    ({ queued with paused := true }).view = .paused ∧ BankInv 4 { queued with paused := true } ∧
    ({ AxisBank.reset with estop := true }).view = .estopped ∧
    yields (exec (.enqueue .traverse .forward 1#32 1#32) State.reset) (fun t =>
      decide (t.bank .traverse ≠ State.reset.bank .traverse)) = true ∧
    yields (exec (.enqueue .traverse .forward 1#32 1#32) (withTraverse { queued with paused := true })) (fun t =>
      decide (t.bank .traverse ≠ { queued with paused := true })) = true ∧
    ∀ i ∈ [Instr.pause .traverse, .resume .traverse, .estop .traverse, .clrEstop .traverse, .tick],
      yields (exec i (withTraverse queued)) (fun _ => true) = true :=
  ⟨bankInv_queued, by decide, by decide, by decide, by constructor <;> decide, by decide, by decide, by decide,
    by decide⟩

theorem witness_TickOrderAndFrame : let s := withTraverse loaded
    let s' := { s with spindle := queued, safety := .feedHold }
    s'.cfg.cap = s.cfg.cap ∧ s'.bank .traverse = s.bank .traverse ∧ yields (exec .tick s') (fun _ => true) = true := by
  decide

theorem witness_TickLeavesIneligibleAxis : (State.reset.bank .traverse).active = false ∧
    ((withTraverse { loaded with paused := true }).bank .traverse).paused = true ∧
    (halted.bank .spindle).estop = true := by decide

/-- Every clause: not yet, the same chunk, idle, the next chunk. -/
theorem witness_TickStepsLoadedAxis :
    (∀ b ∈ [loaded, { loaded with curCnt := 2#32 }, { loaded with curRem := 1#32 },
      { queued with curRem := 1#32, curCnt := 1#32 }], b.active = true ∧ b.paused = false ∧ b.estop = false ∧
      b.curRem ≠ 0#32) ∧
    ({ loaded with curCnt := 2#32 }).curCnt ≠ 1#32 ∧ ¬loaded.curCnt ≠ 1#32 ∧ loaded.curRem ≠ 1#32 ∧
    loaded.head = loaded.tail ∧
    (queued.head ≠ queued.tail ∧ queued.head < 2 * cfgT.cap ∧ queued.tail < 2 * cfgT.cap ∧
      (memRead cfgT.cap queued queued.head).count ≠ 0#32 ∧ (memRead cfgT.cap queued queued.head).delay ≠ 0#32) := by
  decide

/-- Every clause: an empty ring (QSTOP before the load), a delay above 1, a delay of 1 with more than one step, and one
of a single step with nothing after it and with a chunk after it. -/
theorem witness_TickLoadsChunk : let one := { queued with ring := [(0, ⟨1#32, 1#32, .reverse⟩)] }
    let two := { queued with ring := [(0, ⟨1#32, 1#32, .reverse⟩), (1, ⟨3#32, 2#32, .forward⟩)], tail := 2 }
    (∀ b ∈ [{ queued with head := 1 }, queued, { queued with ring := [(0, ⟨3#32, 1#32, .reverse⟩)] }, one, two],
      b.active = true ∧ b.paused = false ∧ b.estop = false ∧ b.curRem = 0#32) ∧
    BankInv 4 { queued with head := 1 } ∧ BankInv 4 queued ∧
    BankInv 4 { queued with ring := [(0, ⟨3#32, 1#32, .reverse⟩)] } ∧ (memRead 4 queued queued.head).delay ≠ 1#32 ∧
    memRead 4 { queued with ring := [(0, ⟨3#32, 1#32, .reverse⟩)] } 0 = ⟨3#32, 1#32, .reverse⟩ ∧
    (BankInv 4 one ∧ memRead 4 one 0 = ⟨1#32, 1#32, .reverse⟩ ∧ (one.head + 1) % (2 * 4) = one.tail) ∧
    (BankInv 4 two ∧ memRead 4 two 0 = ⟨1#32, 1#32, .reverse⟩ ∧ (two.head + 1) % (2 * 4) ≠ two.tail) :=
  ⟨by decide, by constructor <;> decide, bankInv_queued, by constructor <;> decide, by decide, by decide,
    ⟨by constructor <;> decide, by decide⟩, by constructor <;> decide, by decide⟩

/-- 95 T7 and P6 step 3: a chunk of one step with delay 1 ends in the TICK that loads it, and the next one is loaded. -/
theorem test_tick_loads_and_ends :
    yields (exec .tick (withTraverse { queued with ring := [(0, ⟨1#32, 1#32, .forward⟩)] })) (fun t =>
      decide (t.traverse.active = false ∧ t.traverse.pos = 1#64 ∧ t.traverse.head = 1)) = true ∧
    yields (exec .tick (withTraverse full)) (fun t => decide (t.traverse = { full with
      head := 2, curRem := 1#32, curCnt := 1#32, curDelay := 1#32, pos := 1#64 })) = true := by decide

/-- The ring of 95 T10 with nothing loaded and after the last step of a loaded chunk, and a ring of valid records. -/
theorem witness_TickDiscardsEmptyRecord : let b := { AxisBank.reset with
      ring := [(0, ⟨0#32, 5#32, .forward⟩), (1, ⟨1#32, 1#32, .forward⟩)], tail := 2, active := true }
    (∀ c ∈ [b, { b with curRem := 1#32, curCnt := 1#32, curDelay := 3#32 }, full], c.active = true ∧ c.paused = false ∧
      c.estop = false ∧ c.head ≠ c.tail ∧ c.head < 2 * cfgT.cap ∧ c.tail < 2 * cfgT.cap ∧
      (c.curRem = 0#32 ∨ (c.curRem = 1#32 ∧ c.curCnt = 1#32))) ∧
    (memRead cfgT.cap b b.head).count = 0#32 ∧ full.curRem = 0#32 ∧ (memRead cfgT.cap full full.head).count ≠ 0#32 ∧
    (memRead cfgT.cap full full.head).delay ≠ 0#32 := by decide

theorem witness_PulseTrain : BankInv 4 loaded ∧ loaded.eligible = true ∧ BankInv 4 queued ∧ queued.eligible = true :=
  ⟨bankInv_loaded, by decide, bankInv_queued, by decide⟩

/-- The chunks (F,3,2) and (R,2,3) of 95 P2; the second may still come 5 TICKs after the first. As many as CAP chunks
may follow the first once a TICK has loaded it, one fewer before that. -/
theorem witness_ChunkTiming : let c : Chunk := ⟨3#32, 2#32, .forward⟩
    BankInv 4 AxisBank.reset ∧ State.reset.safety ≠ .emergencyStopped ∧ AxisBank.reset.estop = false ∧
    AxisBank.reset.paused = false ∧ AxisBank.reset.active = false ∧
    ∀ cs ∈ [[], [(5, ⟨2#32, 3#32, .reverse⟩)], [(0, c), (0, c), (0, c)], [(1, c), (0, c), (4, c), (0, c)]],
      (∀ e ∈ c :: cs.map Prod.snd, e.count ≠ 0#32 ∧ e.delay ≠ 0#32) ∧
      cs.length + (if (cs.map Prod.fst).sum = 0 then 1 else 0) ≤ cfgT.cap ∧
      (cs.map Prod.fst).sum < c.count.toNat * c.delay.toNat :=
  ⟨bankInv_reset, by decide, by decide, by decide, by decide, by decide⟩

theorem witness_TickKeepsPlanned : BankInv 4 loaded ∧ BankInv 4 AxisBank.reset ∧ AxisBank.reset.active = false :=
  ⟨bankInv_loaded, bankInv_reset, rfl⟩

theorem witness_PauseResumeDeterminism :
    ∀ i ∈ [Instr.tick, .pause .traverse, .tick, .tick, .resume .traverse, .tick],
      i = .tick ∨ i = .pause .traverse ∨ i = .resume .traverse := by decide

theorem witness_OnlyTickEmitsPulses :
    Instr.estopAll ≠ .tick ∧ yields (exec .estopAll (withTraverse loaded)) (fun _ => true) = true ∧
    (let s := { withTraverse loaded with sched := [.hallLevel true] }
     s.sched.head? ≠ some .tick ∧ yields (step s) (fun _ => true) = true) := by decide +kernel

/-- The operations, the event, a run after M112 that clears the stop and enqueues nothing, and steps on a quiet axis:
stopped with a TICK and with a poll of its homing, and not stopped. -/
theorem witness_EmergencyStopSilencesAxes :
    (let s := { withTraverse loaded with sched := [.estopReq] }; s.cfg.admissible = true ∧ s.sched = .estopReq :: []) ∧
    (∀ i ∈ [Instr.tick, .g1 [param letterY [5]], .estop .traverse], clearsStop .traverse i = false) ∧
    (∀ i ∈ [Instr.clrEstop .traverse, .tick, .home .traverse], enqueuesOn .traverse i = false) ∧
    yields (execAll [.tick, .g1 [param letterY [5]], .clrEstop .traverse, .tick] halted) (fun _ => true) = true ∧
    (∀ s ∈ [{ halted with sched := [.tick] }, { halted with fg := .home .traverse 0#64 .g28, sched := [.poll] }],
      yields (step s) (fun _ => true) = true ∧ (s.bank .traverse).estop = true ∧
      ((s.bank .traverse).active = false ∧ (s.bank .traverse).curRem = 0#32 ∧ (s.bank .traverse).depth 4 = 0)) ∧
    clearsStop .traverse .tick = false ∧
    (let s := { State.reset with sched := [.takeWord], opPort := [0x280000000000000000#72] }
     yields (step s) (fun t => decide (t.traverse.paused = true)) = true ∧
     enqueuesOn .traverse (.pause .traverse) = false ∧ s.sched.head? ≠ some .poll) := by
  decide +kernel

theorem witness_FirstHallEdge : State.reset.hallValid = false ∧ State.reset.currentRpm = 0 ∧
    cfgT.debounceTs ≤ (500#64 - (-500#64)).toNat ∧
    yields (step { State.reset with sched := [.clock 1#64] }) (fun t => decide (t.hallValid = false)) = true := by
  decide +kernel

/-- Below the debounce floor of 1000 and at it; a configuration with exact arithmetic. -/
theorem witness_LaterHallEdge : spinning.hallValid = true ∧
    (1300999#64 - spinning.lastEdgeTs).toNat < spinning.cfg.debounceTs ∧
    ¬(1301000#64 - spinning.lastEdgeTs).toNat < spinning.cfg.debounceTs ∧
    (let s := { spinning with cfg := { cfgT with rpmFormat := .exact } }
     s.cfg.rpmFormat = .exact ∧ yields (exec (.hallEdge 1301000#64) s) (fun _ => true) = true) := by decide +kernel

/-- No edge yet, at the stall timeout and just past it. -/
theorem witness_GetRpmReads : State.reset.hallValid = false ∧
    ¬(spinning.hallValid = false ∨ cfgT.stallTimeoutTs < (1800000#64 - spinning.lastEdgeTs).toNat) ∧
    cfgT.stallTimeoutTs < (1800001#64 - spinning.lastEdgeTs).toNat := by decide

/-- The least and the largest normal number, the largest subnormal one. -/
theorem witness_RpmWordIsBinary32Image : (1 ≤ 1 ∧ 1 ≤ 254 ∧ 0 < 2 ^ 23) ∧ (1 ≤ 254 ∧ 254 ≤ 254 ∧ 2 ^ 23 - 1 < 2 ^ 23) ∧
    rpmWord .binary32 (((2 ^ 23 + 0 : Nat) : Rat) * (2 : Rat) ^ ((1 : Int) - 150)) = 0x00800000#64 ∧
    rpmWord .binary32 (((2 ^ 23 - 1 : Nat) : Rat) * (2 : Rat) ^ (-149 : Int)) = 0x007FFFFF#64 := by decide +kernel

/-- Ties to even between the first binary32 numbers above 2^24 (the other neighbour as near), and between 0 and the least
one. -/
theorem witness_Binary32RoundsToNearest :
    ((0 : Rat) ≤ 16777217 ∧ (16777217 : Rat) < (2 : Rat) ^ 128 - (2 : Rat) ^ 103) ∧
    rnd .binary32 16777217 = 16777216 ∧ rnd .binary32 16777219 = 16777220 ∧
    |rnd .binary32 16777217 - 16777217| = |((8388609 : Nat) : Rat) * (2 : Rat) ^ (1 : Int) - 16777217| ∧
    ((8388609 : Nat) : Rat) * (2 : Rat) ^ (1 : Int) ≠ rnd .binary32 16777217 ∧
    rnd .binary32 ((2 : Rat) ^ (-150 : Int)) = 0 ∧ (8388608 < 2 ^ 24 ∧ (-149 : Int) ≤ 1 ∧ (1 : Int) ≤ 104) := by
  decide +kernel

/-- IEEE 754: the largest binary32 number is 2^128 - 2^104; from the tie at 2^128 - 2^103 on the rounding gives 2^128
(log entry 26). -/
theorem test_binary32_overflow_bound :
    rnd .binary32 ((2 : Rat) ^ 128 - (2 : Rat) ^ 103 - 1) = (2 : Rat) ^ 128 - (2 : Rat) ^ 104 ∧
    roundBinary32Magnitude ((2 : Rat) ^ 128 - (2 : Rat) ^ 103) = (2 : Rat) ^ 128 := by decide +kernel

/-- Reset has the invariant: the states of the witnesses below are reset but for one field. -/
theorem coreInv_reset : CoreInv State.reset where
  admissible := by decide +kernel
  banks a := by cases a <;> exact bankInv_reset
  feed_range := by decide +kernel
  target_range := by decide +kernel
  speed_nonneg := by decide +kernel
  unseen_speed := fun _ => rfl
  emergency_target h := by cases h
  dwell_range _ _ h := by cases h

/-- CFG_T with steps so fine that a millimetre takes two pieces, and timestamps to match. -/
def fineConfig : Config := { cfgT with stepsPerMm := 2 ^ 32, tsHz := 2 ^ 50 }

/-- Reset with that configuration. -/
def fine : State := { State.reset with cfg := fineConfig }

theorem coreInv_fine : CoreInv fine where
  admissible := by decide +kernel
  banks a := by cases a <;> exact bankInv_reset
  feed_range := by decide +kernel
  target_range := by decide +kernel
  speed_nonneg := by decide +kernel
  unseen_speed := fun _ => rfl
  emergency_target h := by cases h
  dwell_range _ _ h := by cases h

/-- Two pieces: `G1 Y1`, n = 2^32, in full pieces of 2^32-1 steps first (43_command_interpreter R252). -/
theorem test_g1_two_pieces : yields (exec (.g1 [param letterY [1]]) fine) (fun t =>
    decide (memRead 4 t.traverse 0 = ⟨0xFFFFFFFF#32, 315#32, .forward⟩ ∧
      memRead 4 t.traverse 1 = ⟨1#32, 315#32, .forward⟩ ∧ t.traverse.tail = 2)) = true := by decide +kernel

/-- Its hypotheses. -/
theorem witness_MoveReachesTarget_two_pieces : CoreInv fine ∧ fine.safety ≠ .emergencyStopped ∧
    fine.traverse.estop = false ∧ paramPresent letterX [param letterY [1]] = false ∧
    paramValue letterY [param letterY [1]] = some 1 ∧ fineConfig.travelMinMm ≤ 1 ∧ 1 ≤ fineConfig.travelMaxMm ∧
    (paramValue letterF [param letterY [1]]).getD fine.feed = 1000 ∧ (0 : Rat) < 1000 ∧ 1000 ≤ fineConfig.maxFeed ∧
    1 ≤ feedDelay fineConfig 1000 ∧ feedDelay fineConfig 1000 ≤ 2 ^ 32 - 1 ∧
    ((steps fineConfig 1 - fine.planned .traverse).natAbs : Int) ≤
      (2 ^ 32 - 1) * (fineConfig.cap - fine.depth .traverse) :=
  ⟨coreInv_fine, by decide +kernel⟩

/-- `G1 Y50 F1000` (n = 4000), `G0 Y0` (n = 0), and the travel limit. -/
theorem witness_MoveReachesTarget : CoreInv State.reset ∧ State.reset.safety ≠ .emergencyStopped ∧
    State.reset.traverse.estop = false ∧
    ∀ ps ∈ [[param letterY [5, 0], param letterF [1, 0, 0, 0]], [param letterY [0]], [param letterY [1, 0, 0]]],
      ∃ y, paramPresent letterX ps = false ∧ paramValue letterY ps = some y ∧ cfgT.travelMinMm ≤ y ∧
        y ≤ cfgT.travelMaxMm ∧ (paramValue letterF ps).getD State.reset.feed = 1000 ∧ (0 : Rat) < 1000 ∧
        1000 ≤ cfgT.maxFeed ∧ 1 ≤ feedDelay cfgT 1000 ∧ feedDelay cfgT 1000 ≤ 2 ^ 32 - 1 ∧
        ((steps cfgT y - State.reset.planned .traverse).natAbs : Int) ≤
          (2 ^ 32 - 1) * (cfgT.cap - State.reset.depth .traverse) := by
  refine ⟨coreInv_reset, by decide, by decide, ?_⟩
  simp only [List.mem_cons, List.not_mem_nil, or_false]
  rintro ps (rfl | rfl | rfl)
  · exact ⟨50, by decide +kernel⟩
  · exact ⟨0, by decide +kernel⟩
  · exact ⟨100, by decide +kernel⟩

/-- Every clause: the stop, the axis word, no Y, each bound, and a full ring with steps left to queue. -/
theorem witness_MoveRejections :
    halted.safety = .emergencyStopped ∧ paramPresent letterX [param letterX [0]] = true ∧
    paramValue letterY [param letterF [1]] = none ∧
    paramValue letterY [⟨letterY, ⟨.none, [1, 0, 0], [0, 1]⟩⟩] = some (mkRat 10001 100) ∧
    cfgT.travelMaxMm < mkRat 10001 100 ∧
    paramValue letterF [param letterF [0]] = some 0 ∧ (2 : Int) ^ 32 - 1 < feedDelay cfgT (mkRat 1 1000000) ∧
    (let s := withTraverse full
     (steps s.cfg 5 - s.planned .traverse).natAbs ≠ 0 ∧
     (s.cfg.cap : Int) - s.depth .traverse <
       ⌈((steps s.cfg 5 - s.planned .traverse).natAbs : Rat) / (2 ^ 32 - 1)⌉) := by decide +kernel

theorem witness_HomingCommandStarts : held.safety ≠ .normal ∧
    paramPresent letterX [param letterX [0]] = true ∧
    ((withTraverse { loaded with paused := true }).traverse.paused = true ∧
      (withTraverse { loaded with paused := true }).safety = .normal) ∧ State.reset.safety = .normal := by decide

/-- Every clause: below 0 and at 2^63, a dwell, a frozen sync, one that is over, one that waits. -/
theorem witness_DwellAndSyncStart :
    (numberValue ⟨.minus, [1], []⟩ < 0 ∧
      (2 : Int) ^ 63 ≤ dwellTs cfgT (mkRat 9223372036854775808 1000) ∧
      dwellTs cfgT (mkRat 9223372036854775807 1000) < (2 : Int) ^ 63) ∧
    (let s := withTraverse { loaded with paused := true }; s.traverse.active = true ∧ s.traverse.paused = true) ∧
    (State.reset.spindle.active = false ∧ State.reset.traverse.active = false) ∧
    ((withTraverse loaded).traverse.active = true ∧ (withTraverse loaded).traverse.paused = false) := by decide +kernel

/-- A dwell of 5 before and at its end, a sync before and at its end. -/
theorem witness_DwellAndSyncEnd :
    (let s := { State.reset with fg := .dwell 0#64 5, now := 5#64, sched := [.poll] }
     s.cfg.admissible = true ∧ s.sched = .poll :: [] ∧ s.fg = .dwell 0#64 5 ∧ 5 ≤ (s.now - 0#64).toNat) ∧
    ¬5 ≤ (4#64 - 0#64).toNat ∧
    (let s := { withTraverse loaded with fg := .sync, sched := [.poll] }
     s.fg = .sync ∧ ¬(s.spindle.active = false ∧ s.traverse.active = false)) := by decide +kernel

/-- Every clause; MAX_RPM itself is accepted. -/
theorem witness_SpindleCommands : held.safety ≠ .normal ∧ State.reset.safety = .normal ∧
    paramValue letterS [param letterP [1]] = none ∧ numberValue ⟨.minus, [1], []⟩ < 0 ∧
    cfgT.maxRpm < numberValue ⟨.none, [3, 0, 0, 0], [5]⟩ ∧
    ¬(numberValue ⟨.none, [3, 0, 0, 0], []⟩ < 0 ∨ cfgT.maxRpm < numberValue ⟨.none, [3, 0, 0, 0], []⟩) := by
  decide +kernel

theorem witness_FeedHoldAndResume : State.reset.safety = .normal ∧ held.safety = .feedHold ∧ halted.safety ≠ .normal := by
  decide

/-- Every clause; a speed at RPM_ZERO_EPS is stopped. -/
theorem witness_ResetFromEmergencyStop : State.reset.safety ≠ .emergencyStopped ∧ halted.safety = .emergencyStopped ∧
    cfgT.rpmZeroEps < spinning.currentRpm ∧ ¬cfgT.rpmZeroEps < 0 := by decide +kernel

theorem witness_StatusAnswers : 7 ≠ 0 ∧ 99 < 100 ∧ 100 * 0 + 10 ≠ 0 ∧
    decimalHundredths ((if true then -1 else 1) * (100 * 0 + 10 : Nat)) = ascii "-0.10" := by decide +kernel

/-- 95 section 2's conversions, the ties among them. -/
theorem witness_ConversionsRound : |((roundAway (mkRat 1 2) : Int) : Rat) - mkRat 1 2| = 1 / 2 ∧
    roundAway (mkRat 1 2) = 1 ∧ roundAway (-mkRat 1 2) = -1 ∧ steps cfgT (mkRat 6 1000) = 0 ∧
    feedDelay cfgT 6000 = 3 ∧ dwellTs cfgT (mkRat 1 10000) = 1 := by decide +kernel

theorem witness_MotionIsGated : halted.safety = .emergencyStopped := rfl

/-- A step of each transition. -/
theorem witness_SafetyTransitions :
    yields (step { State.reset with sched := [.estopReq] }) (fun t => decide (t.safety = .emergencyStopped)) = true ∧
    yields (step { State.reset with rx := ascii "M0" ++ [0x0A#8], sched := [.takeLine] }) (fun t =>
      decide (t.safety = .feedHold)) = true ∧
    yields (step { held with rx := ascii "M1" ++ [0x0A#8], sched := [.takeLine] }) (fun t =>
      decide (t.safety = .normal)) = true ∧
    yields (step { halted with rx := ascii "M999" ++ [0x0A#8], sched := [.takeLine] }) (fun t =>
      decide (t.safety = .normal)) = true := by decide +kernel

theorem witness_RejectionChangesNothing :
    yields (exec (.home .traverse) halted) (fun t =>
      decide (t.history = halted.history ++ [.rsp 0x20000000000000000#68])) = true ∧
    (0x20000000000000000#68).extractLsb' 64 4 ≠ 0#4 ∧
    yields (exec (.m1 []) State.reset) (fun t =>
      decide (t.history = State.reset.history ++ [.line (ascii "ERROR_" ++ (ascii "SAFETY_STATE" ++ [0x0A#8]))])) =
      true := by decide +kernel

/-- An emergency-stopped state, and a step of it that runs a command and keeps the flags. -/
theorem witness_SafetyInvariantsHold : let s := { halted with rx := ascii "M999" ++ [0x0A#8], sched := [.takeLine] }
    SafetyInv s ∧ touchesFlagsDirectly (.m999 []) = false ∧ yields (step s) (fun _ => true) = true ∧
    fetch s = .run (.m999 []) { halted with rx := [], sched := [] } :=
  ⟨{ emergency_stopped := fun _ a => by cases a <;> rfl
     hold_paused := fun h => by cases h
     normal_unpaused := fun h => by cases h }, rfl, by decide +kernel, rfl⟩

/-- A step of each agent. -/
theorem witness_RegisterOwnership :
    (∀ act ∈ [Action.tick, .poll, .clock 3#64, .hallEdge 9#64, .takeWord],
      yields (step { withTraverse loaded with sched := [act], hallValid := true }) (fun t => decide (t.hallValid = true))
        = true) ∧
    fetch { State.reset with sched := [.hallEdge 9#64] } = .run (.hallEdge 9#64) State.reset ∧
    (∀ ts u, fetch State.reset ≠ .run (.hallEdge ts) u) ∧ State.reset.sched.head? ≠ some (.clock 3#64) :=
  ⟨by decide +kernel, rfl, fun _ _ h => (by cases h), by decide⟩

theorem witness_StepKeepsInvariant : CoreInv State.reset ∧ yields (step State.reset) (fun _ => true) = true :=
  ⟨coreInv_reset, by decide +kernel⟩

theorem witness_ResetHasInvariant : cfgT.admissible = true := by decide +kernel

theorem witness_FirstStepsAfterReset : ({ cfgT with cap := 1, lineMax := 16 }).admissible = true := by decide +kernel

end Sys2Proof.Tests
end

section
/-!
PROOF. The flags of an axis: the fields of AXSTAT (10_state R40), the four-state view (R33), and what the Move Queue
operations and a TICK make of a bank. A TICK is described by the pulse train (40_scheduler R150): a serviced one plays
its first entry.
-/

namespace Sys2Proof.Machine

/-! ## The fields of AXSTAT (10_state R40) -/

/-- R40's layout over its fields, at the width the fields add up to. -/
def packedFlags (dir : BitVec 1) (safety : BitVec 2) (homed estop paused active : Bool) :
    BitVec (57 + 1 + 2 + 1 + 1 + 1 + 1) :=
  0#57 ++ dir ++ safety ++ BitVec.ofBool homed ++ BitVec.ofBool estop ++ BitVec.ofBool paused ++ BitVec.ofBool active

theorem axstat_eq_packedFlags (s : State) (a : Axis) :
    s.axstat a = packedFlags (dirBit (s.bank a).curDir) (safetyBits s.safety) (s.bank a).homed (s.bank a).estop
      (s.bank a).paused (s.bank a).active := rfl

/-- Each field stands at the bits R40 gives it. -/
theorem packedFlags_fields (dir : BitVec 1) (safety : BitVec 2) (homed estop paused active : Bool) :
    let w := packedFlags dir safety homed estop paused active
    w.getLsbD 0 = active ∧ w.getLsbD 1 = paused ∧ w.getLsbD 2 = estop ∧ w.getLsbD 3 = homed ∧
      w.extractLsb' 4 2 = safety ∧ w.getLsbD 6 = dir.getLsbD 0 ∧ w.extractLsb' 7 57 = 0#57 := by
  simp only [packedFlags, BitVec.getLsbD_append, BitVec.extractLsb'_append_eq_ite]
  simp

theorem dirBit_getLsbD_zero (d : Dir) : (dirBit d).getLsbD 0 = decide (d = .reverse) := by
  cases d <;> rfl

/-! ## The four-state view (10_state R33) -/

/-- The flags each view stands for, in R33's order. -/
theorem view_cases (b : AxisBank) :
    (b.view = .estopped ∧ b.estop = true) ∨ (b.view = .paused ∧ b.estop = false ∧ b.paused = true) ∨
      (b.view = .active ∧ b.estop = false ∧ b.paused = false ∧ b.active = true) ∨
      (b.view = .idle ∧ b.estop = false ∧ b.paused = false ∧ b.active = false) := by
  unfold AxisBank.view
  split
  · simp_all
  · split
    · simp_all
    · split <;> simp_all

theorem view_eq_estopped_iff {b : AxisBank} : b.view = .estopped ↔ b.estop = true := by
  obtain h | h | h | h := view_cases b <;> simp [h]

theorem view_eq_paused_iff {b : AxisBank} : b.view = .paused ↔ b.estop = false ∧ b.paused = true := by
  obtain h | h | h | h := view_cases b <;> simp [h]

theorem view_eq_active_iff {b : AxisBank} :
    b.view = .active ↔ b.estop = false ∧ b.paused = false ∧ b.active = true := by
  obtain h | h | h | h := view_cases b <;> simp [h]

theorem view_eq_idle_iff {b : AxisBank} :
    b.view = .idle ↔ b.estop = false ∧ b.paused = false ∧ b.active = false := by
  obtain h | h | h | h := view_cases b <;> simp [h]

/-- On an axis neither stopped nor paused the active bit shows through. -/
theorem view_of_running {b : AxisBank} (he : b.estop = false) (hp : b.paused = false) :
    b.view = if b.active then .active else .idle := by
  simp [AxisBank.view, he, hp]

/-! ## The bank an operation leaves (41_move_queue) -/

/-- An ENQUEUE that changes its bank is an accepted one, and makes the axis active (R170). -/
theorem exec_enqueue_bank {a : Axis} {d : Dir} {n l : BitVec 32} {s t : State}
    (h : exec (.enqueue a d n l) s = .next t) (hne : t.bank a ≠ s.bank a) :
    (t.bank a).estop = (s.bank a).estop ∧ (t.bank a).paused = (s.bank a).paused ∧ (t.bank a).active = true := by
  obtain ⟨c, -, rfl⟩ | ⟨u, hu, rfl⟩ := finish_next h
  · exact absurd (respond_bank s c _ a) hne
  · obtain ⟨-, -, -, -, -, rfl⟩ := enqueueOp_ok hu
    simp

theorem exec_pause_bank {a : Axis} {s t : State} (h : exec (.pause a) s = .next t) :
    t.bank a = { s.bank a with paused := true } := by
  cases h
  simp [pauseOp]

theorem exec_resume_bank {a : Axis} {s t : State} (h : exec (.resume a) s = .next t) :
    t.bank a = { s.bank a with paused := false } := by
  cases h
  simp [resumeOp]

theorem exec_estop_bank {a : Axis} {s t : State} (h : exec (.estop a) s = .next t) :
    t.bank a = { (s.bank a).flush with estop := true } := by
  cases h
  simp [estopOp]

theorem exec_clrEstop_bank {a : Axis} {s t : State} (h : exec (.clrEstop a) s = .next t) :
    t.bank a = { s.bank a with estop := false, paused := false } := by
  cases h
  simp [clrEstopOp]

/-! ## The bank a TICK leaves (40_scheduler R140) -/

@[simp] theorem tickAxis_cfg (a : Axis) (s : State) : (tickAxis a s).cfg = s.cfg := by
  simp [tickAxis_eq]

@[simp] theorem tickAxis_bank_same (a : Axis) (s : State) :
    (tickAxis a s).bank a = (tickBank s.cfg.cap (s.bank a)).1 := by
  cases a <;> simp [tickAxis_eq, State.bank]

theorem tickAxis_bank_ne {a c : Axis} (s : State) (h : c ≠ a) : (tickAxis a s).bank c = s.bank c := by
  cases a <;> cases c <;> simp_all [tickAxis_eq]

/-- What becomes of an axis does not depend on the other one. -/
theorem exec_tick_bank {s t : State} (h : exec .tick s = .next t) (a : Axis) :
    t.bank a = (tickBank s.cfg.cap (s.bank a)).1 := by
  cases h
  cases a
  · rw [tickAxis_bank_ne _ (by decide), tickAxis_bank_same]
  · rw [tickAxis_bank_same, tickAxis_bank_ne _ (by decide), tickAxis_cfg]

/-! ## The pulse train (40_scheduler R150) -/

theorem stepTrain_succ (n l : Nat) (d : Dir) :
    stepTrain (n + 1) l d = List.replicate (l - 1) none ++ some d :: stepTrain n l d := by
  simp [stepTrain, List.replicate_succ]

/-- At the start of a step's countdown the loaded chunk has all of its remaining steps' delays before it. -/
theorem loadedTrain_of_curCnt_eq {b : AxisBank} (h : b.curCnt = b.curDelay) :
    b.loadedTrain = stepTrain b.curRem.toNat b.curDelay.toNat b.curDir := by
  unfold AxisBank.loadedTrain
  split
  · simp [*, stepTrain]
  · have hpos : b.curRem.toNat ≠ 0 := by simpa [← BitVec.toNat_inj] using ‹b.curRem ≠ 0#32›
    obtain ⟨n, hn⟩ := Nat.exists_eq_succ_of_ne_zero hpos
    simp [hn, h, stepTrain_succ]

theorem train_ne_nil {cap : Nat} {b : AxisBank} (h : b.curRem ≠ 0#32) : b.train cap ≠ [] := by
  simp [AxisBank.train, AxisBank.loadedTrain, h]

/-- What LoadNext needs of a ring: its indices are in range and its chunks are valid (10_state R53 I2). -/
structure RingValid (cap : Nat) (b : AxisBank) : Prop where
  head_lt : b.head < 2 * cap
  tail_lt : b.tail < 2 * cap
  chunks_valid : ∀ c ∈ ringChunks cap b, c.count ≠ 0#32 ∧ c.delay ≠ 0#32

theorem BankInv.ringValid {cap : Nat} {b : AxisBank} (h : BankInv cap b) : RingValid cap b :=
  ⟨h.head_lt, h.tail_lt, h.chunks_valid⟩

/-- An axis in the middle of a chunk, able to go on with its ring after it. -/
structure Loaded (cap : Nat) (b : AxisBank) : Prop where
  ring : RingValid cap b
  active : b.active = true
  curRem_ne : b.curRem ≠ 0#32
  curCnt_ne : b.curCnt ≠ 0#32
  curDelay_ne : b.curDelay ≠ 0#32

/-- What a serviced TICK leaves: an axis that has idled with no train before it, or a loaded one. QSTOP can leave an
active axis that is neither (R174). -/
def Serviced (cap : Nat) (b : AxisBank) : Prop := (b.active = false ∧ b.train cap = []) ∨ Loaded cap b

theorem Serviced.active_iff {cap : Nat} {b : AxisBank} (h : Serviced cap b) :
    b.active = true ↔ b.train cap ≠ [] := by
  obtain ⟨ha, ht⟩ | hl := h
  · simp [ha, ht]
  · simp [hl.active, train_ne_nil hl.curRem_ne]

/-- LoadNext keeps the train: it idles an axis that has none before it, or loads the chunk it begins with. -/
theorem train_loadNext {cap : Nat} {b : AxisBank} (h : RingValid cap b) (ha : b.active = true)
    (hr : b.curRem = 0#32) : (loadNext cap b).train cap = b.train cap ∧ Serviced cap (loadNext cap b) := by
  have htrain : b.train cap = (ringChunks cap b).flatMap fun c => stepTrain c.count.toNat c.delay.toNat c.dir := by
    simp [AxisBank.train, AxisBank.loadedTrain, hr]
  obtain ⟨hd, hl⟩ | ⟨hd, hl⟩ := loadNext_of_valid h.head_lt h.tail_lt h.chunks_valid
  · have hsame : (loadNext cap b).train cap = b.train cap := by rw [hl]; rfl
    exact ⟨hsame, .inl ⟨by rw [hl], by simp [hsame, htrain, ringChunks_of_empty hd]⟩⟩
  · have hhead : (loadNext cap b).head = (b.head + 1) % (2 * cap) := by rw [hl]
    have htail : (loadNext cap b).tail = b.tail := by rw [hl]
    have hring := ringChunks_head_succ h.head_lt h.tail_lt hd (by rw [hl]) hhead htail
    have hvalid := h.chunks_valid
    rw [hring] at hvalid
    obtain ⟨hcount, hdelay⟩ := hvalid _ List.mem_cons_self
    constructor
    · rw [htrain, hring, AxisBank.train, loadedTrain_of_curCnt_eq (by rw [hl]), List.flatMap_cons]
      rw [hl]
    · have hrest : RingValid cap (loadNext cap b) :=
        ⟨(depth_head_succ h.head_lt h.tail_lt hd hhead htail).1, htail ▸ h.tail_lt,
          fun c hc => hvalid c (List.mem_cons_of_mem _ hc)⟩
      exact .inr ⟨hrest, by simp [hl, ha], by simp [hl, hcount], by simp [hl, hdelay], by simp [hl, hdelay]⟩

/-- The reload that opens the service of an axis (R141) and closes a chunk (R143). -/
def refill (cap : Nat) (b : AxisBank) : AxisBank := if b.curRem = 0#32 then loadNext cap b else b

theorem emitStep_eq_refill (cap : Nat) (b : AxisBank) :
    emitStep cap b = refill cap { b with
      pos := b.pos + (match b.curDir with | .forward => 1#64 | .reverse => -1#64)
      curRem := b.curRem - 1#32
      curCnt := b.curDelay } := rfl

theorem tickBank_of_eligible {cap : Nat} {b : AxisBank} (h : b.eligible = true) :
    tickBank cap b = if (refill cap b).active then countdown cap (refill cap b) else (refill cap b, none) := by
  rw [tickBank, if_pos h]
  rfl

theorem train_refill {cap : Nat} {b : AxisBank} (h : RingValid cap b) (ha : b.active = true)
    (hl : b.curRem ≠ 0#32 → b.curCnt ≠ 0#32 ∧ b.curDelay ≠ 0#32) :
    (refill cap b).train cap = b.train cap ∧ Serviced cap (refill cap b) := by
  unfold refill
  split
  · exact train_loadNext h ha ‹_›
  · obtain ⟨hcnt, hdelay⟩ := hl ‹_›
    exact ⟨rfl, .inr ⟨h, ha, ‹_›, hcnt, hdelay⟩⟩

/-- A step taken leaves the rest of its chunk and the ring's chunks, from the start of a countdown (R143). -/
theorem train_emitStep {cap : Nat} {b : AxisBank} (h : RingValid cap b) (ha : b.active = true)
    (hd : b.curDelay ≠ 0#32) :
    (emitStep cap b).train cap = stepTrain (b.curRem - 1#32).toNat b.curDelay.toNat b.curDir ++
        (ringChunks cap b).flatMap (fun c => stepTrain c.count.toNat c.delay.toNat c.dir) ∧
      Serviced cap (emitStep cap b) := by
  rw [emitStep_eq_refill]
  refine And.imp_left (fun htrain => htrain.trans ?rest)
    (train_refill ⟨h.head_lt, h.tail_lt, h.chunks_valid⟩ ha fun _ => ⟨hd, hd⟩)
  rw [AxisBank.train, loadedTrain_of_curCnt_eq rfl]
  rfl

/-- The countdown of a loaded axis plays the first entry of its train (R142, R143). -/
theorem train_countdown {cap : Nat} {b : AxisBank} (h : Loaded cap b) :
    b.train cap = (countdown cap b).2 :: (countdown cap b).1.train cap ∧ Serviced cap (countdown cap b).1 := by
  have hring : RingValid cap { b with curCnt := b.curCnt - 1#32 } :=
    ⟨h.ring.head_lt, h.ring.tail_lt, h.ring.chunks_valid⟩
  have hcnt := h.curCnt_ne
  have hrem := h.curRem_ne
  unfold countdown
  dsimp only
  split
  · rename_i hzero
    have hone : b.curCnt.toNat - 1 = 0 := by bv_omega
    have hless : (b.curRem - 1#32).toNat = b.curRem.toNat - 1 := by bv_omega
    obtain ⟨htrain, hserviced⟩ := train_emitStep hring h.active h.curDelay_ne
    refine ⟨?_, hserviced⟩
    rw [htrain, AxisBank.train, AxisBank.loadedTrain, if_neg hrem, hone, hless]
    rfl
  · rename_i hmore
    obtain ⟨k, hk⟩ : ∃ k, b.curCnt.toNat - 1 = k + 1 := ⟨b.curCnt.toNat - 2, by bv_omega⟩
    have hless : (b.curCnt - 1#32).toNat - 1 = k := by bv_omega
    refine ⟨?_, .inr ⟨hring, h.active, hrem, hmore, h.curDelay_ne⟩⟩
    simp only [AxisBank.train, AxisBank.loadedTrain, if_neg hrem, hk, hless]
    rfl

/-- A serviced TICK plays the first entry of the train, if there is one (R140, R150). -/
theorem train_tickBank {cap : Nat} {b : AxisBank} (hi : BankInv cap b) (he : b.eligible = true) :
    (tickBank cap b).1.train cap = (b.train cap).tail ∧ Serviced cap (tickBank cap b).1 := by
  have ha : b.active = true := by simp_all [AxisBank.eligible]
  have hl : b.curRem ≠ 0#32 → b.curCnt ≠ 0#32 ∧ b.curDelay ≠ 0#32 := fun hr => by
    obtain ⟨hpos, hle, -⟩ := hi.loaded hr
    exact ⟨by bv_omega, by bv_omega⟩
  obtain ⟨htrain, hserviced⟩ := train_refill hi.ringValid ha hl
  rw [tickBank_of_eligible he, ← htrain]
  obtain ⟨hidle, hnil⟩ | hloaded := hserviced
  · simp [Serviced, hidle, hnil]
  · obtain ⟨hplay, hafter⟩ := train_countdown hloaded
    rw [if_pos hloaded.active, hplay]
    exact ⟨rfl, hafter⟩

/-- A serviced axis stays active as long as its train goes on (R33, R146). -/
theorem tickBank_active_iff {cap : Nat} {b : AxisBank} (hi : BankInv cap b) (he : b.eligible = true) :
    (tickBank cap b).1.active = true ↔ 1 < (b.train cap).length := by
  obtain ⟨htrain, hserviced⟩ := train_tickBank hi he
  rw [hserviced.active_iff, htrain, ← List.length_pos_iff, List.length_tail]
  omega

end Sys2Proof.Machine

namespace Sys2Proof.Proofs

open Sys2Proof.Machine

/-- Settles O21: R40 packs the fields side by side, and each is read back from its own place. -/
theorem axstatBits : Obligations.AxstatBits := by
  intro s a
  obtain ⟨hactive, hpaused, hestop, hhomed, hsafety, hdir, hhigh⟩ :=
    packedFlags_fields (dirBit (s.bank a).curDir) (safetyBits s.safety) (s.bank a).homed (s.bank a).estop
      (s.bank a).paused (s.bank a).active
  rw [axstat_eq_packedFlags]
  refine ⟨hactive, hpaused, hestop, hhomed, hsafety.trans ?_, hdir.trans (dirBit_getLsbD_zero _), hhigh⟩
  cases s.safety <;> rfl

/-- Settles O22: each operation's writes to the bank, read through the view; the TICK by the train it plays. -/
theorem axisViewTransitions : Obligations.AxisViewTransitions := by
  intro s a hi
  refine ⟨rfl, ?enqueueIdle, ?enqueuePaused, ?pause, ?resume, ?estop, ?clrEstop, ?tick⟩
  case enqueueIdle =>
    intro d n l t hv h hne
    obtain ⟨hestop, hpaused, -⟩ := view_eq_idle_iff.1 hv
    obtain ⟨he, hp, ha⟩ := exec_enqueue_bank h hne
    exact view_eq_active_iff.2 ⟨he.trans hestop, hp.trans hpaused, ha⟩
  case enqueuePaused =>
    intro d n l t hv h hne
    obtain ⟨hestop, hpaused⟩ := view_eq_paused_iff.1 hv
    obtain ⟨he, hp, ha⟩ := exec_enqueue_bank h hne
    exact ⟨view_eq_paused_iff.2 ⟨he.trans hestop, hp.trans hpaused⟩, ha⟩
  case pause =>
    intro t hv h
    have hestop : (s.bank a).estop = false := hv.elim (view_eq_idle_iff.1 · |>.1) (view_eq_active_iff.1 · |>.1)
    rw [exec_pause_bank h]
    exact ⟨view_eq_paused_iff.2 ⟨hestop, rfl⟩, rfl⟩
  case resume =>
    intro t hv h
    rw [exec_resume_bank h]
    exact view_of_running (view_eq_paused_iff.1 hv).1 rfl
  case estop =>
    intro t h
    rw [exec_estop_bank h]
    exact view_eq_estopped_iff.2 rfl
  case clrEstop =>
    intro t hv h
    rw [exec_clrEstop_bank h]
    exact view_eq_idle_iff.2 ⟨rfl, rfl, hi.stopped_idle (view_eq_estopped_iff.1 hv)⟩
  case tick =>
    intro t hv h
    obtain ⟨hestop, hpaused, hactive⟩ := view_eq_active_iff.1 hv
    obtain ⟨-, -, -, hp, he⟩ := tickBank_frame s.cfg.cap (s.bank a)
    have heligible : (s.bank a).eligible = true := by simp [AxisBank.eligible, hactive, hpaused, hestop]
    rw [exec_tick_bank h, view_of_running (he.trans hestop) (hp.trans hpaused)]
    exact if_congr (tickBank_active_iff hi heligible) rfl rfl

end Sys2Proof.Proofs
end

section
/-!
PROOF. The bits of an operation word (30_encoding R101 to R106, R116): its fields, what each op code makes of them, and
which words the command port refuses.
-/

namespace Sys2Proof.Machine

/-! ## Fields and enumerations (30_encoding R101, R105) -/

/-- The fields of a word at the width they add up to. -/
theorem append_fields (op : BitVec 4) (x d : BitVec 1) (r : BitVec 2) (n l : BitVec 32) :
    let w : BitVec (4 + 1 + 1 + 2 + 32 + 32) := op ++ x ++ d ++ r ++ n ++ l
    w.extractLsb' 68 4 = op ∧ w.extractLsb' 67 1 = x ∧ w.extractLsb' 66 1 = d ∧ w.extractLsb' 64 2 = r ∧
      w.extractLsb' 32 32 = n ∧ w.extractLsb' 0 32 = l := by
  simp only [BitVec.extractLsb'_append_eq_ite]
  simp

theorem packWord_fields (op : BitVec 4) (x d : BitVec 1) (n l : BitVec 32) :
    let w := packWord op x d n l
    opField w = op ∧ axisField w = x ∧ dirField w = d ∧ rsvField w = 0#2 ∧ arg0Field w = n ∧ arg1Field w = l :=
  append_fields op x d 0#2 n l

/-- The fields of a slot record (R106) at the width they add up to. -/
theorem slotRecord_append_fields (d : BitVec 1) (n l : BitVec 32) :
    let r : BitVec (1 + 32 + 32) := d ++ n ++ l
    r.extractLsb' 64 1 = d ∧ r.extractLsb' 32 32 = n ∧ r.extractLsb' 0 32 = l := by
  simp only [BitVec.extractLsb'_append_eq_ite]
  simp

theorem timestamp_append_fields (n l : BitVec 32) :
    let ts : BitVec (32 + 32) := n ++ l
    ts.extractLsb' 32 32 = n ∧ ts.extractLsb' 0 32 = l := by
  simp only [BitVec.extractLsb'_append_eq_ite]
  simp

@[simp] theorem axisOfBit_axisBit (a : Axis) : axisOfBit (axisBit a) = a := by
  cases a <;> rfl

@[simp] theorem dirOfBit_dirBit (d : Dir) : dirOfBit (dirBit d) = d := by
  cases d <;> rfl

@[simp] theorem dirBit_dirOfBit (b : BitVec 1) : dirBit (dirOfBit b) = b := by
  obtain rfl | rfl := b.eq_zero_or_eq_one <;> rfl

/-! ## What each op code decodes to (30_encoding R102, R103) -/

theorem axisOnly_ok {w : OpWord} {f : Axis → Instr} {i : Instr} (h : axisOnly w f = .ok i) :
    i = f (axisOfBit (axisField w)) := by
  unfold axisOnly at h
  split at h <;> cases h
  rfl

theorem noOperand_ok {w : OpWord} {i j : Instr} (h : noOperand w i = .ok j) : j = i := by
  unfold noOperand at h
  split at h <;> cases h
  rfl

/-- The operations R102 marks 'axis only'. -/
def axisOps : List (BitVec 4 × (Axis → Instr)) :=
  [(0x2#4, .pause), (0x3#4, .resume), (0x4#4, .estop), (0x5#4, .home), (0x6#4, .isActive), (0x7#4, .queueDepth),
    (0x8#4, .position), (0xA#4, .qstop), (0xB#4, .clrEstop), (0xC#4, .rdState)]

/-- The operations R102 gives no operand. -/
def plainOps : List (BitVec 4 × Instr) := [(0x9#4, .getRpm), (0xD#4, .estopAll)]

/-- What a word is to the decoder: R102's rows by the form of their operands, and the words that are in no row. -/
inductive WordForm (w : OpWord) : Prop
  | reserved (hrsv : rsvField w ≠ 0#2) (hdec : decodeWord w = .error .illegalWord)
  | noOp (hrsv : rsvField w = 0#2) (hop : opField w = 0x0#4) (hdec : decodeWord w = .error .illegalWord)
  | enqueue (hrsv : rsvField w = 0#2) (hop : opField w = 0x1#4)
      (hdec : decodeWord w =
        .ok (.enqueue (axisOfBit (axisField w)) (dirOfBit (dirField w)) (arg0Field w) (arg1Field w)))
  | axisOp (op : BitVec 4) (f : Axis → Instr) (hmem : (op, f) ∈ axisOps) (hrsv : rsvField w = 0#2)
      (hop : opField w = op) (hdec : decodeWord w = axisOnly w f)
  | plainOp (op : BitVec 4) (i : Instr) (hmem : (op, i) ∈ plainOps) (hrsv : rsvField w = 0#2) (hop : opField w = op)
      (hdec : decodeWord w = noOperand w i)
  | tick (hrsv : rsvField w = 0#2) (hop : opField w = 0xE#4) (hdec : decodeWord w = noOperand w .tick)
  | hallEdge (hrsv : rsvField w = 0#2) (hop : opField w = 0xF#4)
      (hdec : decodeWord w = if axisField w = 0#1 ∧ dirField w = 0#1 then .ok (.hallEdge (arg0Field w ++ arg1Field w))
        else .error .illegalWord)

theorem opCode_cases : ∀ op : BitVec 4, op = 0x0#4 ∨ op = 0x1#4 ∨ op ∈ axisOps.map Prod.fst ∨
    op ∈ plainOps.map Prod.fst ∨ op = 0xE#4 ∨ op = 0xF#4 := by
  decide

theorem decodeWord_axisOp {w : OpWord} {p : BitVec 4 × (Axis → Instr)} (hmem : p ∈ axisOps) (hrsv : rsvField w = 0#2)
    (hop : opField w = p.1) : decodeWord w = axisOnly w p.2 := by
  simp only [axisOps, List.mem_cons, List.not_mem_nil, or_false] at hmem
  obtain rfl | rfl | rfl | rfl | rfl | rfl | rfl | rfl | rfl | rfl := hmem <;> simp [decodeWord, hrsv, hop]

theorem decodeWord_plainOp {w : OpWord} {p : BitVec 4 × Instr} (hmem : p ∈ plainOps) (hrsv : rsvField w = 0#2)
    (hop : opField w = p.1) : decodeWord w = noOperand w p.2 := by
  simp only [plainOps, List.mem_cons, List.not_mem_nil, or_false] at hmem
  obtain rfl | rfl := hmem <;> simp [decodeWord, hrsv, hop]

theorem wordForm (w : OpWord) : WordForm w := by
  by_cases hrsv : rsvField w = 0#2
  case neg => exact .reserved hrsv (if_pos hrsv)
  obtain hop | hop | hop | hop | hop | hop := opCode_cases (opField w)
  · exact .noOp hrsv hop (by simp [decodeWord, hrsv, hop])
  · exact .enqueue hrsv hop (by simp [decodeWord, hrsv, hop])
  · obtain ⟨p, hmem, hp⟩ := List.mem_map.1 hop
    exact .axisOp p.1 p.2 hmem hrsv hp.symm (decodeWord_axisOp hmem hrsv hp.symm)
  · obtain ⟨p, hmem, hp⟩ := List.mem_map.1 hop
    exact .plainOp p.1 p.2 hmem hrsv hp.symm (decodeWord_plainOp hmem hrsv hp.symm)
  · exact .tick hrsv hop (by simp [decodeWord, hrsv, hop])
  · exact .hallEdge hrsv hop (by simp [decodeWord, hrsv, hop])

/-- No 'axis only' operation has operands, and none is an event. -/
theorem axisOp_operandless {op : BitVec 4} {f : Axis → Instr} (hmem : (op, f) ∈ axisOps) (a : Axis) :
    (f a).isEvent = false ∧ ∀ b d n l, f a ≠ .enqueue b d n l := by
  simp only [axisOps, List.mem_cons, List.not_mem_nil, or_false, Prod.mk.injEq] at hmem
  obtain ⟨-, rfl⟩ | ⟨-, rfl⟩ | ⟨-, rfl⟩ | ⟨-, rfl⟩ | ⟨-, rfl⟩ | ⟨-, rfl⟩ | ⟨-, rfl⟩ | ⟨-, rfl⟩ | ⟨-, rfl⟩ |
    ⟨-, rfl⟩ := hmem <;> exact ⟨rfl, nofun⟩

theorem plainOp_operandless {op : BitVec 4} {i : Instr} (hmem : (op, i) ∈ plainOps) :
    i.isEvent = false ∧ ∀ b d n l, i ≠ .enqueue b d n l := by
  simp only [plainOps, List.mem_cons, List.not_mem_nil, or_false, Prod.mk.injEq] at hmem
  obtain ⟨-, rfl⟩ | ⟨-, rfl⟩ := hmem <;> exact ⟨rfl, nofun⟩

/-- Only op code 1 gives an ENQUEUE, with the operands of R101. -/
theorem decodeWord_enqueue {w : OpWord} {a : Axis} {d : Dir} {n l : BitVec 32}
    (h : decodeWord w = .ok (.enqueue a d n l)) :
    d = dirOfBit (dirField w) ∧ n = arg0Field w ∧ l = arg1Field w := by
  cases wordForm w with
  | reserved hrsv hdec => cases hdec.symm.trans h
  | noOp hrsv hop hdec => cases hdec.symm.trans h
  | enqueue hrsv hop hdec =>
    cases hdec.symm.trans h
    exact ⟨rfl, rfl, rfl⟩
  | axisOp op f hmem hrsv hop hdec =>
    exact absurd (axisOnly_ok (hdec.symm.trans h)).symm ((axisOp_operandless hmem _).2 a d n l)
  | plainOp op i hmem hrsv hop hdec =>
    exact absurd (noOperand_ok (hdec.symm.trans h)).symm ((plainOp_operandless hmem).2 a d n l)
  | tick hrsv hop hdec => cases noOperand_ok (hdec.symm.trans h)
  | hallEdge hrsv hop hdec =>
    rw [hdec] at h
    split at h <;> cases h

/-- Only op code 15 gives a HALL_EDGE, with the timestamp of R116. -/
theorem decodeWord_hallEdge {w : OpWord} {ts : BitVec 64} (h : decodeWord w = .ok (.hallEdge ts)) :
    ts = arg0Field w ++ arg1Field w := by
  cases wordForm w with
  | reserved hrsv hdec => cases hdec.symm.trans h
  | noOp hrsv hop hdec => cases hdec.symm.trans h
  | enqueue hrsv hop hdec => cases hdec.symm.trans h
  | axisOp op f hmem hrsv hop hdec =>
    cases (congrArg Instr.isEvent (axisOnly_ok (hdec.symm.trans h))).trans (axisOp_operandless hmem _).1
  | plainOp op i hmem hrsv hop hdec =>
    cases (congrArg Instr.isEvent (noOperand_ok (hdec.symm.trans h))).trans (plainOp_operandless hmem).1
  | tick hrsv hop hdec => cases noOperand_ok (hdec.symm.trans h)
  | hallEdge hrsv hop hdec =>
    rw [hdec] at h
    split at h <;> cases h
    rfl

/-! ## The command port (30_encoding R103) -/

theorem decodePort_of_error {w : OpWord} {r : Reject} (h : decodeWord w = .error r) : decodePort w = .error r := by
  simp [decodePort, h]

theorem decodePort_of_operation {w : OpWord} {i : Instr} (h : decodeWord w = .ok i) (hi : i.isEvent = false) :
    decodePort w = .ok i := by
  simp [decodePort, h, hi]

theorem decodePort_of_event {w : OpWord} {i : Instr} (h : decodeWord w = .ok i) (hi : i.isEvent = true) :
    decodePort w = .error .illegalWord := by
  simp [decodePort, h, hi]

/-- R103's illegal words: op code 0, a reserved bit, an event, an unused field that is not zero. -/
def IllegalOnPort (w : OpWord) : Prop :=
  opField w = 0x0#4 ∨ rsvField w ≠ 0#2 ∨ opField w = 0xE#4 ∨ opField w = 0xF#4 ∨
    (opField w ≠ 0x1#4 ∧ (dirField w ≠ 0#1 ∨ arg0Field w ≠ 0#32 ∨ arg1Field w ≠ 0#32)) ∨
    ((opField w = 0x9#4 ∨ opField w = 0xD#4) ∧ axisField w ≠ 0#1)

theorem axisOps_opCode : ∀ op ∈ axisOps.map Prod.fst,
    op ≠ 0x0#4 ∧ op ≠ 0x1#4 ∧ op ≠ 0x9#4 ∧ op ≠ 0xD#4 ∧ op ≠ 0xE#4 ∧ op ≠ 0xF#4 := by
  decide

theorem plainOps_opCode : ∀ op ∈ plainOps.map Prod.fst,
    op ≠ 0x0#4 ∧ op ≠ 0x1#4 ∧ (op = 0x9#4 ∨ op = 0xD#4) ∧ op ≠ 0xE#4 ∧ op ≠ 0xF#4 := by
  decide

/-- What is left of R103 for a word of an 'axis only' operation. -/
theorem illegalOnPort_axisOp {w : OpWord} {f : Axis → Instr} (hmem : (opField w, f) ∈ axisOps)
    (hrsv : rsvField w = 0#2) :
    IllegalOnPort w ↔ ¬(dirField w = 0#1 ∧ arg0Field w = 0#32 ∧ arg1Field w = 0#32) := by
  obtain ⟨h0, h1, h9, hd, he, hf⟩ := axisOps_opCode (opField w) (List.mem_map_of_mem hmem)
  rw [not_and_or, not_and_or]
  simp [IllegalOnPort, hrsv, h0, h1, h9, hd, he, hf]

/-- What is left of R103 for a word of an operation without operands. -/
theorem illegalOnPort_plainOp {w : OpWord} {i : Instr} (hmem : (opField w, i) ∈ plainOps) (hrsv : rsvField w = 0#2) :
    IllegalOnPort w ↔ ¬(axisField w = 0#1 ∧ dirField w = 0#1 ∧ arg0Field w = 0#32 ∧ arg1Field w = 0#32) := by
  obtain ⟨h0, h1, hop, he, hf⟩ := plainOps_opCode (opField w) (List.mem_map_of_mem hmem)
  rw [not_and_or, or_comm, not_and_or, not_and_or]
  simp [IllegalOnPort, hrsv, h0, h1, hop, he, hf]

/-- The port withholds only the two events: any other operation's word it answers as the decoder does. -/
theorem decodePort_axisOp {w : OpWord} {f : Axis → Instr} (hf : ∀ a, (f a).isEvent = false)
    (hdec : decodeWord w = axisOnly w f) : decodePort w = axisOnly w f := by
  by_cases h : dirField w = 0#1 ∧ arg0Field w = 0#32 ∧ arg1Field w = 0#32
  · rw [axisOnly, if_pos h] at hdec ⊢
    exact decodePort_of_operation hdec (hf _)
  · rw [axisOnly, if_neg h] at hdec ⊢
    exact decodePort_of_error hdec

theorem decodePort_plainOp {w : OpWord} {i : Instr} (hi : i.isEvent = false) (hdec : decodeWord w = noOperand w i) :
    decodePort w = noOperand w i := by
  by_cases h : axisField w = 0#1 ∧ dirField w = 0#1 ∧ arg0Field w = 0#32 ∧ arg1Field w = 0#32
  · rw [noOperand, if_pos h] at hdec ⊢
    exact decodePort_of_operation hdec hi
  · rw [noOperand, if_neg h] at hdec ⊢
    exact decodePort_of_error hdec

/-- An event's word is refused whatever its fields are. -/
theorem decodePort_event {w : OpWord} {i : Instr} {c : Prop} [Decidable c] (hi : i.isEvent = true)
    (hdec : decodeWord w = if c then .ok i else .error .illegalWord) : decodePort w = .error .illegalWord := by
  split at hdec
  · exact decodePort_of_event hdec hi
  · exact decodePort_of_error hdec

/-- The command port refuses R103's illegal words and decodes every other. -/
theorem decodePort_cases (w : OpWord) :
    (IllegalOnPort w ∧ decodePort w = .error .illegalWord) ∨ (¬IllegalOnPort w ∧ ∃ i, decodePort w = .ok i) := by
  cases wordForm w with
  | reserved hrsv hdec => exact .inl ⟨.inr (.inl hrsv), decodePort_of_error hdec⟩
  | noOp hrsv hop hdec => exact .inl ⟨.inl hop, decodePort_of_error hdec⟩
  | enqueue hrsv hop hdec =>
    exact .inr ⟨by simp [IllegalOnPort, hrsv, hop], _, decodePort_of_operation hdec rfl⟩
  | axisOp op f hmem hrsv hop hdec =>
    subst hop
    rw [illegalOnPort_axisOp hmem hrsv, decodePort_axisOp (fun a => (axisOp_operandless hmem a).1) hdec, axisOnly]
    split
    · exact .inr ⟨not_not.2 ‹_›, _, rfl⟩
    · exact .inl ⟨‹_›, rfl⟩
  | plainOp op i hmem hrsv hop hdec =>
    subst hop
    rw [illegalOnPort_plainOp hmem hrsv, decodePort_plainOp (plainOp_operandless hmem).1 hdec, noOperand]
    split
    · exact .inr ⟨not_not.2 ‹_›, _, rfl⟩
    · exact .inl ⟨‹_›, rfl⟩
  | tick hrsv hop hdec => exact .inl ⟨.inr (.inr (.inl hop)), decodePort_event (i := .tick) rfl hdec⟩
  | hallEdge hrsv hop hdec => exact .inl ⟨.inr (.inr (.inr (.inl hop))), decodePort_event rfl hdec⟩

/-- ENQUEUE's fields are all used, so every word of op code 1 with rsv 0 decodes (R103). -/
theorem decodePort_packWord_enqueue (a : Axis) (d : Dir) (n l : BitVec 32) :
    decodePort (packWord 0x1#4 (axisBit a) (dirBit d) n l) = .ok (.enqueue a d n l) := by
  obtain ⟨hop, haxis, hdir, hrsv, harg0, harg1⟩ := packWord_fields 0x1#4 (axisBit a) (dirBit d) n l
  refine decodePort_of_operation ?_ rfl
  simp [decodeWord, hop, haxis, hdir, hrsv, harg0, harg1]

/-- A word the port refuses is taken and answered, and that is the whole step (60_exceptions R305). -/
theorem step_takeWord_refused {s : State} {rest : List Action} {w : OpWord} {ws : List OpWord} {r : Reject}
    (hcfg : s.cfg.admissible = true) (hfg : s.fg = .idle) (hsched : s.sched = .takeWord :: rest)
    (hport : s.opPort = w :: ws) (hdec : decodePort w = .error r) :
    step s = .next (respond .illegalOp 0#64 { s with sched := rest, opPort := ws }) := by
  simp [step, fetch, fetchWord, hcfg, hfg, hsched, hport, hdec]

/-- An ENQUEUE without steps or without delay raises ERR_INVALID_CHUNK (41_move_queue R170). -/
theorem enqueueOp_invalidChunk {a : Axis} {d : Dir} {n l : BitVec 32} {s : State} (hsafe : s.safety ≠ .emergencyStopped)
    (hestop : (s.bank a).estop = false) (h : n = 0#32 ∨ l = 0#32) : enqueueOp a d n l s = .error .invalidChunk := by
  simp [enqueueOp, hsafe, hestop, h]

theorem onlyAnswers_enqueue_of_error {a : Axis} {d : Dir} {n l : BitVec 32} {s : State} {c : ResultCode}
    (h : enqueueOp a d n l s = .error c) : OnlyAnswers (.enqueue a d n l) s (rspWord c 0#64) :=
  congrArg (finish s) h

end Sys2Proof.Machine

namespace Sys2Proof.Proofs

open Sys2Proof.Machine

/-- Settles O4: the words of each row of R102, held against R103's list. -/
theorem illegalWordsAreRefused : Obligations.IllegalWordsAreRefused := by
  refine ⟨fun w => ?_, fun a d n l s hzero => ⟨decodePort_packWord_enqueue a d n l, fun hsafe hestop => ?_⟩⟩
  · have hrefused (h : IllegalOnPort w) : decodePort w = .error .illegalWord :=
      (decodePort_cases w).elim And.right fun hlegal => absurd h hlegal.1
    have hdecoded (h : ¬IllegalOnPort w) : ∃ i, decodePort w = .ok i :=
      (decodePort_cases w).elim (fun hillegal => absurd hillegal.1 h) And.right
    exact ⟨hrefused, hdecoded, fun s rest ws hcfg hfg hsched hport hillegal =>
      step_takeWord_refused hcfg hfg hsched hport (hrefused hillegal)⟩
  · exact onlyAnswers_enqueue_of_error (enqueueOp_invalidChunk hsafe hestop hzero)

/-- Settles O5: the operands a decoded HALL_EDGE or ENQUEUE carries are the argument fields of its word. -/
theorem operandFieldsOfWord : Obligations.OperandFieldsOfWord := by
  refine fun w => ⟨fun ts h => ?_, fun a d count delay h => ?_⟩
  · rw [decodeWord_hallEdge h]
    exact timestamp_append_fields (arg0Field w) (arg1Field w)
  · obtain ⟨-, hcount, hdelay⟩ := decodeWord_enqueue h
    exact ⟨hcount, hdelay⟩

/-- Settles O7: R106 packs the fields of a record side by side, and ENQUEUE's word holds those same fields. -/
theorem slotRecordLayout : Obligations.SlotRecordLayout := by
  refine ⟨fun c => slotRecord_append_fields (dirBit c.dir) c.count c.delay, fun w a d count delay h => ?_⟩
  obtain ⟨rfl, rfl, rfl⟩ := decodeWord_enqueue h
  simp only [slotRecord, dirBit_dirOfBit]
  rfl

end Sys2Proof.Proofs
end

section
/-!
PROOF. The numbers of Layer 2: rounding and the conversions (00_scope R9, 30_encoding R113 to R115), and the decimal
forms of the STATUS line (R118).
-/

namespace Sys2Proof.Machine

/-! ## Rounding (00_scope R9) -/

theorem roundAway_of_nonneg {q : Rat} (h : 0 ≤ q) : roundAway q = (q + 1 / 2).floor := by
  rw [roundAway, if_pos h, Rat.mkRat_eq_div, Int.cast_one, Nat.cast_ofNat]

/-- Ties go away from zero on both sides of it, so rounding commutes with the sign. -/
theorem roundAway_neg (q : Rat) : roundAway (-q) = -roundAway q := by
  obtain h | rfl | h := lt_trichotomy q 0
  · simp [roundAway, h.le, h.not_ge]
  · decide +kernel
  · simp [roundAway, h.le, h.not_ge]

/-- `n` is a nearest integer of `q`, and the one further from zero of two. -/
def IsRounding (q : Rat) (n : Int) : Prop := |(n : Rat) - q| ≤ 1 / 2 ∧ (|(n : Rat) - q| = 1 / 2 → |q| < |(n : Rat)|)

theorem isRounding_neg {q : Rat} {n : Int} : IsRounding (-q) (-n) ↔ IsRounding q n := by
  have hdist : |-(n : Rat) - -q| = |(n : Rat) - q| := by rw [← neg_sub', abs_neg]
  simp only [IsRounding, Int.cast_neg, hdist, abs_neg]

theorem isRounding_roundAway_of_nonneg {q : Rat} (h : 0 ≤ q) : IsRounding q (roundAway q) := by
  have hle : (roundAway q : Rat) ≤ q + 1 / 2 := roundAway_of_nonneg h ▸ Rat.floor_le _
  have hlt : q + 1 / 2 < (roundAway q : Rat) + 1 := by
    rw [roundAway_of_nonneg h]
    exact_mod_cast Rat.lt_floor_add_one (q + 1 / 2)
  refine ⟨abs_le.2 ⟨by linarith, by linarith⟩, fun htie => ?_⟩
  have habove : (roundAway q : Rat) = q + 1 / 2 := by
    obtain hd | hd := (abs_eq (by norm_num)).1 htie <;> linarith
  rw [abs_of_nonneg h, habove, abs_of_nonneg (by linarith)]
  linarith

theorem isRounding_roundAway (q : Rat) : IsRounding q (roundAway q) := by
  obtain h | h := le_total 0 q
  · exact isRounding_roundAway_of_nonneg h
  · have hneg := isRounding_roundAway_of_nonneg (neg_nonneg.2 h)
    rwa [roundAway_neg, isRounding_neg] at hneg

/-! ## Decimal numbers (30_encoding R118) -/

/-- The byte of a decimal digit. -/
def digitCode (d : Nat) : Byte := BitVec.ofNat 8 (0x30 + d)

theorem digitCode_toNat {d : Nat} (h : d < 10) : (digitCode d).toNat = 0x30 + d := by
  simp [digitCode]
  omega

theorem digitChar_code {d : Nat} (h : d < 10) : BitVec.ofNat 8 (Nat.digitChar d).toNat = digitCode d := by
  rw [Nat.toNat_digitChar_of_lt_ten h]
  rfl

theorem decimal_digit {d : Nat} (h : d < 10) : decimal d = [digitCode d] := by
  simp [decimal, Nat.toDigits_of_lt_base h, digitChar_code h]

theorem decimal_append_digit {m d : Nat} (hm : 0 < m) (hd : d < 10) :
    decimal (10 * m + d) = decimal m ++ [digitCode d] := by
  rw [← decimal_digit hd, decimal, ← Nat.toDigits_append_toDigits (by decide) hm hd, List.map_append]
  rfl

/-- Every number is a digit, or a positive number with a digit put behind it. -/
theorem decimal_induction {P : Nat → Prop} (digit : ∀ d < 10, P d)
    (append : ∀ m d, 0 < m → d < 10 → P m → P (10 * m + d)) (n : Nat) : P n := by
  induction n using Nat.strong_induction_on with
  | h n ih =>
    by_cases hn : n < 10
    · exact digit n hn
    · rw [← Nat.div_add_mod n 10]
      exact append (n / 10) (n % 10) (by omega) (by omega) (ih (n / 10) (by omega))

theorem decimal_ne_nil (n : Nat) : decimal n ≠ [] := by
  simp [decimal, Nat.toDigits_ne_nil]

theorem digitCode_ne_zero {d : Nat} (h : d < 10) (hne : d ≠ 0) : digitCode d ≠ 0x30#8 := fun hzero => by
  have hcode := digitCode_toNat h
  rw [hzero, BitVec.toNat_ofNat] at hcode
  omega

theorem decimal_head_ne_zero {n : Nat} : n ≠ 0 → (decimal n).head? ≠ some 0x30#8 := by
  induction n using decimal_induction with
  | digit d hd =>
    intro hne
    simpa [decimal_digit hd] using digitCode_ne_zero hd hne
  | append m d hm hd ih =>
    intro _
    rw [decimal_append_digit hm hd, List.head?_append_of_ne_nil _ (decimal_ne_nil m)]
    exact ih hm.ne'

theorem decimal_digits (n : Nat) : ∀ b ∈ decimal n, 0x30 ≤ b.toNat ∧ b.toNat ≤ 0x39 := by
  have hcode {d : Nat} (h : d < 10) : 0x30 ≤ (digitCode d).toNat ∧ (digitCode d).toNat ≤ 0x39 := by
    rw [digitCode_toNat h]
    omega
  induction n using decimal_induction with
  | digit d hd => simpa [decimal_digit hd] using hcode hd
  | append m d hm hd ih =>
    rw [decimal_append_digit hm hd]
    exact List.forall_mem_append.2 ⟨ih, List.forall_mem_singleton.2 (hcode hd)⟩

/-- Read digit by digit, the decimal form gives the number back. -/
theorem decimal_value (n : Nat) : (decimal n).foldl (fun v b => 10 * v + (b.toNat - 0x30)) 0 = n := by
  induction n using decimal_induction with
  | digit d hd => simp [decimal_digit hd, digitCode_toNat hd]
  | append m d hm hd ih => simp [decimal_append_digit hm hd, digitCode_toNat hd, ih]

theorem twoDigits_of_lt {d : Nat} (h : d < 100) :
    twoDigits d = [BitVec.ofNat 8 (0x30 + d / 10), BitVec.ofNat 8 (0x30 + d % 10)] := by
  rw [twoDigits, Nat.mod_eq_of_lt (by omega : d / 10 < 10)]

/-- Hundredths by their size `100 * n + d` and their sign: a minus sign only in front of a number below zero. -/
theorem decimalHundredths_of_natAbs {h : Int} {n d : Nat} (hd : d < 100) (habs : h.natAbs = 100 * n + d) :
    decimalHundredths h = (if h < 0 then [0x2D#8] else []) ++ decimal n ++
      [0x2E#8, BitVec.ofNat 8 (0x30 + d / 10), BitVec.ofNat 8 (0x30 + d % 10)] := by
  have hwhole : h.natAbs / 100 = n := by omega
  have hrest : h.natAbs % 100 = d := by omega
  rw [decimalHundredths, hwhole, hrest, twoDigits_of_lt hd]
  simp [byteMinus, byteDot]

/-! ## STATUS (43_command_interpreter R263) -/

theorem stalled_iff (s : State) :
    s.stalled = true ↔ s.hallValid = false ∨ s.cfg.stallTimeoutTs < (s.now - s.lastEdgeTs).toNat := by
  rw [State.stalled, Bool.or_eq_true, Bool.not_eq_true', decide_eq_true_iff]
  rfl

theorem readRpm_eq (s : State) :
    s.readRpm = if s.hallValid = false ∨ s.cfg.stallTimeoutTs < (s.now - s.lastEdgeTs).toNat then 0
      else s.currentRpm :=
  if_congr (stalled_iff s) rfl rfl

end Sys2Proof.Machine

namespace Sys2Proof.Proofs

open Sys2Proof.Machine

/-- Settles O51: R9's rounding is a nearest integer, and a dwell is a ceiling. -/
theorem conversionsRound : Obligations.ConversionsRound := by
  refine ⟨isRounding_roundAway, fun cfg y => rfl, fun cfg f => ?feed, fun cfg p => ?dwell⟩
  case feed =>
    rw [feedDelay]
    push_cast
    rfl
  case dwell => exact ⟨Rat.ceil_le_iff.1 le_rfl, Rat.ceil_lt⟩

/-- Settles O50: the line is R118's, and its numbers are spelled digit by digit from the last. -/
theorem statusAnswers : Obligations.StatusAnswers := by
  refine ⟨fun s => ?line, fun n => ⟨decimal_ne_nil n, decimal_head_ne_zero, decimal_digits n, decimal_value n⟩,
    by decide, by decide, fun neg n d hd hne => ?hundredths⟩
  case line =>
    show execStatus s = _
    rw [execStatus, statusText, readRpm_eq, mul_div_right_comm]
    rfl
  case hundredths =>
    cases neg
    · rw [decimalHundredths_of_natAbs (n := n) hd (by simp; omega), if_neg (by simp; omega)]
      rfl
    · rw [decimalHundredths_of_natAbs (n := n) hd (by simp; omega), if_pos (by simp; omega)]
      rfl

end Sys2Proof.Proofs
end

section
/-!
PROOF. A TICK over the whole state (40_scheduler R140 to R148, R152): its writes and pulses axis by axis, the axes it
leaves alone, the records LoadNext drops, and PAUSE and RESUME between TICKs.
-/

namespace Sys2Proof.Machine

/-! ## The pulses in the output history (10_state R48) -/

theorem pulsesIn_append (a : Axis) (h k : List OutEvent) : pulsesIn a (h ++ k) = pulsesIn a h ++ pulsesIn a k :=
  List.filterMap_append

theorem pulsesIn_stepPulse_same (a : Axis) (d : Option Dir) :
    pulsesIn a (d.map (OutEvent.stepPulse a)).toList = d.toList := by
  cases d <;> simp [pulsesIn]

theorem pulsesIn_stepPulse_ne {a c : Axis} (d : Option Dir) (h : c ≠ a) :
    pulsesIn a (d.map (OutEvent.stepPulse c)).toList = [] := by
  cases d <;> simp [pulsesIn, h]

@[simp] theorem setBank_pulses (s : State) (a c : Axis) (b : AxisBank) : (s.setBank a b).pulses c = s.pulses c := by
  simp [State.pulses]

@[simp] theorem respond_pulses (s : State) (c : ResultCode) (v : BitVec 64) (a : Axis) :
    (respond c v s).pulses a = s.pulses a := by
  simp [State.pulses, pulsesIn]

@[simp] theorem reply_pulses (s : State) (text : List Byte) (a : Axis) : (reply text s).pulses a = s.pulses a := by
  simp [State.pulses, pulsesIn]

@[simp] theorem emit_spindleDrive_pulses (s : State) (mode : DriveMode) (a : Axis) :
    (s.emit (.spindleDrive mode)).pulses a = s.pulses a := by
  simp [State.pulses, pulsesIn]

/-! ## What a TICK writes (R140, R141, R148) -/

/-- TICK in full: each axis's bank and at most one pulse of each, the spindle's first. -/
theorem exec_tick_eq (s : State) :
    exec .tick s = .next { s with
      spindle := (tickBank s.cfg.cap s.spindle).1
      traverse := (tickBank s.cfg.cap s.traverse).1
      history := s.history ++ (((tickBank s.cfg.cap s.spindle).2.map (OutEvent.stepPulse .spindle)).toList ++
        ((tickBank s.cfg.cap s.traverse).2.map (OutEvent.stepPulse .traverse)).toList) } := by
  simp only [exec, execTick, tickAxis_eq, ← List.append_assoc]
  rfl

theorem exec_tick_pulses {s t : State} (h : exec .tick s = .next t) (a : Axis) :
    t.pulses a = s.pulses a ++ (tickBank s.cfg.cap (s.bank a)).2.toList := by
  rw [exec_tick_eq] at h
  cases h
  simp only [State.pulses, pulsesIn_append]
  cases a
  · rw [pulsesIn_stepPulse_same, pulsesIn_stepPulse_ne _ (by decide), List.append_nil, bank_spindle]
  · rw [pulsesIn_stepPulse_same, pulsesIn_stepPulse_ne _ (by decide), List.nil_append, bank_traverse]

theorem exec_tick_cfg {s t : State} (h : exec .tick s = .next t) : t.cfg = s.cfg := by
  rw [exec_tick_eq] at h
  cases h
  rfl

theorem exec_tick_safety {s t : State} (h : exec .tick s = .next t) : t.safety = s.safety := by
  rw [exec_tick_eq] at h
  cases h
  rfl

/-- A TICK touches only an axis that is active already (R141). -/
theorem active_of_tickBank_active {cap : Nat} {b : AxisBank} (h : (tickBank cap b).1.active = true) :
    b.active = true := by
  cases he : b.eligible
  · rwa [tickBank_ineligible he] at h
  · simp_all [AxisBank.eligible]

/-- The failures of R141's test. -/
theorem eligible_eq_false {b : AxisBank} (h : b.active = false ∨ b.paused = true ∨ b.estop = true) :
    b.eligible = false := by
  obtain h | h | h := h <;> simp [AxisBank.eligible, h]

/-- An axis that fails R141's test keeps its bank and gives no pulse. -/
theorem exec_tick_ineligible {s t : State} {a : Axis} (he : (s.bank a).eligible = false)
    (h : exec .tick s = .next t) : t.bank a = s.bank a ∧ t.pulses a = s.pulses a := by
  rw [exec_tick_bank h, exec_tick_pulses h, tickBank_ineligible he]
  exact ⟨rfl, List.append_nil _⟩

/-! ## What LoadNext makes of the record at the head (R144, R145) -/

/-- LoadNext drops a record without steps or delay and looks at the next one. -/
theorem loadNext_of_empty_record {cap : Nat} {b : AxisBank} (hh : b.head < 2 * cap) (ht : b.tail < 2 * cap)
    (hne : b.head ≠ b.tail)
    (hrec : (memRead cap b b.head).count = 0#32 ∨ (memRead cap b b.head).delay = 0#32) :
    loadNext cap b = loadNext cap { b with head := (b.head + 1) % (2 * cap) } := by
  have hdepth := (depth_head_succ (c := { b with head := (b.head + 1) % (2 * cap) }) hh ht
    (mt (depth_eq_zero hh ht).1 hne) rfl rfl).2
  rw [loadNext, loadNext, hdepth, loadLoop, if_pos hrec]

/-- LoadNext loads a record with steps and a delay. -/
theorem loadNext_of_valid_record {cap : Nat} {b : AxisBank} (hh : b.head < 2 * cap) (ht : b.tail < 2 * cap)
    (hne : b.head ≠ b.tail) (hcount : (memRead cap b b.head).count ≠ 0#32)
    (hdelay : (memRead cap b b.head).delay ≠ 0#32) :
    loadNext cap b = { b with
      head := (b.head + 1) % (2 * cap), curRem := (memRead cap b b.head).count
      curDelay := (memRead cap b b.head).delay, curCnt := (memRead cap b b.head).delay
      curDir := (memRead cap b b.head).dir } := by
  obtain ⟨n, hn⟩ := Nat.exists_eq_succ_of_ne_zero (mt (depth_eq_zero hh ht).1 hne)
  rw [loadNext, hn, loadLoop, if_neg (by simp [hcount, hdelay])]

/-- The last step of a chunk is followed by a LoadNext, which passes over a record without steps or delay (R143,
R145). -/
theorem emitStep_of_empty_record {cap : Nat} {b : AxisBank} (hh : b.head < 2 * cap) (ht : b.tail < 2 * cap)
    (hne : b.head ≠ b.tail)
    (hrec : (memRead cap b b.head).count = 0#32 ∨ (memRead cap b b.head).delay = 0#32) (hrem : b.curRem = 1#32) :
    emitStep cap b = emitStep cap { b with head := (b.head + 1) % (2 * cap) } := by
  have hlast : b.curRem - 1#32 = 0#32 := by rw [hrem, BitVec.sub_self]
  rw [emitStep, emitStep]
  dsimp only
  rw [if_pos hlast, if_pos hlast]
  exact loadNext_of_empty_record hh ht hne hrec

/-- A countdown that has run out is followed by a step (R142). -/
theorem countdown_of_one {cap : Nat} {b : AxisBank} (hcnt : b.curCnt = 1#32) :
    countdown cap b = (emitStep cap { b with curCnt := 0#32 }, some b.curDir) := by
  simp [countdown, hcnt]

/-- A look at the ring with nothing loaded, or after the last step of the loaded chunk, passes over a record without
steps or delay (R145). -/
theorem tickBank_of_empty_record {cap : Nat} {b : AxisBank} (he : b.eligible = true) (hh : b.head < 2 * cap)
    (ht : b.tail < 2 * cap) (hne : b.head ≠ b.tail)
    (hrec : (memRead cap b b.head).count = 0#32 ∨ (memRead cap b b.head).delay = 0#32)
    (hlook : b.curRem = 0#32 ∨ (b.curRem = 1#32 ∧ b.curCnt = 1#32)) :
    tickBank cap b = tickBank cap { b with head := (b.head + 1) % (2 * cap) } := by
  rw [tickBank_of_eligible he, tickBank_of_eligible (b := { b with head := (b.head + 1) % (2 * cap) }) he]
  obtain hrem | ⟨hrem, hcnt⟩ := hlook
  · have hrefill : refill cap b = refill cap { b with head := (b.head + 1) % (2 * cap) } := by
      rw [refill, refill, if_pos hrem, if_pos hrem]
      exact loadNext_of_empty_record hh ht hne hrec
    rw [hrefill]
  · have hactive : b.active = true := by simp_all [AxisBank.eligible]
    have hloaded : b.curRem ≠ 0#32 := by simp [hrem]
    rw [refill, refill, if_neg hloaded, if_neg hloaded, if_pos hactive, if_pos hactive,
      countdown_of_one hcnt, countdown_of_one (b := { b with head := (b.head + 1) % (2 * cap) }) hcnt]
    exact congrArg (·, some b.curDir) (emitStep_of_empty_record hh ht hne hrec hrem)

/-- A TICK that loads a chunk services it as if it had been loaded before (R141, R142). -/
theorem tickBank_of_valid_record {cap : Nat} {b : AxisBank} (he : b.eligible = true) (hh : b.head < 2 * cap)
    (ht : b.tail < 2 * cap) (hne : b.head ≠ b.tail) (hcount : (memRead cap b b.head).count ≠ 0#32)
    (hdelay : (memRead cap b b.head).delay ≠ 0#32) (hrem : b.curRem = 0#32) :
    tickBank cap b = tickBank cap { b with
      head := (b.head + 1) % (2 * cap), curRem := (memRead cap b b.head).count
      curDelay := (memRead cap b b.head).delay, curCnt := (memRead cap b b.head).delay
      curDir := (memRead cap b b.head).dir } := by
  have hrefill : refill cap b = loadNext cap b := if_pos hrem
  rw [tickBank_of_eligible he, hrefill, loadNext_of_valid_record hh ht hne hcount hdelay, tickBank_of_eligible,
    refill, if_neg hcount]
  exact he

/-- A TICK sees no more of a bank than its service does. -/
theorem exec_tick_setBank {s : State} {a : Axis} {b : AxisBank}
    (h : tickBank s.cfg.cap (s.bank a) = tickBank s.cfg.cap b) : exec .tick s = exec .tick (s.setBank a b) := by
  rw [exec_tick_eq, exec_tick_eq]
  cases a
  · rw [bank_spindle] at h
    simp [h, State.setBank]
  · rw [bank_traverse] at h
    simp [h, State.setBank]

/-! ## PAUSE and RESUME between TICKs (R152) -/

/-- Two states agree on an axis but for its paused flag, which is clear in the second. -/
structure AgreeUnpaused (a : Axis) (s u : State) : Prop where
  cap : s.cfg.cap = u.cfg.cap
  bank : { s.bank a with paused := false } = u.bank a
  pulses : s.pulses a = u.pulses a

/-- A TICK that does not service the paused axis keeps the agreement. -/
theorem AgreeUnpaused.tick_paused {a : Axis} {s t u : State} (h : AgreeUnpaused a s u)
    (hp : (s.bank a).paused = true) (ht : exec .tick s = .next t) : AgreeUnpaused a t u := by
  obtain ⟨hbank, hpulses⟩ := exec_tick_ineligible (eligible_eq_false (.inr (.inl hp))) ht
  exact ⟨by rw [exec_tick_cfg ht, h.cap], by rw [hbank, h.bank], by rw [hpulses, h.pulses]⟩

/-- A TICK on both sides keeps the agreement where the axis is not paused. -/
theorem AgreeUnpaused.tick_both {a : Axis} {s t u v : State} (h : AgreeUnpaused a s u)
    (hp : (s.bank a).paused = false) (ht : exec .tick s = .next t) (hv : exec .tick u = .next v) :
    AgreeUnpaused a t v := by
  have hbank : s.bank a = u.bank a := by rw [← h.bank, ← hp]
  have hpaused : (tickBank s.cfg.cap (s.bank a)).1.paused = false := by
    obtain ⟨-, -, -, hkeep, -⟩ := tickBank_frame s.cfg.cap (s.bank a)
    exact hkeep.trans hp
  refine ⟨?cap, ?bank, ?pulses⟩
  case cap => rw [exec_tick_cfg ht, exec_tick_cfg hv, h.cap]
  case bank => rw [exec_tick_bank ht, exec_tick_bank hv, ← h.cap, ← hbank, ← hpaused]
  case pulses => rw [exec_tick_pulses ht, exec_tick_pulses hv, h.pulses, hbank, h.cap]

/-- PAUSE and RESUME write the paused flag only (41_move_queue R171, R172). -/
theorem AgreeUnpaused.setPaused {a : Axis} {s t u : State} (h : AgreeUnpaused a s u) {p : Bool}
    (ht : t = respond .ok 0#64 (s.setBank a { s.bank a with paused := p })) : AgreeUnpaused a t u := by
  subst ht
  exact ⟨by simp [h.cap], by simp [← h.bank], by simp [h.pulses]⟩

/-- Runs of TICK, PAUSE and RESUME keep the agreement with the run of the serviced TICKs alone. -/
theorem agreeUnpaused_run {a : Axis} (ops : List Instr) (hops : ∀ i ∈ ops, i = .tick ∨ i = .pause a ∨ i = .resume a)
    {s u : State} (h : AgreeUnpaused a s u) :
    ∃ t v, execAll ops s = .next t ∧
      execAll (List.replicate (servicedTicks a (s.bank a).paused ops) .tick) u = .next v ∧ AgreeUnpaused a t v := by
  induction ops generalizing s u with
  | nil => exact ⟨s, u, rfl, rfl, h⟩
  | cons i is ih =>
    have hrest : ∀ j ∈ is, j = .tick ∨ j = .pause a ∨ j = .resume a := fun j hj => hops j (List.mem_cons_of_mem _ hj)
    obtain ⟨s', hs'⟩ := exec_next i s
    simp only [execAll, hs']
    obtain rfl | rfl | rfl := hops i List.mem_cons_self
    · have hflag : (s'.bank a).paused = (s.bank a).paused := by
        obtain ⟨-, -, -, hkeep, -⟩ := tickBank_frame s.cfg.cap (s.bank a)
        rw [exec_tick_bank hs', hkeep]
      cases hp : (s.bank a).paused with
      | true =>
        obtain ⟨t, v, ht, hv, hagree⟩ := ih hrest (h.tick_paused hp hs')
        rw [hflag, hp] at hv
        exact ⟨t, v, ht, by simpa [servicedTicks] using hv, hagree⟩
      | false =>
        obtain ⟨u', hu'⟩ := exec_next .tick u
        obtain ⟨t, v, ht, hv, hagree⟩ := ih hrest (h.tick_both hp hs' hu')
        rw [hflag, hp] at hv
        exact ⟨t, v, ht, by simpa [servicedTicks, Nat.add_comm 1, List.replicate_succ, execAll, hu'] using hv, hagree⟩
    · have hflag : (s'.bank a).paused = true := by rw [exec_pause_bank hs']
      obtain ⟨t, v, ht, hv, hagree⟩ := ih hrest (h.setPaused (Host.Outcome.next.inj hs').symm)
      rw [hflag] at hv
      exact ⟨t, v, ht, by simpa [servicedTicks] using hv, hagree⟩
    · have hflag : (s'.bank a).paused = false := by rw [exec_resume_bank hs']
      obtain ⟨t, v, ht, hv, hagree⟩ := ih hrest (h.setPaused (Host.Outcome.next.inj hs').symm)
      rw [hflag] at hv
      exact ⟨t, v, ht, by simpa [servicedTicks] using hv, hagree⟩

end Sys2Proof.Machine

namespace Sys2Proof.Proofs

open Sys2Proof.Machine

/-- Settles O23: TICK in full, with the frame of each axis's service. -/
theorem tickOrderAndFrame : Obligations.TickOrderAndFrame := by
  intro s
  obtain ⟨t, ht⟩ := exec_next .tick s
  refine ⟨t, (tickBank s.cfg.cap s.spindle).2, (tickBank s.cfg.cap s.traverse).2, ht, ?writes, fun a => ?frame,
    fun s' t' a hcap hbank h' => ?axis⟩
  case writes =>
    rw [exec_tick_eq] at ht
    cases ht
    rfl
  case frame =>
    obtain ⟨hring, htail, hhomed, hpaused, hestop⟩ := tickBank_frame s.cfg.cap (s.bank a)
    rw [exec_tick_bank ht]
    exact ⟨hring, htail, hhomed, hpaused, hestop, active_of_tickBank_active⟩
  case axis => rw [exec_tick_bank h', exec_tick_bank ht, hcap, hbank]

/-- Settles O24: each of the three conditions fails R141's test. -/
theorem tickLeavesIneligibleAxis : Obligations.TickLeavesIneligibleAxis := by
  intro s a h
  obtain ⟨t, ht⟩ := exec_next .tick s
  exact ⟨t, ht, exec_tick_ineligible (eligible_eq_false h) ht⟩

/-- Settles O27: one look of LoadNext at the head of the ring, seen through the service of the axis. -/
theorem tickDiscardsEmptyRecord : Obligations.TickDiscardsEmptyRecord := by
  intro s a b next hactive hpaused hestop hne hh ht
  have he : b.eligible = true := by simp [AxisBank.eligible, hactive, hpaused, hestop]
  exact ⟨fun hrec hlook => exec_tick_setBank (tickBank_of_empty_record he hh ht hne hrec hlook),
    fun hcount hdelay hrem => exec_tick_setBank (tickBank_of_valid_record he hh ht hne hcount hdelay hrem)⟩

/-- Settles O31: the run agrees with its serviced TICKs, instruction by instruction. -/
theorem pauseResumeDeterminism : Obligations.PauseResumeDeterminism := by
  intro s a ops hops
  have hstart : AgreeUnpaused a s (s.setBank a { s.bank a with paused := false }) := ⟨by simp, by simp, by simp⟩
  obtain ⟨t, u, ht, hu, hagree⟩ := agreeUnpaused_run ops hops hstart
  exact ⟨t, u, ht, hu, hagree.bank, hagree.pulses⟩

end Sys2Proof.Proofs
end

section
/-!
PROOF. The axes between TICKs (40_scheduler R153, R155): no operation but TICK gives a pulse, and none but CLR_ESTOP,
M999 and ENQUEUE wakes an axis that is stopped or has nothing to do.
-/

namespace Sys2Proof.Machine

/-! ## Axes with nothing to do -/

theorem Quiet.ineligible {cap : Nat} {b : AxisBank} (h : Quiet cap b) : b.eligible = false :=
  eligible_eq_false (.inl h.1)

/-- The clearing writes of ESTOP leave nothing to do (41_move_queue R173). -/
theorem quiet_flush (cap : Nat) (b : AxisBank) : Quiet cap b.flush := ⟨rfl, rfl, depth_of_eq rfl⟩

theorem quiet_estop (cap : Nat) (b : AxisBank) : Quiet cap { b.flush with estop := true } := quiet_flush cap b

/-- An emptied ring has nothing to do if its axis had nothing (41_move_queue R174). -/
theorem Quiet.qstop {cap : Nat} {b : AxisBank} (h : Quiet cap b) : Quiet cap { b with head := b.tail } := by
  obtain ⟨hactive, hrem, -⟩ := h
  exact ⟨hactive, hrem, depth_of_eq rfl⟩

/-! ## What an operation other than TICK does to the axes

`clears` names the axes whose stop it may clear and `enqueues` those on which it may enqueue; both may say too much. -/

/-- It gives no pulse; an axis stays stopped unless it clears the stop, and quiet unless it enqueues there, which it
cannot do on an axis that stays stopped (41_move_queue R170). -/
structure Effect (clears enqueues : Axis → Bool) (s t : State) : Prop where
  cfg : t.cfg = s.cfg
  pulses : ∀ a, t.pulses a = s.pulses a
  stopped : ∀ a, clears a = false → (s.bank a).estop = true → (t.bank a).estop = true
  quiet : ∀ a, enqueues a = false ∨ (clears a = false ∧ (s.bank a).estop = true) →
    Quiet s.cfg.cap (s.bank a) → Quiet s.cfg.cap (t.bank a)

section

variable {clears enqueues : Axis → Bool} {s t u : State}

theorem Effect.of_banks (hcfg : t.cfg = s.cfg) (hpulses : ∀ a, t.pulses a = s.pulses a)
    (hbanks : ∀ a, t.bank a = s.bank a) : Effect clears enqueues s t where
  cfg := hcfg
  pulses := hpulses
  stopped a _ hstop := by rwa [hbanks a]
  quiet a _ hquiet := by rwa [hbanks a]

/-- Leaving both banks and the history alone. -/
theorem Effect.of_fields (hcfg : t.cfg = s.cfg) (hhistory : t.history = s.history) (hspindle : t.spindle = s.spindle)
    (htraverse : t.traverse = s.traverse) : Effect clears enqueues s t :=
  .of_banks hcfg (fun a => congrArg (pulsesIn a) hhistory) fun a => by cases a <;> assumption

theorem Effect.refl (s : State) : Effect clears enqueues s s := .of_fields rfl rfl rfl rfl

theorem Effect.trans (h : Effect clears enqueues s t) (k : Effect clears enqueues t u) :
    Effect clears enqueues s u where
  cfg := k.cfg.trans h.cfg
  pulses a := (k.pulses a).trans (h.pulses a)
  stopped a hclear hstop := k.stopped a hclear (h.stopped a hclear hstop)
  quiet a hno hquiet := by
    have hmid : enqueues a = false ∨ (clears a = false ∧ (t.bank a).estop = true) :=
      hno.imp_right fun ⟨hclear, hstop⟩ => ⟨hclear, h.stopped a hclear hstop⟩
    rw [← h.cfg]
    exact k.quiet a hmid (h.cfg ▸ h.quiet a hno hquiet)

theorem Effect.respond (h : Effect clears enqueues s t) (c : ResultCode) (v : BitVec 64) :
    Effect clears enqueues s (respond c v t) :=
  h.trans (.of_banks rfl (respond_pulses t c v) (respond_bank t c v))

theorem Effect.reply (h : Effect clears enqueues s t) (text : List Byte) :
    Effect clears enqueues s (reply text t) :=
  h.trans (.of_banks rfl (reply_pulses t text) (reply_bank t text))

/-- Writing one bank. -/
theorem Effect.setBank {a : Axis} {b : AxisBank}
    (hstopped : clears a = false → (s.bank a).estop = true → b.estop = true)
    (hquiet : enqueues a = false ∨ (clears a = false ∧ (s.bank a).estop = true) →
      Quiet s.cfg.cap (s.bank a) → Quiet s.cfg.cap b) : Effect clears enqueues s (s.setBank a b) where
  cfg := setBank_cfg s a b
  pulses c := setBank_pulses s a c b
  stopped c := by
    rw [bank_setBank]
    split
    · subst c; exact hstopped
    · exact fun _ hstop => hstop
  quiet c := by
    rw [bank_setBank]
    split
    · subst c; exact hquiet
    · exact fun _ hquiet => hquiet

/-! ## The shared operations (41_move_queue, 43_command_interpreter) -/

theorem enqueueOp_effect {a : Axis} {d : Dir} {n l : BitVec 32} (ha : enqueues a = true)
    (h : enqueueOp a d n l s = .ok t) : Effect clears enqueues s t := by
  obtain ⟨-, hestop, -, -, -, rfl⟩ := enqueueOp_ok h
  refine .setBank (fun _ hstop => hstop) fun hno _ => ?_
  simp [ha, hestop] at hno

theorem setPaused_effect (a : Axis) (p : Bool) :
    Effect clears enqueues s (s.setBank a { s.bank a with paused := p }) :=
  .setBank (fun _ hstop => hstop) fun _ hquiet => hquiet

theorem estopOp_effect (a : Axis) (s : State) : Effect clears enqueues s (estopOp a s) :=
  .setBank (fun _ _ => rfl) fun _ _ => quiet_estop _ _

theorem flush_effect (a : Axis) (s : State) : Effect clears enqueues s (s.setBank a (s.bank a).flush) :=
  .setBank (fun _ hstop => hstop) fun _ _ => quiet_flush _ _

theorem qstopOp_effect (a : Axis) (s : State) : Effect clears enqueues s (qstopOp a s) :=
  .setBank (fun _ hstop => hstop) fun _ hquiet => hquiet.qstop

theorem clrEstopOp_effect {a : Axis} (ha : clears a = true) (s : State) :
    Effect clears enqueues s (clrEstopOp a s) :=
  .setBank (fun hno => by simp [ha] at hno) fun _ hquiet => hquiet

/-- A new spindle target, and the event that tells the drive (10_state R48(e)). -/
theorem drive_effect (s : State) (v : Rat) (d : SpinDir) (mode : DriveMode) :
    Effect clears enqueues s ({ s with targetRpm := v, spinDir := d }.emit (.spindleDrive mode)) :=
  .of_banks rfl (emit_spindleDrive_pulses _ mode) fun a => by cases a <;> rfl

/-- Writing the SafetyState leaves the axes alone (10_state R36). -/
theorem setSafety_effect (s : State) (m : SafetyState) : Effect clears enqueues s { s with safety := m } :=
  .of_fields rfl rfl rfl rfl

theorem estopAllOp_effect (s : State) : Effect clears enqueues s (estopAllOp s) :=
  (((setSafety_effect s .emergencyStopped).trans (estopOp_effect .spindle _)).trans
    (estopOp_effect .traverse _)).trans (drive_effect _ 0 s.spinDir .cut)

theorem homeStart_effect {a : Axis} {w : HomeCaller} (h : homeStart a w s = .ok t) : Effect clears enqueues s t := by
  obtain ⟨-, -, -, rfl⟩ := homeStart_ok h
  exact .of_fields rfl rfl rfl rfl

theorem hallEdgeOp_effect (ts : BitVec 64) (s : State) : Effect clears enqueues s (hallEdgeOp ts s) := by
  obtain ⟨-, h⟩ | ⟨-, -, h⟩ | ⟨-, -, h⟩ := hallEdgeOp_cases ts s <;> rw [h]
  · exact .of_fields rfl rfl rfl rfl
  · exact .refl s
  · exact .of_fields rfl rfl rfl rfl

theorem spindleOp_effect {d : SpinDir} {ps : List Param} (h : spindleOp d ps s = .ok t) :
    Effect clears enqueues s t := by
  obtain ⟨-, v, -, -, -, rfl⟩ := spindleOp_ok h
  exact drive_effect s v d .ramp

/-- A move writes the feed rate, and of the banks only the traverse's ring, tail and active flag (R252). -/
theorem moveTo_ok {y f : Rat} (h : moveTo y f s = .ok t) : ∃ m k b,
    t = { s with feed := f, traverse := { s.traverse with ring := m, tail := k, active := b } } := by
  unfold moveTo at h
  dsimp only at h
  split at h
  · cases h
  · split at h
    · cases h
      exact ⟨_, _, _, rfl⟩
    · split at h
      · cases h
      · cases h
        rw [enqueueMove_frame]
        exact ⟨_, _, _, rfl⟩

theorem moveOp_effect {ps : List Param} (ha : enqueues .traverse = true) (h : moveOp ps s = .ok t) :
    Effect clears enqueues s t := by
  obtain ⟨-, hestop, -, y, f, -, -, -, -, hmove⟩ := moveOp_ok h
  obtain ⟨m, k, b, rfl⟩ := moveTo_ok hmove
  have hbank : Effect clears enqueues s
      (s.setBank .traverse { s.traverse with ring := m, tail := k, active := b }) :=
    .setBank (fun _ hstop => hstop) fun hno _ => by simp [ha, hestop] at hno
  exact hbank.trans (.of_fields rfl rfl rfl rfl)

theorem syncStart_effect (s : State) : Effect clears enqueues s (syncStart s) := by
  have hfg (fg : Foreground) : Effect clears enqueues s { s with fg := fg } :=
    .of_fields rfl rfl rfl rfl
  unfold syncStart
  split
  · exact (hfg .idle).reply _
  · exact hfg .sync

theorem finish_effect {r : Except ResultCode State} (h : finish s r = .next t)
    (hok : ∀ u, r = .ok u → Effect clears enqueues s u) : Effect clears enqueues s t := by
  obtain ⟨c, -, rfl⟩ | ⟨u, hu, rfl⟩ := finish_next h
  · exact (Effect.refl s).respond _ _
  · exact (hok u hu).respond _ _

theorem finishLine_effect {r : Except Reason State} (h : finishLine s r = .next t)
    (hok : ∀ u, r = .ok u → Effect clears enqueues s u) : Effect clears enqueues s t := by
  obtain ⟨c, -, rfl⟩ | ⟨u, hu, rfl⟩ := finishLine_next h
  · exact (Effect.refl s).reply _
  · exact (hok u hu).reply _

/-- A command with one precondition is accepted only where that holds. -/
theorem Effect.of_guarded {p : Prop} [Decidable p] {r : Reason} (h : Effect clears enqueues s t) :
    ∀ u, (if p then Except.error r else .ok t) = .ok u → Effect clears enqueues s u := by
  intro u hu
  split at hu <;> cases hu
  exact h

end

/-! ## Every instruction but TICK -/

theorem execG28_effect {clears enqueues : Axis → Bool} {ps : List Param} {s t : State}
    (h : execG28 ps s = .next t) : Effect clears enqueues s t := by
  unfold execG28 g28Start at h
  split at h
  · cases h
    exact (Effect.refl s).reply _
  · rename_i u hu
    cases h
    split at hu
    · cases hu
    · split at hu
      · cases hu
      · split at hu <;> cases hu
        exact homeStart_effect ‹_›

theorem execG4_effect {clears enqueues : Axis → Bool} {ps : List Param} {s t : State}
    (h : execG4 ps s = .next t) : Effect clears enqueues s t := by
  unfold execG4 at h
  dsimp only at h
  split at h
  · cases h
    exact (Effect.refl s).reply _
  · split at h
    · split at h <;> cases h
      · exact (Effect.refl s).reply _
      · exact syncStart_effect s
    · cases h
      exact .of_fields rfl rfl rfl rfl

theorem execHome_effect {clears enqueues : Axis → Bool} {a : Axis} {s t : State}
    (h : execHome a s = .next t) : Effect clears enqueues s t := by
  unfold execHome at h
  split at h <;> cases h
  · exact (Effect.refl s).respond _ _
  · exact homeStart_effect ‹_›

/-- R155's two lists of instructions are complete, and TICK alone gives pulses (R153). -/
theorem exec_effect {i : Instr} {s t : State} (hi : i ≠ .tick) (h : exec i s = .next t) :
    Effect (clearsStop · i) (enqueuesOn · i) s t := by
  cases i
  case tick => exact absurd rfl hi
  case enqueue a d n l => exact finish_effect h fun u hu => enqueueOp_effect (by simp [enqueuesOn]) hu
  case pause a => cases h; exact (setPaused_effect a true).respond _ _
  case resume a => cases h; exact (setPaused_effect a false).respond _ _
  case estop a => cases h; exact (estopOp_effect a s).respond _ _
  case qstop a => cases h; exact (qstopOp_effect a s).respond _ _
  case clrEstop a => cases h; exact (clrEstopOp_effect (by simp [clearsStop]) s).respond _ _
  case estopAll => cases h; exact (estopAllOp_effect s).respond _ _
  case home a => exact execHome_effect h
  case isActive | queueDepth | position | getRpm | rdState => cases h; exact (Effect.refl s).respond _ _
  case hallEdge ts => cases h; exact hallEdgeOp_effect ts s
  case g0 ps | g1 ps => exact finishLine_effect h fun u hu => moveOp_effect rfl hu
  case g28 ps => exact execG28_effect h
  case g4 ps => exact execG4_effect h
  case m3 ps | m4 ps => exact finishLine_effect h fun u hu => spindleOp_effect hu
  case m5 ps => cases h; exact (drive_effect s 0 s.spinDir s.cfg.m5Mode).reply _
  case m0 ps =>
    exact finishLine_effect h (.of_guarded (((setSafety_effect s .feedHold).trans
      (setPaused_effect .spindle true)).trans (setPaused_effect .traverse true)))
  case m1 ps =>
    exact finishLine_effect h (.of_guarded (((setSafety_effect s .normal).trans
      (setPaused_effect .spindle false)).trans (setPaused_effect .traverse false)))
  case m112 ps => cases h; exact (estopAllOp_effect s).reply _
  case m410 ps => cases h; exact ((qstopOp_effect .spindle s).trans (qstopOp_effect .traverse _)).reply _
  case m999 ps =>
    refine finishLine_effect h fun u hu => ?_
    split at hu
    · cases hu
    · exact Effect.of_guarded (((setSafety_effect s .normal).trans
        (clrEstopOp_effect rfl _)).trans (clrEstopOp_effect rfl _)) u hu
  case status | ping | version => cases h; exact (Effect.refl s).reply _

/-! ## Steps that run no instruction, and what a step runs (41_move_queue R176, 20_memory R80) -/

/-- Whether a poll is one of a homing of the axis (41_move_queue R176). -/
def homesOn (a : Axis) : Foreground → Bool
  | .home b _ _ => b == a
  | .idle | .dwell _ _ | .sync => false

theorem answerHome_effect {clears enqueues : Axis → Bool} {caller : HomeCaller} {c : ResultCode} {s t : State}
    (h : answerHome caller c s = .next t) : Effect clears enqueues s t := by
  have hidle : Effect clears enqueues s { s with fg := .idle } :=
    .of_fields rfl rfl rfl rfl
  unfold answerHome at h
  dsimp only at h
  split at h
  · cases h; exact hidle.respond _ _
  · split at h <;> cases h
    exact hidle.reply _

theorem homePoll_effect {clears enqueues : Axis → Bool} {a : Axis} {t0 : BitVec 64} {caller : HomeCaller}
    {s t : State} (ha : enqueues a = true) (h : homePoll a t0 caller s = .next t) : Effect clears enqueues s t := by
  unfold homePoll at h
  split at h
  · exact answerHome_effect h
  · split at h
    · have hhomed : Effect clears enqueues s (s.setBank a { s.bank a with pos := 0#64, homed := true }) :=
        .setBank (fun _ hstop => hstop) fun _ hquiet => hquiet
      exact hhomed.trans (answerHome_effect h)
    · split at h
      · exact (flush_effect a s).trans (answerHome_effect h)
      · split at h
        · cases h; exact enqueueOp_effect ha ‹_›
        · exact answerHome_effect h

theorem pollOp_effect {clears enqueues : Axis → Bool} {s t : State}
    (hhome : ∀ a, homesOn a s.fg = true → enqueues a = true) (h : pollOp s = .next t) : Effect clears enqueues s t := by
  have hidle : Effect clears enqueues s { s with fg := .idle } :=
    .of_fields rfl rfl rfl rfl
  unfold pollOp at h
  split at h
  · cases h; exact .refl s
  · rename_i a t0 caller hfg
    split at h
    · exact homePoll_effect (hhome a (by simp [hfg, homesOn])) h
    · cases h; exact .refl s
  · split at h <;> cases h
    · exact hidle.reply _
    · exact .refl s
  · split at h <;> cases h
    · exact hidle.reply _
    · exact .refl s

theorem rejectLine_effect {clears enqueues : Axis → Bool} (r : Reject) (s : State) :
    Effect clears enqueues s (rejectLine r s) := by
  cases r
  case blank | incomplete => exact .refl s
  case malformed | illegalWord | unknownCommand => exact (Effect.refl s).reply _

theorem fetchWord_settled_effect {clears enqueues : Axis → Bool} {s t : State}
    (h : fetchWord s = .settled (.next t)) : Effect clears enqueues s t := by
  unfold fetchWord at h
  split at h
  · cases h; exact .refl s
  · split at h
    · cases h; exact .refl s
    · rename_i w ws hport
      have htaken : Effect clears enqueues s { s with opPort := ws } := .of_fields rfl rfl rfl rfl
      split at h <;> cases h
      exact htaken.respond _ _

theorem fetchLine_settled_effect {clears enqueues : Axis → Bool} {s t : State}
    (h : fetchLine s = .settled (.next t)) : Effect clears enqueues s t := by
  unfold fetchLine at h
  split at h
  · cases h; exact .refl s
  · split at h
    · cases h; exact .refl s
    · rename_i l rest hline
      have htaken : Effect clears enqueues s { s with rx := rest } := .of_fields rfl rfl rfl rfl
      split at h <;> cases h
      exact htaken.trans (rejectLine_effect _ _)

/-- A decoder's result is no event. -/
def NoEvent (r : Except Reject Instr) : Prop := ∀ i, r = .ok i → i.isEvent = false

theorem NoEvent.error (e : Reject) : NoEvent (.error e) := nofun

theorem NoEvent.ok {i : Instr} (h : i.isEvent = false) : NoEvent (.ok i) := by
  rintro _ ⟨⟩
  exact h

theorem NoEvent.ite {c : Prop} [Decidable c] {r q : Except Reject Instr} (hr : NoEvent r) (hq : NoEvent q) :
    NoEvent (if c then r else q) := by
  split
  · exact hr
  · exact hq

/-- The port refuses the words of TICK and HALL_EDGE (30_encoding R103). -/
theorem decodePort_noEvent (w : OpWord) : NoEvent (decodePort w) := by
  unfold decodePort
  split
  · split
    · exact .error _
    · exact .ok (Bool.eq_false_of_not_eq_true ‹_›)
  · exact .error _

/-- The commands of R110, in the order they are tried. -/
theorem selectCommand_noEvent (l : Letter) (n : Nat) (ps : List Param) : NoEvent (selectCommand l n ps) :=
  .ite
    (.ite (.ok rfl) (.ite (.ok rfl) (.ite (.ok rfl) (.ite (.ok rfl) (.error _)))))
    (.ite
      (.ite (.ok rfl) (.ite (.ok rfl) (.ite (.ok rfl) (.ite (.ok rfl) (.ite (.ok rfl) (.ite (.ok rfl)
        (.ite (.ok rfl) (.ite (.ok rfl) (.error _)))))))))
      (.error _))

theorem keywordOf_isEvent {t : List Byte} {i : Instr} (h : keywordOf t = some i) : i.isEvent = false := by
  unfold keywordOf at h
  split_ifs at h <;> cases h <;> rfl

theorem decodeTokens_noEvent (ts : List (List Byte)) : NoEvent (decodeTokens ts) := by
  unfold decodeTokens
  split
  · exact .error _
  · split
    · exact .ite (.ok (keywordOf_isEvent ‹_›)) (.error _)
    · split
      · exact .ite (selectCommand_noEvent _ _ _) (.error _)
      · exact .error _

/-- No line stands for TICK or HALL_EDGE (30_encoding R110, R111). -/
theorem decodeLine_noEvent (m : Nat) (l : List Byte) : NoEvent (decodeLine m l) :=
  .ite (.error _) (.ite (.error _) (.ite (.error _) (decodeTokens_noEvent _)))

theorem fetchWord_run_effect {clears enqueues : Axis → Bool} {s u : State} {i : Instr}
    (h : fetchWord s = .run i u) : Effect clears enqueues s u ∧ i.isEvent = false := by
  unfold fetchWord at h
  split at h
  · cases h
  · split at h
    · cases h
    · split at h <;> cases h
      exact ⟨.of_fields rfl rfl rfl rfl, decodePort_noEvent _ _ ‹_›⟩

theorem fetchLine_run_effect {clears enqueues : Axis → Bool} {s u : State} {i : Instr}
    (h : fetchLine s = .run i u) : Effect clears enqueues s u ∧ i.isEvent = false := by
  unfold fetchLine at h
  split at h
  · cases h
  · split at h
    · cases h
    · split at h <;> cases h
      exact ⟨.of_fields rfl rfl rfl rfl, decodeLine_noEvent _ _ _ ‹_›⟩

/-- The actions that run no instruction. -/
theorem fetch_settled_effect {clears enqueues : Axis → Bool} {s t : State}
    (hhome : ∀ a, s.sched.head? = some .poll → homesOn a s.fg = true → enqueues a = true)
    (h : fetch s = .settled (.next t)) : Effect clears enqueues s t := by
  unfold fetch at h
  split at h
  · cases h; exact .refl s
  · rename_i act rest hsched
    have hturn : Effect clears enqueues s { s with sched := rest } := .of_fields rfl rfl rfl rfl
    refine hturn.trans ?_
    dsimp only at h
    cases act
    case tick | hallEdge => cases h
    case hallLevel level =>
      dsimp only [fetchHall] at h
      split at h <;> cases h
      exact .of_fields rfl rfl rfl rfl
    case estopReq => cases h; exact estopAllOp_effect _
    case limitSwitch a level => cases h; exact .of_fields (by simp) (by simp) (by simp) (by simp)
    case clock delta => cases h; exact .of_fields rfl rfl rfl rfl
    case takeWord => exact fetchWord_settled_effect h
    case takeLine => exact fetchLine_settled_effect h
    case poll =>
      injection h with h
      exact pollOp_effect (fun a => hhome a (by rw [hsched]; rfl)) h

/-- What a step runs an instruction on, and that only the Timer runs a TICK (00_scope R5). -/
theorem fetch_run_effect {clears enqueues : Axis → Bool} {s u : State} {i : Instr} (h : fetch s = .run i u) :
    Effect clears enqueues s u ∧ (i = .tick → s.sched.head? = some .tick) := by
  unfold fetch at h
  split at h
  · cases h
  · rename_i act rest hsched
    have hturn : Effect clears enqueues s { s with sched := rest } := .of_fields rfl rfl rfl rfl
    dsimp only at h
    cases act
    case tick => cases h; exact ⟨hturn, fun _ => by rw [hsched]; rfl⟩
    case hallEdge ts => cases h; exact ⟨hturn, nofun⟩
    case hallLevel level =>
      dsimp only [fetchHall] at h
      split at h <;> cases h
      exact ⟨hturn.trans (.of_fields rfl rfl rfl rfl), nofun⟩
    case estopReq | limitSwitch | clock | poll => cases h
    case takeWord =>
      obtain ⟨heffect, hevent⟩ := fetchWord_run_effect h
      exact ⟨hturn.trans heffect, fun hi => by simp [hi, Instr.isEvent] at hevent⟩
    case takeLine =>
      obtain ⟨heffect, hevent⟩ := fetchLine_run_effect h
      exact ⟨hturn.trans heffect, fun hi => by simp [hi, Instr.isEvent] at hevent⟩

/-! ## Silent axes (R155) -/

/-- A quiet axis stays quiet and gives no pulse under an instruction that does not enqueue on it, or that leaves it
stopped. -/
theorem exec_quiet {i : Instr} {a : Axis} {s t : State} (h : exec i s = .next t)
    (hno : enqueuesOn a i = false ∨ (clearsStop a i = false ∧ (s.bank a).estop = true))
    (hquiet : Quiet s.cfg.cap (s.bank a)) : Quiet t.cfg.cap (t.bank a) ∧ t.pulses a = s.pulses a := by
  by_cases hi : i = .tick
  · subst hi
    obtain ⟨hbank, hpulses⟩ := exec_tick_ineligible hquiet.ineligible h
    rw [exec_tick_cfg h, hbank]
    exact ⟨hquiet, hpulses⟩
  · have heffect := exec_effect hi h
    rw [heffect.cfg]
    exact ⟨heffect.quiet a hno hquiet, heffect.pulses a⟩

/-- A stopped axis stays stopped under an instruction that does not clear its stop. -/
theorem exec_stopped {i : Instr} {a : Axis} {s t : State} (h : exec i s = .next t) (hclear : clearsStop a i = false)
    (hstop : (s.bank a).estop = true) : (t.bank a).estop = true := by
  by_cases hi : i = .tick
  · subst hi
    obtain ⟨-, -, -, -, hkeep⟩ := tickBank_frame s.cfg.cap (s.bank a)
    rw [exec_tick_bank h, hkeep, hstop]
  · exact (exec_effect hi h).stopped a hclear hstop

/-- What every instruction of a run keeps, the run keeps. -/
theorem execAll_keeps {P : State → Prop} {is : List Instr}
    (hkeep : ∀ i ∈ is, ∀ s t, exec i s = .next t → P s → P t) {s t : State} (h : execAll is s = .next t) (hs : P s) :
    P t := by
  induction is generalizing s with
  | nil => cases h; exact hs
  | cons i is ih =>
    obtain ⟨u, hu⟩ := exec_next i s
    simp only [execAll, hu] at h
    exact ih (fun j hj => hkeep j (List.mem_cons_of_mem _ hj)) h (hkeep i List.mem_cons_self s u hu hs)

theorem execAll_append (is js : List Instr) {s t : State} (h : execAll is s = .next t) :
    execAll (is ++ js) s = execAll js t := by
  induction is generalizing s with
  | nil => cases h; rfl
  | cons i is ih =>
    obtain ⟨u, hu⟩ := exec_next i s
    simp only [execAll, hu] at h
    simp only [List.cons_append, execAll, hu, ih h]

/-- Every run answers (60_exceptions R307). -/
theorem execAll_next (is : List Instr) (s : State) : ∃ t, execAll is s = .next t := by
  induction is generalizing s with
  | nil => exact ⟨s, rfl⟩
  | cons i is ih =>
    obtain ⟨u, hu⟩ := exec_next i s
    simpa only [execAll, hu] using ih u

/-- A stopped and quiet axis is silent until its stop has been cleared and a chunk enqueued after that. -/
theorem silentUntilRestarted_of_stopped {a : Axis} {s : State} (hstop : (s.bank a).estop = true)
    (hquiet : Quiet s.cfg.cap (s.bank a)) : SilentUntilRestarted a s := by
  intro stopped cleared t hstopped hcleared h
  obtain ⟨u, hu⟩ := execAll_next stopped s
  rw [execAll_append stopped cleared hu] at h
  obtain ⟨-, hquietU, hpulsesU⟩ := execAll_keeps
    (P := fun v => (v.bank a).estop = true ∧ Quiet v.cfg.cap (v.bank a) ∧ v.pulses a = s.pulses a)
    (fun i hi v w hvw ⟨hstopV, hquietV, hpulsesV⟩ =>
      ⟨exec_stopped hvw (hstopped i hi) hstopV,
        (exec_quiet hvw (.inr ⟨hstopped i hi, hstopV⟩) hquietV).imp_right (·.trans hpulsesV)⟩)
    hu ⟨hstop, hquiet, rfl⟩
  obtain ⟨-, hpulsesT⟩ := execAll_keeps
    (P := fun v => Quiet v.cfg.cap (v.bank a) ∧ v.pulses a = s.pulses a)
    (fun i hi v w hvw ⟨hquietV, hpulsesV⟩ =>
      (exec_quiet hvw (.inl (hcleared i hi)) hquietV).imp_right (·.trans hpulsesV))
    h ⟨hquietU, hpulsesU⟩
  exact hpulsesT

/-- Where ESTOP has written, the axis is stopped, quiet and silent (41_move_queue R173). -/
theorem silent_of_estopped {a : Axis} {t : State} {b : AxisBank} (h : t.bank a = { b.flush with estop := true }) :
    (t.bank a).estop = true ∧ Quiet t.cfg.cap (t.bank a) ∧ SilentUntilRestarted a t := by
  have hstop : (t.bank a).estop = true := by rw [h]
  have hquiet : Quiet t.cfg.cap (t.bank a) := by rw [h]; exact quiet_estop _ b
  exact ⟨hstop, hquiet, silentUntilRestarted_of_stopped hstop hquiet⟩

theorem estopAllOp_bank (s : State) (a : Axis) :
    (estopAllOp s).bank a = { (s.bank a).flush with estop := true } := by
  cases a <;> rfl

/-- A step keeps a quiet axis quiet and without a pulse, unless what it runs or polls enqueues there. -/
theorem step_quiet {a : Axis} {s t : State} (h : step s = .next t)
    (hrun : ∀ i u, fetch s = .run i u →
      enqueuesOn a i = false ∨ (clearsStop a i = false ∧ (s.bank a).estop = true))
    (hpoll : s.sched.head? = some .poll → homesOn a s.fg = true → (s.bank a).estop = true)
    (hquiet : Quiet s.cfg.cap (s.bank a)) : Quiet t.cfg.cap (t.bank a) ∧ t.pulses a = s.pulses a := by
  obtain ⟨-, ⟨i, u, hfetch, hexec⟩ | hsettled⟩ := step_next h
  · obtain ⟨heffect, -⟩ := fetch_run_effect (clears := fun _ => false) (enqueues := fun _ => false) hfetch
    have hno : enqueuesOn a i = false ∨ (clearsStop a i = false ∧ (u.bank a).estop = true) :=
      (hrun i u hfetch).imp_right fun ⟨hclear, hstop⟩ => ⟨hclear, heffect.stopped a rfl hstop⟩
    have hquietU : Quiet u.cfg.cap (u.bank a) := heffect.cfg ▸ heffect.quiet a (.inl rfl) hquiet
    rw [← heffect.pulses a]
    exact exec_quiet hexec hno hquietU
  · have heffect := fetch_settled_effect (clears := fun _ => false)
      (enqueues := fun c => decide (s.sched.head? = some .poll) && homesOn c s.fg) (by simp_all) hsettled
    rw [heffect.cfg]
    refine ⟨heffect.quiet a ?_ hquiet, heffect.pulses a⟩
    by_cases hhome : s.sched.head? = some .poll ∧ homesOn a s.fg = true
    · exact .inr ⟨rfl, hpoll hhome.1 hhome.2⟩
    · exact .inl (by simpa using hhome)

/-- A step keeps a stopped axis stopped, unless what it runs clears the stop. -/
theorem step_stopped {a : Axis} {s t : State} (h : step s = .next t)
    (hrun : ∀ i u, fetch s = .run i u → clearsStop a i = false) (hstop : (s.bank a).estop = true) :
    (t.bank a).estop = true := by
  obtain ⟨-, ⟨i, u, hfetch, hexec⟩ | hsettled⟩ := step_next h
  · obtain ⟨heffect, -⟩ := fetch_run_effect (clears := fun _ => false) (enqueues := fun _ => false) hfetch
    exact exec_stopped hexec (hrun i u hfetch) (heffect.stopped a rfl hstop)
  · exact (fetch_settled_effect (clears := fun _ => false) (enqueues := fun _ => true) (by simp) hsettled).stopped a rfl
      hstop

end Sys2Proof.Machine

namespace Sys2Proof.Proofs

open Sys2Proof.Machine

/-- Settles O32: the effect of every other instruction and step. -/
theorem onlyTickEmitsPulses : Obligations.OnlyTickEmitsPulses := by
  refine ⟨fun i s t a hi h => (exec_effect hi h).pulses a, fun s t a hsched h => ?_⟩
  obtain ⟨-, ⟨i, u, hfetch, hexec⟩ | hsettled⟩ := step_next h
  · obtain ⟨heffect, htimer⟩ := fetch_run_effect (clears := fun _ => true) (enqueues := fun _ => true) hfetch
    have hi : i ≠ .tick := fun hi => hsched (htimer hi)
    exact ((exec_effect hi hexec).pulses a).trans (heffect.pulses a)
  · exact (fetch_settled_effect (clears := fun _ => true) (enqueues := fun _ => true) (by simp) hsettled).pulses a

/-- Settles O33: ESTOP's writes leave the axis quiet, and quiet and stopped axes stay so. -/
theorem emergencyStopSilencesAxes : Obligations.EmergencyStopSilencesAxes := by
  refine ⟨fun s => ⟨?operations, ?request, ?estop⟩, fun s t a h hquiet => ⟨?staysStopped, ?staysQuiet⟩⟩
  case operations =>
    rintro i (rfl | ⟨ps, rfl⟩)
    · exact ⟨_, rfl, fun a => silent_of_estopped ((respond_bank _ _ _ a).trans (estopAllOp_bank s a))⟩
    · exact ⟨_, rfl, fun a => silent_of_estopped ((reply_bank _ _ a).trans (estopAllOp_bank s a))⟩
  case request =>
    intro rest hcfg hsched
    refine ⟨estopAllOp { s with sched := rest }, ?_, fun a => silent_of_estopped (estopAllOp_bank _ a)⟩
    simp [step, fetch, hcfg, hsched]
  case estop =>
    intro a
    obtain ⟨t, ht⟩ := exec_next (.estop a) s
    exact ⟨t, ht, silent_of_estopped (exec_estop_bank ht)⟩
  case staysStopped =>
    intro hstop hrun
    exact ⟨step_stopped h hrun hstop,
      step_quiet h (fun i u hfetch => .inr ⟨hrun i u hfetch, hstop⟩) (fun _ _ => hstop) hquiet⟩
  case staysQuiet =>
    intro hrun hpoll
    refine step_quiet h (fun i u hfetch => .inl (hrun i u hfetch)) (fun hturn hhome => ?_) hquiet
    have hfg := hpoll hturn
    cases hcase : s.fg with
    | home b t0 caller => simp_all [homesOn]
    | idle | dwell | sync => simp [hcase, homesOn] at hhome

end Sys2Proof.Proofs
end

section
/-!
PROOF. The timing of enqueued chunks (40_scheduler R150): TICK and ENQUEUE keep the invariant of an axis, a TICK plays
the next entry of its pulse train, an ENQUEUE appends a chunk's train to it, and the ring has room for what is appended
while the first chunk is under way.
-/

namespace Sys2Proof.Machine

/-! ## The invariant of an axis under TICK and ENQUEUE (10_state R53) -/

/-- The chunks an axis holds: those in the ring and the loaded one. -/
def AxisBank.occupancy (cap : Nat) (b : AxisBank) : Nat := b.depth cap + if b.curRem = 0#32 then 0 else 1

theorem occupancy_unloaded {cap : Nat} {b : AxisBank} (h : b.curRem = 0#32) : b.occupancy cap = b.depth cap := by
  simp [AxisBank.occupancy, h]

theorem occupancy_loaded {cap : Nat} {b : AxisBank} (h : b.curRem ≠ 0#32) : b.occupancy cap = b.depth cap + 1 := by
  simp [AxisBank.occupancy, h]

/-- LoadNext keeps the invariant; it takes a chunk from the ring only to load it (R144, R146). -/
theorem BankInv.loadNext_keeps {cap : Nat} {b : AxisBank} (h : BankInv cap b) (ha : b.active = true)
    (hrem : b.curRem = 0#32) :
    BankInv cap (loadNext cap b) ∧ (loadNext cap b).occupancy cap ≤ b.occupancy cap := by
  obtain ⟨hdepth, hload⟩ | ⟨hdepth, hload⟩ := loadNext_of_valid h.head_lt h.tail_lt h.chunks_valid
  · rw [hload]
    refine ⟨?_, le_refl _⟩
    exact { h with
      idle_empty := fun _ => ⟨hdepth, hrem⟩
      loaded := fun hne => absurd hrem hne
      stopped_idle := fun _ => rfl }
  · have hring := ringChunks_head_succ h.head_lt h.tail_lt hdepth (by rw [hload]) (by rw [hload]) (by rw [hload])
      (c := loadNext cap b)
    obtain ⟨hhead, hless⟩ := depth_head_succ h.head_lt h.tail_lt hdepth (by rw [hload]) (by rw [hload])
      (c := loadNext cap b)
    have hvalid := h.chunks_valid
    rw [hring] at hvalid
    obtain ⟨-, hdelay⟩ := hvalid _ List.mem_cons_self
    have hle : (loadNext cap b).occupancy cap ≤ b.occupancy cap := by
      rw [occupancy_unloaded hrem, hless]
      unfold AxisBank.occupancy
      split <;> omega
    refine ⟨?_, hle⟩
    have hdepthLe := h.depth_le
    have hrest : ∀ c ∈ ringChunks cap (loadNext cap b), c.count ≠ 0#32 ∧ c.delay ≠ 0#32 :=
      fun c hc => hvalid c (List.mem_cons_of_mem _ hc)
    have hdepthRest : (loadNext cap b).depth cap ≤ cap := by omega
    rw [hload] at hhead hrest hdepthRest ⊢
    exact { h with
      head_lt := hhead
      depth_le := hdepthRest
      chunks_valid := hrest
      idle_empty := fun hidle => by simp [ha] at hidle
      loaded := fun _ => ⟨by bv_omega, le_refl _, ha⟩ }

theorem BankInv.refill_keeps {cap : Nat} {b : AxisBank} (h : BankInv cap b) (ha : b.active = true) :
    BankInv cap (refill cap b) ∧ (refill cap b).occupancy cap ≤ b.occupancy cap := by
  unfold refill
  split
  · exact h.loadNext_keeps ha ‹_›
  · exact ⟨h, le_refl _⟩

/-- A step of the loaded chunk keeps the invariant, up to the LoadNext that may follow it (R143). -/
theorem BankInv.step_keeps {cap : Nat} {b : AxisBank} (h : BankInv cap b) (hrem : b.curRem ≠ 0#32) (p : BitVec 64) :
    BankInv cap { b with pos := p, curRem := b.curRem - 1#32, curCnt := b.curDelay } ∧
      AxisBank.occupancy cap { b with pos := p, curRem := b.curRem - 1#32, curCnt := b.curDelay } ≤
        b.occupancy cap := by
  obtain ⟨hpos, hle, ha⟩ := h.loaded hrem
  constructor
  · exact { h with
      idle_empty := fun hno => by simp [ha] at hno
      loaded := fun _ => ⟨hpos.trans hle, le_refl _, ha⟩ }
  · rw [occupancy_loaded hrem]
    exact Nat.add_le_add_left (by split <;> omega) (b.depth cap)

/-- A countdown of a loaded axis keeps the invariant (R142, R143). -/
theorem BankInv.countdown_keeps {cap : Nat} {b : AxisBank} (h : BankInv cap b) (hrem : b.curRem ≠ 0#32) :
    BankInv cap (countdown cap b).1 ∧ (countdown cap b).1.occupancy cap ≤ b.occupancy cap := by
  obtain ⟨hpos, hle, ha⟩ := h.loaded hrem
  unfold countdown
  dsimp only
  split
  · rw [emitStep_eq_refill]
    exact ((h.step_keeps hrem _).1.refill_keeps ha).imp_right (·.trans (h.step_keeps hrem _).2)
  · rename_i hmore
    exact ⟨{ h with loaded := fun _ => ⟨by bv_omega, by bv_omega, ha⟩ }, le_refl _⟩

/-- The reload that opens a service keeps the train, and leaves the axis loaded or idle at its end. -/
theorem BankInv.refill_serviced {cap : Nat} {b : AxisBank} (h : BankInv cap b) (ha : b.active = true) :
    (refill cap b).train cap = b.train cap ∧ Serviced cap (refill cap b) :=
  train_refill h.ringValid ha fun hrem => by
    obtain ⟨hpos, hle, -⟩ := h.loaded hrem
    exact ⟨by bv_omega, by bv_omega⟩

theorem Serviced.loaded {cap : Nat} {b : AxisBank} (h : Serviced cap b) (ha : b.active = true) : Loaded cap b :=
  h.resolve_left fun hidle => by simp [ha] at hidle

/-- A TICK keeps the invariant of an axis and adds no chunk to it (R140). -/
theorem BankInv.tickBank_keeps {cap : Nat} {b : AxisBank} (h : BankInv cap b) :
    BankInv cap (tickBank cap b).1 ∧ (tickBank cap b).1.occupancy cap ≤ b.occupancy cap := by
  cases he : b.eligible with
  | false => rw [tickBank_ineligible he]; exact ⟨h, le_refl _⟩
  | true =>
    have ha : b.active = true := by simp_all [AxisBank.eligible]
    obtain ⟨hrefill, hocc⟩ := h.refill_keeps ha
    rw [tickBank_of_eligible he]
    split
    · have hloaded := (h.refill_serviced ha).2.loaded ‹_›
      exact (hrefill.countdown_keeps hloaded.curRem_ne).imp_right (·.trans hocc)
    · exact ⟨hrefill, hocc⟩

/-- A serviced TICK gives the pulse the train begins with, if it begins with one (R150). -/
theorem tickBank_pulse {cap : Nat} {b : AxisBank} (h : BankInv cap b) (he : b.eligible = true) :
    (tickBank cap b).2.toList = ((b.train cap).take 1).filterMap id := by
  have ha : b.active = true := by simp_all [AxisBank.eligible]
  obtain ⟨htrain, hserviced⟩ := h.refill_serviced ha
  rw [tickBank_of_eligible he, ← htrain]
  obtain ⟨hidle, hnil⟩ | hloaded := hserviced
  · simp [hidle, hnil]
  · rw [if_pos hloaded.active, (train_countdown hloaded).1]
    cases (countdown cap (refill cap b)).2 <;> rfl

/-- The bank after an accepted ENQUEUE (41_move_queue R170). -/
def AxisBank.enqueued (cap : Nat) (b : AxisBank) (c : Chunk) : AxisBank :=
  { b with ring := (memWrite cap b b.tail c).ring, tail := (b.tail + 1) % (2 * cap), active := true }

/-- A chunk that ENQUEUE accepts (00_scope R8). -/
def Chunk.Valid (c : Chunk) : Prop := c.count ≠ 0#32 ∧ c.delay ≠ 0#32

theorem Chunk.Valid.toNat_ne {c : Chunk} (h : c.Valid) : c.count.toNat ≠ 0 ∧ c.delay.toNat ≠ 0 := by
  obtain ⟨hcount, hdelay⟩ := h
  exact ⟨by bv_omega, by bv_omega⟩

theorem exec_enqueue_of_valid {a : Axis} {s : State} {c : Chunk} (hsafety : s.safety ≠ .emergencyStopped)
    (hestop : (s.bank a).estop = false) (hc : c.Valid) (hroom : (s.bank a).depth s.cfg.cap ≠ s.cfg.cap) :
    exec (.enqueue a c.dir c.count c.delay) s =
      .next (respond .ok 0#64 (s.setBank a ((s.bank a).enqueued s.cfg.cap c))) :=
  congrArg (finish s) (enqueueOp_of_valid hsafety hestop hc.1 hc.2 hroom)

theorem BankInv.depth_enqueued {cap : Nat} {b : AxisBank} (h : BankInv cap b) (hroom : b.depth cap < cap) (c : Chunk) :
    (b.enqueued cap c).tail < 2 * cap ∧ (b.enqueued cap c).depth cap = b.depth cap + 1 :=
  depth_enqueue h.head_lt h.tail_lt hroom rfl rfl

theorem BankInv.ringChunks_enqueued {cap : Nat} {b : AxisBank} (h : BankInv cap b) (hroom : b.depth cap < cap)
    (c : Chunk) : ringChunks cap (b.enqueued cap c) = ringChunks cap b ++ [c] :=
  ringChunks_enqueue h.ring_wf h.head_lt h.tail_lt hroom c rfl rfl rfl

theorem BankInv.occupancy_enqueued {cap : Nat} {b : AxisBank} (h : BankInv cap b) (hroom : b.depth cap < cap)
    (c : Chunk) : (b.enqueued cap c).occupancy cap = b.occupancy cap + 1 := by
  rw [AxisBank.occupancy, (h.depth_enqueued hroom c).2]
  exact Nat.add_right_comm _ 1 _

/-- An accepted ENQUEUE appends its chunk's train. -/
theorem BankInv.train_enqueued {cap : Nat} {b : AxisBank} (h : BankInv cap b) (hroom : b.depth cap < cap)
    (c : Chunk) : (b.enqueued cap c).train cap = b.train cap ++ stepTrain c.count.toNat c.delay.toNat c.dir := by
  rw [AxisBank.train, h.ringChunks_enqueued hroom, List.flatMap_append, ← List.append_assoc, List.flatMap_singleton]
  rfl

/-- An accepted ENQUEUE keeps the invariant. -/
theorem BankInv.enqueue_keeps {cap : Nat} {b : AxisBank} (h : BankInv cap b) (hroom : b.depth cap < cap)
    (hestop : b.estop = false) {c : Chunk} (hc : c.Valid) : BankInv cap (b.enqueued cap c) where
  ring_wf := Memory.write_wf h.ring_wf _ _
  slots_lt e he := (Memory.mem_write he).elim (h.slots_lt e) fun heq => heq ▸ Nat.mod_lt _ (by omega)
  head_lt := h.head_lt
  tail_lt := (h.depth_enqueued hroom c).1
  depth_le := (h.depth_enqueued hroom c).2.trans_le hroom
  chunks_valid e he := by
    rw [h.ringChunks_enqueued hroom, List.mem_append, List.mem_singleton] at he
    exact he.elim (h.chunks_valid e) fun heq => heq ▸ hc
  idle_empty := nofun
  loaded hrem := by
    obtain ⟨hpos, hle, -⟩ := h.loaded hrem
    exact ⟨hpos, hle, rfl⟩
  stopped_idle hstop := by
    have hno : b.estop = true := hstop
    simp [hestop] at hno

/-! ## A run along a pulse train (R150) -/

/-- An axis that runs unhindered has played `n` entries of a train and has the others before it; `base` are the pulses
it had given before the train. -/
structure OnTrain (a : Axis) (base : List Dir) (train : List (Option Dir)) (n : Nat) (s : State) : Prop where
  safety : s.safety ≠ .emergencyStopped
  inv : BankInv s.cfg.cap (s.bank a)
  unpaused : (s.bank a).paused = false
  unstopped : (s.bank a).estop = false
  ahead : (s.bank a).train s.cfg.cap = train.drop n
  active : (s.bank a).active = true ↔ n < train.length
  pulses : s.pulses a = base ++ (train.take n).filterMap id

/-- A TICK plays the next entry of the train, if there is one. -/
theorem OnTrain.tick {a : Axis} {base : List Dir} {train : List (Option Dir)} {n : Nat} {s t : State}
    (h : OnTrain a base train n s) (ht : exec .tick s = .next t) : OnTrain a base train (n + 1) t := by
  obtain ⟨-, -, -, hpaused, hestop⟩ := tickBank_frame s.cfg.cap (s.bank a)
  have hcfg := exec_tick_cfg ht
  have hbank := exec_tick_bank ht a
  have hpulses := exec_tick_pulses ht a
  have hinv : BankInv t.cfg.cap (t.bank a) := by rw [hcfg, hbank]; exact h.inv.tickBank_keeps.1
  have hsafety : t.safety ≠ .emergencyStopped := by rw [exec_tick_safety ht]; exact h.safety
  have hunpaused : (t.bank a).paused = false := by rw [hbank, hpaused, h.unpaused]
  have hunstopped : (t.bank a).estop = false := by rw [hbank, hestop, h.unstopped]
  cases ha : (s.bank a).active with
  | true =>
    have he : (s.bank a).eligible = true := by simp [AxisBank.eligible, ha, h.unpaused, h.unstopped]
    obtain ⟨htrain, hserviced⟩ := train_tickBank h.inv he
    have hahead : (t.bank a).train t.cfg.cap = train.drop (n + 1) := by
      rw [hcfg, hbank, htrain, h.ahead, List.tail_drop]
    refine ⟨hsafety, hinv, hunpaused, hunstopped, hahead, ?_, ?_⟩
    · rw [hbank, hserviced.active_iff, ← hbank, ← hcfg, hahead]
      simp
    · rw [hpulses, tickBank_pulse h.inv he, h.ahead, h.pulses, List.take_add, List.filterMap_append,
        List.append_assoc]
  | false =>
    have hend : train.length ≤ n := by
      by_contra hmore
      simp [h.active.2 (by omega)] at ha
    obtain ⟨hsame, hsilent⟩ := exec_tick_ineligible (eligible_eq_false (.inl ha)) ht
    refine ⟨hsafety, hinv, hunpaused, hunstopped, ?_, ?_, ?_⟩
    · rw [hcfg, hsame, h.ahead, List.drop_eq_nil_of_le hend, List.drop_eq_nil_of_le (by omega)]
    · simp only [hsame, ha]
      simp; omega
    · rw [hsilent, h.pulses, List.take_of_length_le hend, List.take_of_length_le (by omega)]

/-- While the train goes on, the axis a TICK leaves is loaded. -/
theorem OnTrain.tick_loaded {a : Axis} {base : List Dir} {train : List (Option Dir)} {n : Nat} {s t : State}
    (h : OnTrain a base train n s) (ht : exec .tick s = .next t) (hn : n + 1 < train.length) :
    (t.bank a).curRem ≠ 0#32 := by
  have he : (s.bank a).eligible = true := by
    simp [AxisBank.eligible, h.active.2 (by omega), h.unpaused, h.unstopped]
  have hactive := (h.tick ht).active.2 hn
  rw [exec_tick_bank ht] at hactive ⊢
  exact ((train_tickBank h.inv he).2.loaded hactive).curRem_ne

/-- TICKs play the train on; they add no chunk, and leave the axis loaded while the train goes on. -/
theorem OnTrain.ticks {a : Axis} {base : List Dir} {train : List (Option Dir)} {n : Nat} {s t : State}
    (h : OnTrain a base train n s) {k : Nat} (ht : execAll (List.replicate k .tick) s = .next t) :
    OnTrain a base train (n + k) t ∧ t.cfg = s.cfg ∧
      (t.bank a).occupancy s.cfg.cap ≤ (s.bank a).occupancy s.cfg.cap ∧
      (0 < k → n + k < train.length → (t.bank a).curRem ≠ 0#32) := by
  induction k generalizing n s with
  | zero => cases ht; exact ⟨h, rfl, le_refl _, nofun⟩
  | succ k ih =>
    obtain ⟨u, hu⟩ := exec_next .tick s
    simp only [List.replicate_succ, execAll, hu] at ht
    obtain ⟨hon, hcfg, hocc, hloaded⟩ := ih (h.tick hu) ht
    have hcfgU := exec_tick_cfg hu
    have hoccU := h.inv.tickBank_keeps.2
    rw [← exec_tick_bank hu] at hoccU
    rw [Nat.add_right_comm, Nat.add_assoc] at hon
    refine ⟨hon, hcfg.trans hcfgU, (hcfgU ▸ hocc).trans hoccU, fun _ hn => ?_⟩
    obtain rfl | hk := Nat.eq_zero_or_pos k
    · cases ht
      exact h.tick_loaded hu hn
    · exact hloaded hk (by omega)

theorem stepTrain_length (n l : Nat) (d : Dir) (hl : l ≠ 0) : (stepTrain n l d).length = n * l := by
  induction n with
  | zero => simp [stepTrain]
  | succ n ih =>
    rw [stepTrain_succ, List.length_append, List.length_replicate, List.length_cons, ih, Nat.succ_mul]
    omega

theorem train_of_empty {cap : Nat} {b : AxisBank} (hrem : b.curRem = 0#32) (hdepth : b.depth cap = 0) :
    b.train cap = [] := by
  simp [AxisBank.train, AxisBank.loadedTrain, hrem, ringChunks_of_empty hdepth]

/-- The train of chunks stepped one after another. -/
def chunksTrain (cs : List Chunk) : List (Option Dir) :=
  cs.flatMap fun c => stepTrain c.count.toNat c.delay.toNat c.dir

/-- An accepted ENQUEUE extends the train (41_move_queue R170). -/
theorem OnTrain.enqueue {a : Axis} {base : List Dir} {train : List (Option Dir)} {n : Nat} {s t : State} {c : Chunk}
    (h : OnTrain a base train n s) (hn : n ≤ train.length) (hc : c.Valid)
    (hroom : (s.bank a).depth s.cfg.cap < s.cfg.cap)
    (ht : exec (.enqueue a c.dir c.count c.delay) s = .next t) :
    OnTrain a base (train ++ stepTrain c.count.toNat c.delay.toNat c.dir) n t ∧ t.cfg = s.cfg ∧
      t.bank a = (s.bank a).enqueued s.cfg.cap c := by
  rw [exec_enqueue_of_valid h.safety h.unstopped hc hroom.ne] at ht
  cases ht
  have hbank : (respond .ok 0#64 (s.setBank a ((s.bank a).enqueued s.cfg.cap c))).bank a =
      (s.bank a).enqueued s.cfg.cap c := by simp
  refine ⟨⟨?safety, ?inv, ?unpaused, ?unstopped, ?ahead, ?active, ?pulses⟩, by simp, hbank⟩
  case safety => simpa using h.safety
  case inv => simpa using h.inv.enqueue_keeps hroom h.unstopped hc
  case unpaused => rw [hbank]; exact h.unpaused
  case unstopped => rw [hbank]; exact h.unstopped
  case ahead =>
    rw [hbank, respond_cfg, setBank_cfg, h.inv.train_enqueued hroom, h.ahead, List.drop_append_of_le_length hn]
  case active =>
    obtain ⟨hcount, hdelay⟩ := hc.toNat_ne
    have hlen : 0 < c.count.toNat * c.delay.toNat := by positivity
    rw [hbank, List.length_append, stepTrain_length _ _ _ hdelay]
    exact iff_of_true rfl (by omega)
  case pulses => rw [respond_pulses, setBank_pulses, h.pulses, List.take_append_of_le_length hn]

/-- The ring has room for chunks to come, each after some TICKs: CAP behind the loaded one, and where none is loaded and
no TICK will come, CAP in all. -/
def RoomFor (cap : Nat) (b : AxisBank) (cs : List (Nat × Chunk)) : Prop :=
  b.occupancy cap + cs.length ≤ cap + 1 ∧
    (b.curRem = 0#32 → (cs.map Prod.fst).sum = 0 → b.occupancy cap + cs.length ≤ cap)

/-- An empty axis has room for a first chunk now and those that come while it is under way (R150). -/
theorem roomFor_of_empty {cap : Nat} {b : AxisBank} {c : Chunk} {cs : List (Nat × Chunk)} (hempty : b.occupancy cap = 0)
    (hcap : cs.length + (if (cs.map Prod.fst).sum = 0 then 1 else 0) ≤ cap) : RoomFor cap b ((0, c) :: cs) := by
  simp only [RoomFor, hempty, List.length_cons, List.map_cons, List.sum_cons, Nat.zero_add]
  refine ⟨by omega, fun _ hsum => ?_⟩
  rwa [if_pos hsum] at hcap

/-- The TICKs before a chunk leave the room there is. -/
theorem RoomFor.after_ticks {cap gap : Nat} {b u : AxisBank} {c : Chunk} {cs : List (Nat × Chunk)}
    (h : RoomFor cap b ((gap, c) :: cs)) (hocc : u.occupancy cap ≤ b.occupancy cap)
    (hloaded : 0 < gap → u.curRem ≠ 0#32) (hnone : gap = 0 → u.curRem = b.curRem) :
    RoomFor cap u ((0, c) :: cs) := by
  obtain ⟨hall, hunloaded⟩ := h
  simp only [List.length_cons, List.map_cons, List.sum_cons] at hall hunloaded
  refine ⟨by simp only [List.length_cons]; omega, fun hrem hsum => ?_⟩
  have hgap : gap = 0 := by
    by_contra hgap
    exact hloaded (by omega) hrem
  simp only [List.map_cons, List.sum_cons] at hsum
  have hroom := hunloaded (hnone hgap ▸ hrem) (by omega)
  simp only [List.length_cons]
  omega

/-- There is a slot for the chunk that comes now. -/
theorem RoomFor.depth_lt {cap : Nat} {b : AxisBank} {c : Chunk} {cs : List (Nat × Chunk)}
    (h : RoomFor cap b ((0, c) :: cs)) : b.depth cap < cap := by
  obtain ⟨hall, hunloaded⟩ := h
  simp only [List.length_cons, List.map_cons, List.sum_cons, Nat.zero_add] at hall hunloaded
  by_cases hrem : b.curRem = 0#32
  · rw [occupancy_unloaded hrem] at hall hunloaded
    cases cs with
    | nil =>
      have hlast := hunloaded hrem rfl
      omega
    | cons => simp only [List.length_cons] at hall; omega
  · rw [occupancy_loaded hrem] at hall
    omega

theorem RoomFor.after_enqueue {cap : Nat} {b : AxisBank} {c : Chunk} {cs : List (Nat × Chunk)}
    (h : RoomFor cap b ((0, c) :: cs)) (hi : BankInv cap b) : RoomFor cap (b.enqueued cap c) cs := by
  have hocc := hi.occupancy_enqueued h.depth_lt c
  obtain ⟨hall, hunloaded⟩ := h
  simp only [List.length_cons, List.map_cons, List.sum_cons, Nat.zero_add] at hall hunloaded
  refine ⟨by omega, fun hrem hsum => ?_⟩
  have hroom := hunloaded hrem hsum
  omega

/-- Chunks that come while the train goes on extend it (R150). -/
theorem OnTrain.extend {a : Axis} {base : List Dir} {train : List (Option Dir)} {n : Nat} {s t : State}
    {cs : List (Nat × Chunk)} (h : OnTrain a base train n s) (hvalid : ∀ c ∈ cs.map Prod.snd, c.Valid)
    (hroom : RoomFor s.cfg.cap (s.bank a) cs) (hn : n + (cs.map Prod.fst).sum < train.length)
    (ht : execAll (lateEnqueues a cs) s = .next t) :
    OnTrain a base (train ++ chunksTrain (cs.map Prod.snd)) (n + (cs.map Prod.fst).sum) t := by
  induction cs generalizing train n s with
  | nil =>
    cases ht
    simpa [chunksTrain] using h
  | cons e cs ih =>
    obtain ⟨gap, c⟩ := e
    simp only [List.map_cons, List.sum_cons, List.mem_cons, forall_eq_or_imp] at hn hvalid
    obtain ⟨hc, hcs⟩ := hvalid
    obtain ⟨u, hu⟩ := execAll_next (List.replicate gap .tick) s
    obtain ⟨v, hv⟩ := exec_next (.enqueue a c.dir c.count c.delay) u
    simp only [lateEnqueues, execAll_append _ _ hu, execAll, hv] at ht
    obtain ⟨hon, hcfgU, hocc, hloaded⟩ := h.ticks hu
    have hroomU : RoomFor u.cfg.cap (u.bank a) ((0, c) :: cs) := by
      rw [hcfgU]
      refine hroom.after_ticks hocc (fun hgap => hloaded hgap (by omega)) fun hgap => ?_
      subst hgap
      cases hu
      rfl
    obtain ⟨honV, hcfgV, hbankV⟩ := hon.enqueue (by omega) hc hroomU.depth_lt hv
    have hroomV : RoomFor v.cfg.cap (v.bank a) cs := by
      rw [hcfgV, hbankV]
      exact hroomU.after_enqueue hon.inv
    have hend := ih honV hcs hroomV (by rw [List.length_append]; omega) ht
    simpa [chunksTrain, Nat.add_assoc] using hend

/-! ## The pulses of a train in time (R150) -/

/-- Pulse k of a chunk is entry k * delay of its train. -/
theorem stepTrain_take {N l : Nat} (hl : l ≠ 0) (d : Dir) {n : Nat} (hn : n ≤ N * l) :
    ((stepTrain N l d).take n).filterMap id = List.replicate (n / l) d := by
  induction N generalizing n with
  | zero =>
    obtain rfl : n = 0 := by omega
    simp
  | succ N ih =>
    rw [stepTrain_succ]
    by_cases hlt : n < l
    · rw [List.take_append_of_le_length (by simp; omega), List.take_replicate, Nat.div_eq_of_lt hlt]
      simp
    · obtain ⟨m, rfl⟩ := Nat.exists_eq_add_of_le (not_lt.1 hlt)
      have hm : m ≤ N * l := by rw [Nat.succ_mul] at hn; omega
      have hblock : l + m = (List.replicate (l - 1) (none : Option Dir)).length + (m + 1) := by simp; omega
      rw [hblock, List.take_length_add_append, List.take_succ_cons, List.filterMap_append, ← hblock,
        Nat.add_div_left _ (by omega), List.replicate_succ]
      simpa using ih hm

theorem timedPulses_eq {cs : List Chunk} (hvalid : ∀ c ∈ cs, c.Valid) (n : Nat) :
    ((chunksTrain cs).take n).filterMap id = timedPulses cs n := by
  induction cs generalizing n with
  | nil => simp [chunksTrain, timedPulses]
  | cons c cs ih =>
    obtain ⟨-, hdelay⟩ := (hvalid c List.mem_cons_self).toNat_ne
    have hlen := stepTrain_length c.count.toNat c.delay.toNat c.dir hdelay
    rw [chunksTrain, List.flatMap_cons, ← chunksTrain, timedPulses, List.take_append, hlen, List.filterMap_append]
    split
    · rename_i hlt
      rw [stepTrain_take hdelay c.dir hlt.le, Nat.sub_eq_zero_of_le hlt.le]
      simp
    · rename_i hge
      have hall := stepTrain_take hdelay c.dir (le_refl (c.count.toNat * c.delay.toNat))
      rw [Nat.mul_div_cancel _ (by omega), List.take_of_length_le (by omega)] at hall
      rw [List.take_of_length_le (by omega), hall, ih fun e he => hvalid e (List.mem_cons_of_mem _ he)]

theorem chunksTrain_length {cs : List Chunk} (hvalid : ∀ c ∈ cs, c.Valid) :
    (chunksTrain cs).length = totalTicks cs := by
  rw [chunksTrain, List.length_flatMap, totalTicks]
  exact congrArg List.sum (List.map_congr_left fun c hc => stepTrain_length _ _ _ (hvalid c hc).toNat_ne.2)

end Sys2Proof.Machine

namespace Sys2Proof.Proofs

open Sys2Proof.Machine

/-- Settles O29: the first ENQUEUE starts a train, the later ones extend it, and the TICKs play it. -/
theorem chunkTiming : Obligations.ChunkTiming := by
  intro s a c cs n hi hsafety hestop hpaused hidle hvalid hcap hlast
  obtain ⟨hdepth, hrem⟩ := hi.idle_empty hidle
  obtain ⟨hc, hcs⟩ := List.forall_mem_cons.1 hvalid
  have hstart : OnTrain a (s.pulses a) [] 0 s :=
    ⟨hsafety, hi, hpaused, hestop, train_of_empty hrem hdepth, by simp [hidle], by simp⟩
  have hroom : RoomFor s.cfg.cap (s.bank a) ((0, c) :: cs) :=
    roomFor_of_empty (by rw [occupancy_unloaded hrem, hdepth]) hcap
  obtain ⟨u, hu⟩ := exec_next (.enqueue a c.dir c.count c.delay) s
  obtain ⟨hfirst, hcfg, hbank⟩ := hstart.enqueue (Nat.zero_le _) hc hroom.depth_lt hu
  have hroomU : RoomFor u.cfg.cap (u.bank a) cs := by
    rw [hcfg, hbank]
    exact hroom.after_enqueue hi
  obtain ⟨v, hv⟩ := execAll_next (lateEnqueues a cs) u
  have hlate := hfirst.extend hcs hroomU
    (by simpa [stepTrain_length _ _ _ (Chunk.Valid.toNat_ne hc).2] using hlast) hv
  obtain ⟨t, ht⟩ := execAll_next (List.replicate n .tick) v
  have htrain : [] ++ stepTrain c.count.toNat c.delay.toNat c.dir ++ chunksTrain (cs.map Prod.snd) =
      chunksTrain (c :: cs.map Prod.snd) := rfl
  obtain ⟨hend, -⟩ := hlate.ticks ht
  rw [htrain, Nat.zero_add] at hend
  refine ⟨t, ?run, ?pulses, ?active⟩
  case run =>
    have hrun : execAll (lateEnqueues a ((0, c) :: cs)) s = .next v := by
      simpa [lateEnqueues, execAll, hu] using hv
    rw [execAll_append _ _ hrun, ht]
  case pulses => rw [hend.pulses, timedPulses_eq hvalid]
  case active =>
    rw [Bool.eq_iff_iff, hend.active, chunksTrain_length hvalid, decide_eq_true_iff]

end Sys2Proof.Proofs
end

section
/-!
PROOF. ESTOP_ALL (41_move_queue R181): the three ways to it run one operation, `estopAllOp`, and differ only in what
they answer.
-/

namespace Sys2Proof.Machine

/-! ## The three ways to ESTOP_ALL (R181) -/

theorem exec_estopAll (s : State) : exec .estopAll s = .next (respond .ok 0#64 (estopAllOp s)) := rfl

theorem exec_m112 (ps : List Param) (s : State) : exec (.m112 ps) s = .next (reply (ascii "OK") (estopAllOp s)) := rfl

/-- The request line runs the operation at once, whatever the foreground does, and nothing is answered. -/
theorem step_estopReq {s : State} {rest : List Action} (hcfg : s.cfg.admissible = true)
    (hsched : s.sched = .estopReq :: rest) : step s = .next (estopAllOp { s with sched := rest }) := by
  simp [step, fetch, hcfg, hsched]

end Sys2Proof.Machine

namespace Sys2Proof.Proofs

open Sys2Proof.Machine

/-- Settles O17: each way to ESTOP_ALL runs the one operation, whose writes are R181's, and appends its own answer. -/
theorem estopAllStopsBothAxes : Obligations.EstopAllStopsBothAxes := by
  refine ⟨fun s => ⟨?operation, fun ps => ?command, fun rest hcfg hsched => ?request⟩, ?word⟩
  case operation =>
    rw [exec_estopAll, estopAllOp_eq]
    rfl
  case command =>
    rw [exec_m112, estopAllOp_eq]
    rfl
  case request =>
    simp only [step_estopReq hcfg hsched, estopAllOp_eq, AxisBank.flush, List.append_nil]
  case word => rfl

end Sys2Proof.Proofs
end

section
/-!
PROOF. The Hall registers (42_rpm_estimator R221, R222): only a Hall edge writes the speed, its timestamp and
`hall_valid`, and what the first two edges write.
-/

namespace Sys2Proof.Machine

/-! ## The registers of the estimator (10_state R41, R45, R46) -/

/-- The speed, the timestamp of the last accepted edge and `hall_valid`. -/
def State.hallRegs (s : State) : Rat × BitVec 64 × Bool := (s.currentRpm, s.lastEdgeTs, s.hallValid)

theorem hallRegs_eq_iff {s t : State} : t.hallRegs = s.hallRegs ↔
    t.currentRpm = s.currentRpm ∧ t.lastEdgeTs = s.lastEdgeTs ∧ t.hallValid = s.hallValid := by
  simp [State.hallRegs]

theorem setBank_hallRegs (s : State) (a : Axis) (b : AxisBank) : (s.setBank a b).hallRegs = s.hallRegs := by
  cases a <;> rfl

theorem setLimitSw_hallRegs (s : State) (a : Axis) (level : Bool) :
    (s.setLimitSw a level).hallRegs = s.hallRegs := by
  cases a <;> rfl

/-! ## The operations that leave them alone (41_move_queue, 43_command_interpreter) -/

section

variable {s t : State}

theorem enqueueOp_hallRegs {a : Axis} {d : Dir} {n l : BitVec 32} (h : enqueueOp a d n l s = .ok t) :
    t.hallRegs = s.hallRegs := by
  obtain ⟨-, -, -, -, -, rfl⟩ := enqueueOp_ok h
  exact setBank_hallRegs _ _ _

theorem homeStart_hallRegs {a : Axis} {w : HomeCaller} (h : homeStart a w s = .ok t) : t.hallRegs = s.hallRegs := by
  obtain ⟨-, -, -, rfl⟩ := homeStart_ok h
  rfl

theorem estopAllOp_hallRegs (s : State) : (estopAllOp s).hallRegs = s.hallRegs := rfl

theorem spindleOp_hallRegs {d : SpinDir} {ps : List Param} (h : spindleOp d ps s = .ok t) :
    t.hallRegs = s.hallRegs := by
  obtain ⟨-, v, -, -, -, rfl⟩ := spindleOp_ok h
  rfl

theorem moveOp_hallRegs {ps : List Param} (h : moveOp ps s = .ok t) : t.hallRegs = s.hallRegs := by
  obtain ⟨-, -, -, y, f, -, -, -, -, hmove⟩ := moveOp_ok h
  obtain ⟨m, k, b, rfl⟩ := moveTo_ok hmove
  rfl

theorem g28Start_hallRegs {ps : List Param} (h : g28Start ps s = .ok t) : t.hallRegs = s.hallRegs := by
  unfold g28Start at h
  split at h
  · cases h
  · split at h
    · cases h
    · split at h <;> cases h
      exact homeStart_hallRegs ‹_›

theorem syncStart_hallRegs (s : State) : (syncStart s).hallRegs = s.hallRegs := by
  unfold syncStart
  split <;> rfl

theorem finish_hallRegs {r : Except ResultCode State} (h : finish s r = .next t)
    (hok : ∀ u, r = .ok u → u.hallRegs = s.hallRegs) : t.hallRegs = s.hallRegs := by
  obtain ⟨c, -, rfl⟩ | ⟨u, hu, rfl⟩ := finish_next h
  · rfl
  · exact hok u hu

theorem finishLine_hallRegs {r : Except Reason State} (h : finishLine s r = .next t)
    (hok : ∀ u, r = .ok u → u.hallRegs = s.hallRegs) : t.hallRegs = s.hallRegs := by
  obtain ⟨c, -, rfl⟩ | ⟨u, hu, rfl⟩ := finishLine_next h
  · rfl
  · exact hok u hu

theorem execHome_hallRegs {a : Axis} (h : execHome a s = .next t) : t.hallRegs = s.hallRegs := by
  unfold execHome at h
  split at h <;> cases h
  · rfl
  · exact homeStart_hallRegs ‹_›

theorem execG28_hallRegs {ps : List Param} (h : execG28 ps s = .next t) : t.hallRegs = s.hallRegs := by
  unfold execG28 at h
  split at h <;> cases h
  · rfl
  · exact g28Start_hallRegs ‹_›

theorem execG4_hallRegs {ps : List Param} (h : execG4 ps s = .next t) : t.hallRegs = s.hallRegs := by
  unfold execG4 at h
  dsimp only at h
  split at h
  · cases h; rfl
  · split at h
    · split at h <;> cases h
      · rfl
      · exact syncStart_hallRegs s
    · cases h; rfl

/-- Of the instructions only HALL_EDGE writes them. -/
theorem exec_hallRegs {i : Instr} (hi : ∀ ts, i ≠ .hallEdge ts) (h : exec i s = .next t) :
    t.hallRegs = s.hallRegs := by
  cases i
  case hallEdge ts => exact absurd rfl (hi ts)
  case tick => rw [exec_tick_eq] at h; cases h; rfl
  case enqueue a d n l => exact finish_hallRegs h fun u hu => enqueueOp_hallRegs hu
  case pause a | resume a | estop a | qstop a | clrEstop a => cases h; exact setBank_hallRegs _ _ _
  case home a => exact execHome_hallRegs h
  case isActive | queueDepth | position | getRpm | rdState | status | ping | version => cases h; rfl
  case estopAll | m112 => cases h; exact estopAllOp_hallRegs s
  case g0 ps | g1 ps => exact finishLine_hallRegs h fun u hu => moveOp_hallRegs hu
  case g28 ps => exact execG28_hallRegs h
  case g4 ps => exact execG4_hallRegs h
  case m3 ps | m4 ps => exact finishLine_hallRegs h fun u hu => spindleOp_hallRegs hu
  case m5 | m410 => cases h; rfl
  case m0 | m1 | m999 =>
    refine finishLine_hallRegs h fun u hu => ?_
    split_ifs at hu
    cases hu
    rfl

/-! ## The steps that leave them alone (41_move_queue R176, 20_memory R80) -/

theorem answerHome_hallRegs {caller : HomeCaller} {c : ResultCode} (h : answerHome caller c s = .next t) :
    t.hallRegs = s.hallRegs := by
  unfold answerHome at h
  dsimp only at h
  split at h
  · cases h; rfl
  · split at h <;> cases h
    rfl

theorem homePoll_hallRegs {a : Axis} {t0 : BitVec 64} {caller : HomeCaller}
    (h : homePoll a t0 caller s = .next t) : t.hallRegs = s.hallRegs := by
  unfold homePoll at h
  split at h
  · exact answerHome_hallRegs h
  · split at h
    · exact (answerHome_hallRegs h).trans (setBank_hallRegs _ _ _)
    · split at h
      · exact (answerHome_hallRegs h).trans (setBank_hallRegs _ _ _)
      · split at h
        · cases h; exact enqueueOp_hallRegs ‹_›
        · exact answerHome_hallRegs h

theorem pollOp_hallRegs (h : pollOp s = .next t) : t.hallRegs = s.hallRegs := by
  unfold pollOp at h
  split at h
  · cases h; rfl
  · split at h
    · exact homePoll_hallRegs h
    · cases h; rfl
  · split at h <;> cases h <;> rfl
  · split at h <;> cases h <;> rfl

theorem rejectLine_hallRegs (r : Reject) (s : State) : (rejectLine r s).hallRegs = s.hallRegs := by
  cases r <;> rfl

end

/-- The Hall registers are `r` in the state an instruction is fetched to run on, and in the next state of a step that
runs none. -/
def Fetched.HallRegs (r : Rat × BitVec 64 × Bool) : Fetched → Prop
  | .run _ u => u.hallRegs = r
  | .settled o => ∀ t, o = .next t → t.hallRegs = r

theorem Fetched.HallRegs.next {r : Rat × BitVec 64 × Bool} {t : State} (h : t.hallRegs = r) :
    (Fetched.settled (.next t)).HallRegs r := by
  rintro _ ⟨⟩
  exact h

theorem fetchHall_hallRegs (level : Bool) (s : State) : (fetchHall level s).HallRegs s.hallRegs := by
  unfold fetchHall
  split
  · exact .next rfl
  · exact rfl

theorem fetchWord_hallRegs (s : State) : (fetchWord s).HallRegs s.hallRegs := by
  unfold fetchWord
  split
  · exact .next rfl
  · split
    · exact .next rfl
    · split
      · exact rfl
      · exact .next rfl

theorem fetchLine_hallRegs (s : State) : (fetchLine s).HallRegs s.hallRegs := by
  unfold fetchLine
  split
  · exact .next rfl
  · split
    · exact .next rfl
    · split
      · exact rfl
      · exact .next (rejectLine_hallRegs _ _)

theorem fetch_hallRegs (s : State) : (fetch s).HallRegs s.hallRegs := by
  unfold fetch
  split
  · exact .next rfl
  · rename_i act rest hsched
    cases act
    case tick | hallEdge => exact rfl
    case hallLevel level => exact fetchHall_hallRegs level _
    case estopReq => exact .next (estopAllOp_hallRegs _)
    case limitSwitch a level => exact .next (setLimitSw_hallRegs _ a level)
    case clock => exact .next rfl
    case takeWord => exact fetchWord_hallRegs _
    case takeLine => exact fetchLine_hallRegs _
    case poll => exact fun t => pollOp_hallRegs

/-- Of the steps only one that runs a Hall edge writes them. -/
theorem step_hallRegs {s t : State} (hno : ∀ ts u, fetch s ≠ .run (.hallEdge ts) u) (h : step s = .next t) :
    t.hallRegs = s.hallRegs := by
  have hfetched := fetch_hallRegs s
  obtain ⟨-, ⟨i, u, hfetch, hexec⟩ | hsettled⟩ := step_next h
  · rw [hfetch] at hfetched
    have hi : ∀ ts, i ≠ .hallEdge ts := fun ts hi => hno ts u (hi ▸ hfetch)
    exact (exec_hallRegs hi hexec).trans hfetched
  · rw [hsettled] at hfetched
    exact hfetched t rfl

/-! ## What a Hall edge writes (42_rpm_estimator R221, R222) -/

theorem exec_hallEdge_first {s : State} (ts : BitVec 64) (hfirst : s.hallValid = false) :
    exec (.hallEdge ts) s = .next { s with lastEdgeTs := ts, hallValid := true } :=
  congrArg Host.Outcome.next (if_pos hfirst)

theorem exec_hallEdge_accepted {s : State} {ts : BitVec 64} (hvalid : s.hallValid = true)
    (hfloor : s.cfg.debounceTs ≤ (ts - s.lastEdgeTs).toNat) :
    exec (.hallEdge ts) s = .next { s with
      currentRpm := ema s.cfg (instRpm s.cfg (ts - s.lastEdgeTs).toNat) s.currentRpm, lastEdgeTs := ts } := by
  obtain ⟨hfirst, -⟩ | ⟨-, hbounce, -⟩ | ⟨-, -, h⟩ := hallEdgeOp_cases ts s
  · simp [hvalid] at hfirst
  · omega
  · exact congrArg Host.Outcome.next h

/-- After any edge, the first, a discarded or an accepted one, `hall_valid` is 1. -/
theorem exec_hallEdge_hallValid {s t : State} {ts : BitVec 64} (h : exec (.hallEdge ts) s = .next t) :
    t.hallValid = true := by
  cases h
  obtain ⟨-, hop⟩ | ⟨hvalid, -, hop⟩ | ⟨hvalid, -, hop⟩ := hallEdgeOp_cases ts s
  · rw [hop]
  · rwa [hop]
  · rw [hop, hvalid]

/-- While no edge has been seen, a step has not run one and the Hall registers are the old ones. -/
theorem step_hallRegs_of_unseen {s t : State} (h : step s = .next t) (hunseen : t.hallValid = false) :
    t.hallRegs = s.hallRegs := by
  refine step_hallRegs (fun ts u hfetch => ?_) h
  obtain ⟨-, ⟨i, v, hrun, hexec⟩ | hsettled⟩ := step_next h
  · rw [hfetch] at hrun
    cases hrun
    simp [exec_hallEdge_hallValid hexec] at hunseen
  · simp [hfetch] at hsettled

end Sys2Proof.Machine

namespace Sys2Proof.Proofs

open Sys2Proof.Machine

/-- Settles O34: an edge always leaves `hall_valid` at 1, and no other step writes the speed. -/
theorem firstHallEdge : Obligations.FirstHallEdge := by
  refine ⟨fun s ts => exec_hallEdge_first ts, fun s t hzero h hunseen => ?zeroUntilSeen,
    fun s t1 t2 hfirst hzero hfloor => ?firstSample⟩
  case zeroUntilSeen =>
    obtain ⟨hspeed, -, hvalid⟩ := hallRegs_eq_iff.1 (step_hallRegs_of_unseen h hunseen)
    exact hspeed.trans (hzero (hvalid.symm.trans hunseen))
  case firstSample =>
    simp only [execAll, exec_hallEdge_first t1 hfirst]
    rw [exec_hallEdge_accepted rfl hfloor, hzero]

end Sys2Proof.Proofs
end

section
/-!
PROOF. The answers of the command interpreter that leave the state alone (43_command_interpreter R264, R265, R268,
R273): PING and VERSION, and the refusals of the operations that enqueue motion. R273 holds because each of those
operations tests the SafetyState first, before its operands.
-/

namespace Sys2Proof.Machine

/-! ## PING and VERSION (43_command_interpreter R264, R265) -/

theorem exec_ping (s : State) : exec .ping s = .next (reply (ascii "PONG") s) := rfl

theorem exec_version (s : State) : exec .version s = .next (reply s.cfg.versionString s) := rfl

/-- The step `reply` makes is the whole of what `OnlyReplies` allows. -/
theorem onlyReplies_iff {i : Instr} {s : State} {text : List Byte} :
    OnlyReplies i s text ↔ exec i s = .next (reply text s) := Iff.rfl

/-! ## A raised reason is the command's only effect (43_command_interpreter R268) -/

theorem onlyReplies_g0_of_error {ps : List Param} {s : State} {r : Reason} (h : moveOp ps s = .error r) :
    OnlyReplies (.g0 ps) s (errorText r) :=
  congrArg (finishLine s) h

theorem onlyReplies_g1_of_error {ps : List Param} {s : State} {r : Reason} (h : moveOp ps s = .error r) :
    OnlyReplies (.g1 ps) s (errorText r) :=
  congrArg (finishLine s) h

theorem onlyReplies_g28_of_error {ps : List Param} {s : State} {r : Reason} (h : g28Start ps s = .error r) :
    OnlyReplies (.g28 ps) s (errorText r) := by
  rw [onlyReplies_iff]
  simp only [exec, execG28, h]

/-! ## The first test of each operation that enqueues motion (43_command_interpreter R273, 41_move_queue R170) -/

theorem moveOp_stopped (ps : List Param) {s : State}
    (h : s.safety = .emergencyStopped ∨ s.traverse.estop = true) : moveOp ps s = .error .safetyState :=
  if_pos h

theorem g28Start_not_normal (ps : List Param) {s : State} (h : s.safety ≠ .normal) :
    g28Start ps s = .error .safetyState :=
  if_pos h

theorem enqueueOp_stopped {a : Axis} (d : Dir) (n l : BitVec 32) {s : State}
    (h : s.safety = .emergencyStopped ∨ (s.bank a).estop = true) : enqueueOp a d n l s = .error .estopped :=
  if_pos h

end Sys2Proof.Machine

namespace Sys2Proof.Proofs

open Sys2Proof.Machine

/-- Settles O49: neither command tests or writes a register, so the answer is the whole step. -/
theorem pingAndVersionAnswer : Obligations.PingAndVersionAnswer :=
  fun s => ⟨onlyReplies_iff.2 (exec_ping s), onlyReplies_iff.2 (exec_version s)⟩

/-- Settles O52: the SafetyState alone decides the first test of each operation, whatever its operands. -/
theorem motionIsGated : Obligations.MotionIsGated := by
  refine fun s hstopped => ⟨fun ps => ?commands, fun a d n l => ?enqueue⟩
  case commands =>
    have hmove : moveOp ps s = .error .safetyState := moveOp_stopped ps (.inl hstopped)
    have hhome : g28Start ps s = .error .safetyState := g28Start_not_normal ps (by simp [hstopped])
    exact ⟨onlyReplies_g0_of_error hmove, onlyReplies_g1_of_error hmove, onlyReplies_g28_of_error hhome⟩
  case enqueue =>
    have henqueue : enqueueOp a d n l s = .error .estopped := enqueueOp_stopped d n l (.inl hstopped)
    exact onlyAnswers_enqueue_of_error henqueue

end Sys2Proof.Proofs
end

section
/-!
PROOF. The state after reset (70_reset_and_hazards R341) and the output levels it gives (R343). Both axes hold the same
bank, so what R341 and R343 say about an axis is said about that bank.
-/

namespace Sys2Proof.Machine

variable (cfg : Config) (now : BitVec 64) (hallIn limitSpindle limitTraverse : Bool)

/-! ## The banks (R341) -/

@[simp] theorem bank_resetWith (a : Axis) :
    (State.resetWith cfg now hallIn limitSpindle limitTraverse).bank a = AxisBank.reset := by
  cases a <;> rfl

/-! ## The output levels (R343) -/

theorem dirOut_resetWith (a : Axis) :
    (State.resetWith cfg now hallIn limitSpindle limitTraverse).dirOut a = 0#1 := by
  rw [State.dirOut, bank_resetWith]
  rfl

theorem idleOut_resetWith (a : Axis) :
    (State.resetWith cfg now hallIn limitSpindle limitTraverse).idleOut a = true := by
  rw [State.idleOut, bank_resetWith]
  rfl

theorem spinTargetOut_resetWith :
    (State.resetWith cfg now hallIn limitSpindle limitTraverse).spinTargetOut = 0 := rfl

theorem spinDirOut_resetWith :
    (State.resetWith cfg now hallIn limitSpindle limitTraverse).spinDirOut = 0#1 := rfl

end Sys2Proof.Machine

namespace Sys2Proof.Proofs

open Sys2Proof.Machine

/-- Settles O59: the registers of an axis are those of the one bank reset gives both axes, the others and `hall_prev`
are written by reset itself, and the outputs are read off them. -/
theorem resetValues : Obligations.ResetValues := by
  refine ⟨fun cfg now hallIn l1 l2 => ⟨fun a => ?axis, ?registers⟩, ?modelReset⟩
  case axis =>
    have hdir := dirOut_resetWith cfg now hallIn l1 l2 a
    have hidle := idleOut_resetWith cfg now hallIn l1 l2 a
    rw [bank_resetWith]
    exact ⟨rfl, rfl, rfl, rfl, rfl, rfl, rfl, rfl, rfl, rfl, rfl, hdir, hidle⟩
  case registers =>
    have htarget := spinTargetOut_resetWith cfg now hallIn l1 l2
    have hspin := spinDirOut_resetWith cfg now hallIn l1 l2
    exact ⟨rfl, rfl, rfl, rfl, rfl, rfl, rfl, rfl, rfl, rfl, rfl, htarget, hspin⟩
  case modelReset =>
    exact ⟨cfgT, 0#64, false, false, false, rfl⟩

end Sys2Proof.Proofs
end

section
/-!
PROOF. The round trip of the encoding (30_encoding R100 to R112). A word is its fields; a line is its tokens, each with
a blank in front of it but the first, and nothing the encoder writes is folded, split or cut.
-/

namespace Sys2Proof.Machine

/-! ## Operation words (R101, R102) -/

theorem extract_append_extract (w : BitVec (4 + 1 + 1 + 2 + 32 + 32)) :
    w.extractLsb' 68 4 ++ w.extractLsb' 67 1 ++ w.extractLsb' 66 1 ++ w.extractLsb' 64 2 ++ w.extractLsb' 32 32 ++
      w.extractLsb' 0 32 = w := by
  refine BitVec.eq_of_getLsbD_eq fun i hi => ?_
  simp only [BitVec.getLsbD_append, BitVec.getLsbD_extractLsb']
  split_ifs <;> simp <;> grind

/-- A word with rsv 0 is packed from its own fields: no bit lies outside them. -/
theorem packWord_of_fields {w : OpWord} (hrsv : rsvField w = 0#2) :
    packWord (opField w) (axisField w) (dirField w) (arg0Field w) (arg1Field w) = w := by
  rw [packWord, ← hrsv]
  exact extract_append_extract w

@[simp] theorem axisBit_axisOfBit (b : BitVec 1) : axisBit (axisOfBit b) = b := by
  obtain rfl | rfl := b.eq_zero_or_eq_one <;> rfl

theorem decodeWord_packWord_axisOp {op : BitVec 4} {f : Axis → Instr} (hmem : (op, f) ∈ axisOps) (a : Axis) :
    decodeWord (packWord op (axisBit a) 0#1 0#32 0#32) = .ok (f a) := by
  obtain ⟨hop, haxis, hdir, hrsv, harg0, harg1⟩ := packWord_fields op (axisBit a) 0#1 0#32 0#32
  rw [decodeWord_axisOp hmem hrsv hop, axisOnly, if_pos ⟨hdir, harg0, harg1⟩, haxis, axisOfBit_axisBit]

theorem decodeWord_packWord_plainOp {op : BitVec 4} {i : Instr} (hmem : (op, i) ∈ plainOps) :
    decodeWord (packWord op 0#1 0#1 0#32 0#32) = .ok i := by
  obtain ⟨hop, haxis, hdir, hrsv, harg0, harg1⟩ := packWord_fields op 0#1 0#1 0#32 0#32
  rw [decodeWord_plainOp hmem hrsv hop, noOperand, if_pos ⟨haxis, hdir, harg0, harg1⟩]

theorem decodeWord_packWord_tick : decodeWord (packWord 0xE#4 0#1 0#1 0#32 0#32) = .ok .tick := by
  decide

/-- R116: the timestamp of a HALL_EDGE stands in the two argument fields. -/
theorem decodeWord_packWord_hallEdge (ts : BitVec 64) :
    decodeWord (packWord 0xF#4 0#1 0#1 (ts.extractLsb' 32 32) (ts.extractLsb' 0 32)) = .ok (.hallEdge ts) := by
  obtain ⟨hop, haxis, hdir, hrsv, harg0, harg1⟩ :=
    packWord_fields 0xF#4 0#1 0#1 (ts.extractLsb' 32 32) (ts.extractLsb' 0 32)
  have hts : ts.extractLsb' 32 32 ++ ts.extractLsb' 0 32 = ts :=
    BitVec.extractLsb'_append_extractLsb'_eq_extractLsb' rfl |>.trans BitVec.extractLsb'_eq_self
  simp [decodeWord, hop, haxis, hdir, hrsv, harg0, harg1, hts]

theorem encode_axisOp {op : BitVec 4} {f : Axis → Instr} (hmem : (op, f) ∈ axisOps) (a : Axis) :
    encode (f a) = .word (packWord op (axisBit a) 0#1 0#32 0#32) := by
  simp only [axisOps, List.mem_cons, List.not_mem_nil, or_false, Prod.mk.injEq] at hmem
  obtain ⟨rfl, rfl⟩ | ⟨rfl, rfl⟩ | ⟨rfl, rfl⟩ | ⟨rfl, rfl⟩ | ⟨rfl, rfl⟩ | ⟨rfl, rfl⟩ | ⟨rfl, rfl⟩ | ⟨rfl, rfl⟩ |
    ⟨rfl, rfl⟩ | ⟨rfl, rfl⟩ := hmem <;> rfl

theorem encode_plainOp {op : BitVec 4} {i : Instr} (hmem : (op, i) ∈ plainOps) :
    encode i = .word (packWord op 0#1 0#1 0#32 0#32) := by
  simp only [plainOps, List.mem_cons, List.not_mem_nil, or_false, Prod.mk.injEq] at hmem
  obtain ⟨rfl, rfl⟩ | ⟨rfl, rfl⟩ := hmem <;> rfl

/-- An operation without operands that decodes has left every field but its op code zero (R103). -/
theorem packWord_of_noOperand {w : OpWord} {i j : Instr} (hrsv : rsvField w = 0#2) (h : noOperand w i = .ok j) :
    j = i ∧ packWord (opField w) 0#1 0#1 0#32 0#32 = w := by
  unfold noOperand at h
  split at h <;> cases h
  rename_i hzero
  obtain ⟨haxis, hdir, harg0, harg1⟩ := hzero
  have hpack := packWord_of_fields hrsv
  rw [haxis, hdir, harg0, harg1] at hpack
  exact ⟨rfl, hpack⟩

theorem packWord_of_axisOnly {w : OpWord} {f : Axis → Instr} {i : Instr} (hrsv : rsvField w = 0#2)
    (h : axisOnly w f = .ok i) :
    i = f (axisOfBit (axisField w)) ∧ packWord (opField w) (axisField w) 0#1 0#32 0#32 = w := by
  unfold axisOnly at h
  split at h <;> cases h
  rename_i hzero
  obtain ⟨hdir, harg0, harg1⟩ := hzero
  have hpack := packWord_of_fields hrsv
  rw [hdir, harg0, harg1] at hpack
  exact ⟨rfl, hpack⟩

/-- The operands a HALL_EDGE word carries go back into its argument fields (R116). -/
theorem encode_hallEdge (n l : BitVec 32) : encode (.hallEdge (n ++ l)) = .word (packWord 0xF#4 0#1 0#1 n l) := by
  obtain ⟨hhigh, hlow⟩ := timestamp_append_fields n l
  exact congrArg₂ (fun n l => Encoding.word (packWord 0xF#4 0#1 0#1 n l)) hhigh hlow

/-! ## The lines the encoder writes (R107, R108) -/

/-- A byte from `+` to `Z`: all that a token of the encoder holds, digits, capitals, signs and the point. -/
abbrev TokenByte (b : Byte) : Prop := 0x2B ≤ b.toNat ∧ b.toNat ≤ 0x5A

theorem TokenByte.isBlankByte_eq {b : Byte} (h : TokenByte b) : isBlankByte b = false := by
  obtain ⟨hlow, -⟩ := h
  have hsp : b ≠ byteSp := by rintro rfl; simp [byteSp] at hlow
  have htab : b ≠ byteTab := by rintro rfl; simp [byteTab] at hlow
  simp [isBlankByte, hsp, htab]

theorem TokenByte.foldByte_eq {b : Byte} (h : TokenByte b) : foldByte b = b := by
  obtain ⟨-, hhigh⟩ := h
  rw [foldByte, if_neg]
  simp only [BitVec.le_def, BitVec.toNat_ofNat]
  omega

/-- A byte the encoder writes before the LF: of a token, or the blank in front of one. -/
def LineByte (b : Byte) : Prop := b = byteSp ∨ TokenByte b

theorem LineByte.isLineByte_eq {b : Byte} (h : LineByte b) : isLineByte b = true := by
  obtain rfl | ⟨hlow, hhigh⟩ := h
  · decide
  · have hprintable : 0x20#8 ≤ b ∧ b ≤ 0x7E#8 := by simp only [BitVec.le_def, BitVec.toNat_ofNat]; omega
    simp [isLineByte, hprintable]

theorem LineByte.foldByte_eq {b : Byte} (h : LineByte b) : foldByte b = b := by
  obtain rfl | h := h
  · decide
  · exact h.foldByte_eq

theorem LineByte.ne_terminator {b : Byte} (h : LineByte b) : b ≠ byteLf ∧ b ≠ byteCr := by
  obtain rfl | ⟨hlow, -⟩ := h
  · decide
  · constructor <;> (rintro rfl; simp [byteLf, byteCr] at hlow)

theorem digit_tokenByte (d : Digit) : TokenByte (BitVec.ofNat 8 (0x30 + d.val)) := by
  simp only [TokenByte, BitVec.toNat_ofNat]
  omega

theorem letter_tokenByte (l : Letter) : TokenByte (letterByte l) := by
  simp only [letterByte, TokenByte, BitVec.toNat_ofNat]
  omega

theorem signBytes_tokenByte (s : Sign) : ∀ b ∈ signBytes s, TokenByte b := by
  cases s <;> simp [signBytes, TokenByte, bytePlus, byteMinus]

theorem digits_tokenByte (ds : List Digit) : ∀ b ∈ ds.map digitByte, TokenByte b := by
  simp only [List.mem_map, forall_exists_index, and_imp, forall_apply_eq_imp_iff₂]
  exact fun d _ => digit_tokenByte d

/-- A parameter without the blank in front of it. -/
def paramToken (p : Param) : List Byte := letterByte p.letter :: encodeNumber p.num

theorem encodeNumber_tokenByte (n : Number) : ∀ b ∈ encodeNumber n, TokenByte b := by
  simp only [encodeNumber, List.mem_append]
  rintro b ((hsign | hwhole) | hfrac)
  · exact signBytes_tokenByte _ b hsign
  · exact digits_tokenByte _ b hwhole
  · split at hfrac
    · cases hfrac
    · obtain rfl | hfrac := List.mem_cons.1 hfrac
      · decide
      · exact digits_tokenByte _ b hfrac

theorem paramToken_tokenByte (p : Param) : ∀ b ∈ paramToken p, TokenByte b :=
  List.forall_mem_cons.2 ⟨letter_tokenByte _, encodeNumber_tokenByte _⟩

/-- The encoder spells a well-formed number by the grammar of R108. -/
theorem encodeNumber_spells {n : Number} (h : n.wellFormed = true) : SpellsNumber (encodeNumber n) n := by
  simp only [Number.wellFormed, Bool.and_eq_true, decide_eq_true_eq] at h
  obtain ⟨hwhole, hdigits⟩ := h
  refine ⟨signBytes n.sign, n.whole.map digitByte, _, rfl, ?sign, rfl, hwhole, ?frac, hdigits⟩
  case sign => cases n.sign <;> rfl
  case frac =>
    split
    · rfl
    · exact ⟨_, rfl, rfl⟩

theorem paramTokens_spell {ps : List Param} (h : ∀ p ∈ ps, p.num.wellFormed = true) :
    List.Forall₂ SpellsParam (ps.map paramToken) ps := by
  rw [List.forall₂_map_left_iff, List.forall₂_same]
  exact fun p hp => ⟨_, rfl, encodeNumber_spells (h p hp)⟩

/-! ## Splitting what the encoder joined (R108) -/

/-- A line of tokens: a blank in front of each but the first. -/
def joinTokens (t : List Byte) (us : List (List Byte)) : List Byte := t ++ us.flatMap (byteSp :: ·)

theorem foldr_tokenStep_token {t : List Byte} (h : ∀ b ∈ t, isBlankByte b = false)
    (acc : List Byte × List (List Byte)) : t.foldr tokenStep acc = (t ++ acc.1, acc.2) := by
  induction t with
  | nil => rfl
  | cons b t ih =>
    obtain ⟨hb, ht⟩ := List.forall_mem_cons.1 h
    simp [ih ht, tokenStep, hb]

theorem foldr_tokenStep_joined {us : List (List Byte)} (h : ∀ u ∈ us, u ≠ [] ∧ ∀ b ∈ u, isBlankByte b = false) :
    (us.flatMap (byteSp :: ·)).foldr tokenStep ([], []) = ([], us) := by
  induction us with
  | nil => rfl
  | cons u us ih =>
    obtain ⟨⟨hne, hu⟩, hus⟩ := List.forall_mem_cons.1 h
    simp [ih hus, foldr_tokenStep_token hu, tokenStep, isBlankByte, hne]

theorem tokens_joinTokens {t : List Byte} {us : List (List Byte)} (hne : t ≠ []) (ht : ∀ b ∈ t, TokenByte b)
    (hus : ∀ u ∈ us, u ≠ [] ∧ ∀ b ∈ u, TokenByte b) : tokens (joinTokens t us) = t :: us := by
  have hblank {u : List Byte} (hu : ∀ b ∈ u, TokenByte b) : ∀ b ∈ u, isBlankByte b = false :=
    fun b hb => (hu b hb).isBlankByte_eq
  simp [tokens, joinTokens, foldr_tokenStep_joined fun u hu => (hus u hu).imp_right hblank,
    foldr_tokenStep_token (hblank ht), hne]

theorem joinTokens_lineByte {t : List Byte} {us : List (List Byte)} (ht : ∀ b ∈ t, TokenByte b)
    (hus : ∀ u ∈ us, ∀ b ∈ u, TokenByte b) : ∀ b ∈ joinTokens t us, LineByte b := by
  simp only [joinTokens, List.mem_append, List.mem_flatMap, List.mem_cons]
  rintro b (hb | ⟨u, hu, rfl | hb⟩)
  · exact .inr (ht b hb)
  · exact .inl rfl
  · exact .inr (hus u hu b hb)

/-! ## Decoding a line of tokens (R107) -/

theorem cutLine_append_lf {l : List Byte} (h : byteLf ∉ l) (rest : List Byte) :
    cutLine (l ++ byteLf :: rest) = some (l, rest) := by
  induction l with
  | nil => simp [cutLine]
  | cons b l ih =>
    obtain ⟨hb, hl⟩ := List.ne_and_not_mem_of_not_mem_cons h
    simp [cutLine, ih hl, Ne.symm hb]

theorem dropCr_of_not_mem {l : List Byte} (h : byteCr ∉ l) : dropCr l = l :=
  if_neg fun hlast => h (List.mem_of_getLast? hlast)

/-- A line of the encoder's tokens decodes to what its tokens decode to. -/
theorem decode_joinTokens {lineMax : Nat} {t : List Byte} {us : List (List Byte)} (hne : t ≠ [])
    (ht : ∀ b ∈ t, TokenByte b) (hus : ∀ u ∈ us, u ≠ [] ∧ ∀ b ∈ u, TokenByte b)
    (hlen : (joinTokens t us).length ≤ lineMax) :
    decode lineMax (.line (joinTokens t us ++ [byteLf])) = decodeTokens (t :: us) := by
  have hbytes : ∀ b ∈ joinTokens t us, LineByte b := joinTokens_lineByte ht fun u hu => (hus u hu).2
  have hcut := cutLine_append_lf (fun hlf => (hbytes _ hlf).ne_terminator.1 rfl) ([] : List Byte)
  have hcr : dropCr (joinTokens t us) = joinTokens t us := dropCr_of_not_mem fun hcr => (hbytes _ hcr).ne_terminator.2 rfl
  have hblank : ¬(joinTokens t us).all isBlankByte = true := by
    obtain ⟨b, t, rfl⟩ := List.exists_cons_of_ne_nil hne
    simp [joinTokens, (ht b List.mem_cons_self).isBlankByte_eq]
  have hprintable : (joinTokens t us).all isLineByte = true := List.all_eq_true.2 fun b hb => (hbytes b hb).isLineByte_eq
  have hfold : (joinTokens t us).map foldByte = joinTokens t us :=
    (List.map_congr_left fun b hb => (hbytes b hb).foldByte_eq).trans (List.map_id _)
  simp only [decode, hcut, decodeLine, hcr, if_neg hblank, if_neg (not_lt.2 hlen), hprintable, hfold,
    tokens_joinTokens hne ht hus]
  rfl

theorem encodeLine_eq (head : List Byte) (ps : List Param) :
    encodeLine head ps = .line (joinTokens head (ps.map paramToken) ++ [byteLf]) := by
  simp only [encodeLine, joinTokens, List.flatMap_map]
  rfl

theorem joinTokens_length (head : List Byte) (ps : List Param) :
    (joinTokens head (ps.map paramToken)).length = head.length + paramsLength ps := by
  rw [joinTokens, List.length_append, ← Laws.encodeParams_length, List.flatMap_map]
  rfl

theorem decode_encodeLine {lineMax : Nat} {head : List Byte} {ps : List Param} (hne : head ≠ [])
    (hhead : ∀ b ∈ head, TokenByte b) (hlen : head.length + paramsLength ps ≤ lineMax) :
    decode lineMax (encodeLine head ps) = decodeTokens (head :: ps.map paramToken) := by
  rw [encodeLine_eq]
  refine decode_joinTokens hne hhead ?_ (joinTokens_length head ps ▸ hlen)
  rw [List.forall_mem_map]
  exact fun p _ => ⟨List.cons_ne_nil _ _, paramToken_tokenByte p⟩

theorem decode_command {lineMax : Nat} {head : List Byte} {l : Letter} {ds : List Digit} {ps : List Param} {i : Instr}
    (hhead : ∀ b ∈ head, TokenByte b) (hkey : keywordOf head = none) (htoken : parseCmdToken head = some (l, ds))
    (hselect : selectCommand l (natOfDigits ds) ps = .ok i) (hparams : paramsWellFormed ps = true)
    (hlen : head.length + paramsLength ps ≤ lineMax) : decode lineMax (encodeLine head ps) = .ok i := by
  simp only [paramsWellFormed, Bool.and_eq_true, List.all_eq_true, decide_eq_true_eq] at hparams
  obtain ⟨hnumbers, hletters⟩ := hparams
  have hne : head ≠ [] := by rintro rfl; cases htoken
  have hparse := (Laws.parseParams_eq_some_iff _ _).2 (paramTokens_spell hnumbers)
  simp only [decode_encodeLine hne hhead hlen, decodeTokens, hkey, htoken, hparse, if_pos hletters, hselect]

end Sys2Proof.Machine

namespace Sys2Proof.Proofs

open Sys2Proof.Machine

/-- Settles O1: a word gives its fields back, a line its tokens, and they select the instruction they were written
for. -/
theorem decodeInvertsEncode : Obligations.DecodeInvertsEncode := by
  intro lineMax i h
  rw [Instr.wellFormed, Bool.and_eq_true, decide_eq_true_iff] at h
  obtain ⟨hparams, hlen⟩ := h
  cases i
  case enqueue a d n l =>
    obtain ⟨hop, haxis, hdir, hrsv, harg0, harg1⟩ := packWord_fields 0x1#4 (axisBit a) (dirBit d) n l
    simp [encode, decode, decodeWord, hop, haxis, hdir, hrsv, harg0, harg1]
  case pause a | resume a | estop a | home a | isActive a | queueDepth a | position a | qstop a | clrEstop a |
      rdState a =>
    exact decodeWord_packWord_axisOp (by simp [axisOps]) a
  case getRpm | estopAll => exact decodeWord_packWord_plainOp (by simp [plainOps])
  case tick => exact decodeWord_packWord_tick
  case hallEdge ts => exact decodeWord_packWord_hallEdge ts
  case g0 ps | g1 ps | g28 ps | g4 ps | m3 ps | m4 ps | m5 ps | m0 ps | m1 ps | m112 ps | m410 ps | m999 ps =>
    exact decode_command (by decide) (by decide) (by rfl) (by rfl) hparams hlen
  case status | ping | version =>
    exact (decode_encodeLine (ps := []) (by decide) (by decide) hlen).trans (by decide)

/-- Settles O2: R103 asks every unused field to be zero, so the used ones are the whole word. -/
theorem encodeInvertsDecodeWord : Obligations.EncodeInvertsDecodeWord := by
  intro w i h
  cases wordForm w with
  | reserved hrsv hdec | noOp hrsv hop hdec => cases hdec.symm.trans h
  | enqueue hrsv hop hdec =>
    cases hdec.symm.trans h
    simp only [encode, axisBit_axisOfBit, dirBit_dirOfBit]
    rw [← hop, packWord_of_fields hrsv]
  | axisOp op f hmem hrsv hop hdec =>
    obtain ⟨rfl, hpack⟩ := packWord_of_axisOnly hrsv (hdec.symm.trans h)
    rw [encode_axisOp hmem, axisBit_axisOfBit, ← hop, hpack]
  | plainOp op j hmem hrsv hop hdec =>
    obtain ⟨rfl, hpack⟩ := packWord_of_noOperand hrsv (hdec.symm.trans h)
    rw [encode_plainOp hmem, ← hop, hpack]
  | tick hrsv hop hdec =>
    obtain ⟨rfl, hpack⟩ := packWord_of_noOperand hrsv (hdec.symm.trans h)
    rw [encode, ← hop, hpack]
  | hallEdge hrsv hop hdec =>
    have hok := hdec.symm.trans h
    split at hok <;> cases hok
    rename_i hzero
    obtain ⟨haxis, hdir⟩ := hzero
    have hpack := packWord_of_fields hrsv
    rw [hop, haxis, hdir] at hpack
    rw [encode_hallEdge, hpack]

end Sys2Proof.Proofs
end

section
/-!
PROOF. The line decoder held against the grammar of R107 to R111: which tokens are a command, which command each is, and
how the lines that are none are answered (43_command_interpreter R266).
-/

namespace Sys2Proof.Machine

/-! ## The lines of a byte stream (R107) -/

theorem cutLine_eq_some_iff {bs l after : List Byte} :
    cutLine bs = some (l, after) ↔ bs = l ++ byteLf :: after ∧ byteLf ∉ l := by
  constructor
  · intro h
    induction bs generalizing l with
    | nil => cases h
    | cons b bs ih =>
      simp only [cutLine] at h
      split at h
      · cases h
        subst b
        simp
      · split at h <;> cases h
        rename_i hb _ _ hcut
        obtain ⟨rfl, hl⟩ := ih hcut
        exact ⟨rfl, List.not_mem_cons_of_ne_of_not_mem (Ne.symm hb) hl⟩
  · rintro ⟨rfl, hl⟩
    exact cutLine_append_lf hl after

theorem cutLine_eq_none_iff {bs : List Byte} : cutLine bs = none ↔ byteLf ∉ bs := by
  constructor
  · intro h hmem
    obtain ⟨l, after, rfl, hl⟩ := List.eq_append_cons_of_mem hmem
    simp [cutLine_append_lf hl] at h
  · intro h
    cases hcut : cutLine bs with
    | none => rfl
    | some p => simp [(cutLine_eq_some_iff.1 hcut).1] at h

theorem dropCr_eq {l body : List Byte} (h : l = body ++ [byteCr] ∨ (l = body ∧ body.getLast? ≠ some byteCr)) :
    dropCr l = body := by
  obtain rfl | ⟨rfl, hlast⟩ := h
  · simp [dropCr]
  · exact if_neg hlast

theorem isBlankByte_iff (b : Byte) : isBlankByte b = true ↔ b = 0x20#8 ∨ b = 0x09#8 := by
  simp [isBlankByte, byteSp, byteTab]

theorem isLineByte_iff (b : Byte) : isLineByte b = true ↔ 0x20 ≤ b.toNat ∧ b.toNat ≤ 0x7E ∨ b = 0x09#8 := by
  simp [isLineByte, BitVec.le_def, byteTab]

/-! ## The tables (R110, R111) -/

theorem selectCommand_of_mem {l : Letter} {n : Nat} {e : (Letter × Nat) × (List Param → Instr)}
    (hmem : e ∈ commandTable) (he : e.1 = (l, n)) (ps : List Param) : selectCommand l n ps = .ok (e.2 ps) := by
  simp only [commandTable, List.mem_cons, List.not_mem_nil, or_false] at hmem
  obtain rfl | rfl | rfl | rfl | rfl | rfl | rfl | rfl | rfl | rfl | rfl | rfl := hmem <;> cases he <;> rfl

theorem selectCommand_of_not_mem {l : Letter} {n : Nat} (h : ∀ e ∈ commandTable, e.1 ≠ (l, n)) (ps : List Param) :
    selectCommand l n ps = .error .unknownCommand := by
  simp only [commandTable, List.forall_mem_cons, Prod.mk.injEq, not_and, ne_eq] at h
  obtain ⟨g0, g1, g4, g28, m0, m1, m3, m4, m5, m112, m410, m999, -⟩ := h
  unfold selectCommand
  split_ifs <;> simp_all [letterG, letterM]

theorem selectCommand_ok {l : Letter} {n : Nat} {ps : List Param} {i : Instr} (h : selectCommand l n ps = .ok i) :
    ∃ e ∈ commandTable, e.1 = (l, n) ∧ i = e.2 ps := by
  by_contra hno
  by_cases hmem : ∀ e ∈ commandTable, e.1 ≠ (l, n)
  · cases (selectCommand_of_not_mem hmem ps).symm.trans h
  · push Not at hmem
    obtain ⟨e, he, heq⟩ := hmem
    cases (selectCommand_of_mem he heq ps).symm.trans h
    exact hno ⟨e, he, heq, rfl⟩

theorem keywordOf_eq_some_iff {t : List Byte} {i : Instr} : keywordOf t = some i ↔ (t, i) ∈ keywordTable := by
  have hdistinct : ascii "PING" ≠ ascii "STATUS" ∧ ascii "VERSION" ≠ ascii "STATUS" ∧
    ascii "VERSION" ≠ ascii "PING" := by decide
  simp only [keywordTable, List.mem_cons, List.not_mem_nil, or_false, Prod.mk.injEq]
  unfold keywordOf
  split_ifs <;> simp_all [eq_comm]

/-- No keyword is a command token: its second character is no digit. -/
theorem parseCmdToken_keyword {t : List Byte} {i : Instr} (h : keywordOf t = some i) : parseCmdToken t = none := by
  rw [keywordOf_eq_some_iff] at h
  simp only [keywordTable, List.mem_cons, List.not_mem_nil, or_false, Prod.mk.injEq] at h
  obtain ⟨rfl, -⟩ | ⟨rfl, -⟩ | ⟨rfl, -⟩ := h <;> decide

/-! ## The tokens of a line (R108) -/

theorem decodeTokens_keyword {t : List Byte} {i : Instr} (h : keywordOf t = some i) : decodeTokens [t] = .ok i := by
  simp [decodeTokens, h]

theorem decodeTokens_command {ts : List (List Byte)} {l : Letter} {n : Nat} {ps : List Param}
    (h : CommandLine ts l n ps) : decodeTokens ts = selectCommand l n ps := by
  obtain ⟨t, us, rfl, hcmd, hparams, hletters⟩ := h
  obtain ⟨ds, htoken, rfl⟩ := (Laws.parseCmdToken_eq_some_iff t l n).2 hcmd
  have hkey : keywordOf t = none := by
    cases hkey : keywordOf t with
    | none => rfl
    | some i => cases (parseCmdToken_keyword hkey).symm.trans htoken
  simp only [decodeTokens, hkey, htoken, (Laws.parseParams_eq_some_iff us ps).2 hparams, if_pos hletters]

/-- Tokens are a keyword alone, a command token with parameters, or malformed. -/
theorem decodeTokens_cases {ts : List (List Byte)} (hne : ts ≠ []) :
    (∃ t i, ts = [t] ∧ keywordOf t = some i) ∨ (∃ l n ps, CommandLine ts l n ps) ∨
      decodeTokens ts = .error .malformed := by
  obtain ⟨t, us, rfl⟩ := List.exists_cons_of_ne_nil hne
  cases hkey : keywordOf t with
  | some i =>
    by_cases hus : us = []
    · exact .inl ⟨t, i, by rw [hus], hkey⟩
    · exact .inr (.inr (by simp [decodeTokens, hkey, hus]))
  | none =>
    refine .inr ?_
    simp only [decodeTokens, hkey]
    split
    · rename_i l ds ps htoken hparams
      split
      · exact .inl ⟨l, natOfDigits ds, ps, t, us, rfl, (Laws.parseCmdToken_eq_some_iff _ _ _).1 ⟨ds, htoken, rfl⟩,
          (Laws.parseParams_eq_some_iff _ _).1 hparams, ‹_›⟩
      · exact .inr rfl
    · exact .inr rfl

theorem decodeTokens_ok {ts : List (List Byte)} {i : Instr} (h : decodeTokens ts = .ok i) :
    (∃ t, ts = [t] ∧ keywordOf t = some i) ∨ ∃ l n ps, CommandLine ts l n ps ∧ selectCommand l n ps = .ok i := by
  have hne : ts ≠ [] := by rintro rfl; cases h
  obtain ⟨t, j, rfl, hkey⟩ | ⟨l, n, ps, hcmd⟩ | hbad := decodeTokens_cases hne
  · cases (decodeTokens_keyword hkey).symm.trans h
    exact .inl ⟨t, rfl, hkey⟩
  · exact .inr ⟨l, n, ps, hcmd, (decodeTokens_command hcmd).symm.trans h⟩
  · cases hbad.symm.trans h

theorem foldr_tokenStep_eq_nil {l : List Byte} (h : l.foldr tokenStep ([], []) = ([], [])) :
    ∀ b ∈ l, isBlankByte b = true := by
  induction l with
  | nil => simp
  | cons b l ih =>
    rw [List.foldr_cons, tokenStep] at h
    split at h
    · obtain ⟨-, htokens⟩ := Prod.mk.inj h
      split at htokens
      · exact List.forall_mem_cons.2 ⟨‹_›, ih (Prod.ext ‹_› htokens)⟩
      · cases htokens
    · cases h

theorem tokens_eq_nil {l : List Byte} (h : tokens l = []) : ∀ b ∈ l, isBlankByte b = true := by
  unfold tokens at h
  dsimp only at h
  split at h
  · exact foldr_tokenStep_eq_nil (Prod.ext ‹_› h)
  · cases h

theorem isBlankByte_foldByte : ∀ b : Byte, isBlankByte (foldByte b) = isBlankByte b := by
  decide +kernel

theorem lineTokens_ne_nil {body : List Byte} (h : ¬∀ b ∈ body, isBlankByte b = true) : lineTokens body ≠ [] := by
  intro hnil
  rw [← Laws.tokens_map_foldByte] at hnil
  have hblank := tokens_eq_nil hnil
  simp only [List.forall_mem_map, isBlankByte_foldByte] at hblank
  exact h hblank

/-! ## A line (R107) -/

/-- The tests of a line in their order. -/
theorem decodeLine_eq (lineMax : Nat) (l : List Byte) : decodeLine lineMax l =
    if ∀ b ∈ dropCr l, b = 0x20#8 ∨ b = 0x09#8 then .error .blank
    else if lineMax < (dropCr l).length ∨ ∃ b ∈ dropCr l, ¬(0x20 ≤ b.toNat ∧ b.toNat ≤ 0x7E ∨ b = 0x09#8) then
      .error .malformed
    else decodeTokens (lineTokens (dropCr l)) := by
  simp only [decodeLine, List.all_eq_true, isBlankByte_iff, Laws.tokens_map_foldByte]
  refine if_congr Iff.rfl rfl ?_
  simp only [← isLineByte_iff]
  by_cases hlong : lineMax < (dropCr l).length <;> simp [hlong]

/-- A line's answer where it is taken (43 R266). -/
theorem step_takeLine_rejected {s : State} {rest : List Action} {l after : List Byte} {r : Reject}
    (hcfg : s.cfg.admissible = true) (hfg : s.fg = .idle) (hsched : s.sched = .takeLine :: rest)
    (hcut : cutLine s.rx = some (l, after)) (hdec : decodeLine s.cfg.lineMax l = .error r) :
    step s = .next (rejectLine r { s with sched := rest, rx := after }) := by
  simp [step, fetch, fetchLine, hcfg, hfg, hsched, hcut, hdec]

/-! ## What a decoded line takes (R107 to R110) -/

theorem SpellsNumber.length {t : List Byte} {n : Number} (h : SpellsNumber t n) : t.length = n.spelledLength := by
  obtain ⟨sign, whole, frac, rfl, hsign, hwhole, -, hfrac, -⟩ := h
  have hs : sign.length = if n.sign = .none then 0 else 1 := by
    cases hcase : n.sign <;> simp only [hcase] at hsign <;> simp [hsign]
  have hw : whole.length = n.whole.length := by rw [hwhole, List.length_map]
  have hf : frac.length = if n.frac = [] then 0 else 1 + n.frac.length := by
    split at hfrac
    · simp [*]
    · obtain ⟨digits, rfl, rfl⟩ := hfrac
      simp [*, Nat.add_comm]
  simp only [List.length_append, hs, hw, hf, Number.spelledLength]

theorem SpellsNumber.wellFormed {t : List Byte} {n : Number} (h : SpellsNumber t n) : n.wellFormed = true := by
  obtain ⟨-, -, -, -, -, -, hwhole, -, hdigits⟩ := h
  simp [Number.wellFormed, hwhole, hdigits]

theorem paramTokens_wellFormed {us : List (List Byte)} {ps : List Param} (h : List.Forall₂ SpellsParam us ps) :
    (∀ p ∈ ps, p.num.wellFormed = true) ∧ (us.map fun u => 1 + u.length).sum = paramsLength ps := by
  induction h with
  | nil => exact ⟨nofun, rfl⟩
  | cons hu _ ih =>
    obtain ⟨number, rfl, hnumber⟩ := hu
    obtain ⟨hwf, hlen⟩ := ih
    refine ⟨List.forall_mem_cons.2 ⟨hnumber.wellFormed, hwf⟩, ?_⟩
    simp only [List.map_cons, List.sum_cons, paramsLength, List.length_cons, hnumber.length] at hlen ⊢
    omega

/-- A line is at least as long as its tokens with a blank between any two. -/
theorem foldr_tokenStep_length (l : List Byte) :
    (l.foldr tokenStep ([], [])).1.length + ((l.foldr tokenStep ([], [])).2.map fun u => 1 + u.length).sum ≤
      l.length := by
  induction l with
  | nil => simp
  | cons b l ih =>
    rw [List.foldr_cons, tokenStep]
    split
    · split
      · simp_all; omega
      · simp only [List.length_nil, List.map_cons, List.sum_cons, List.length_cons]; omega
    · simp only [List.length_cons]; omega

theorem tokens_length {l t : List Byte} {us : List (List Byte)} (h : tokens l = t :: us) :
    t.length + (us.map fun u => 1 + u.length).sum ≤ l.length := by
  have hall := foldr_tokenStep_length l
  unfold tokens at h
  dsimp only at h
  split at h
  · rw [h] at hall
    simp only [List.map_cons, List.sum_cons] at hall
    omega
  · obtain ⟨rfl, rfl⟩ := List.cons.inj h
    exact hall

theorem natOfDigits_lt (ds : List Digit) : natOfDigits ds < 10 ^ ds.length := by
  rw [Laws.natOfDigits_eq]
  refine (Nat.ofDigits_lt_base_pow_length (by decide) ?_).trans_eq (by simp)
  simp only [List.mem_map, forall_exists_index, and_imp, forall_apply_eq_imp_iff₂]
  exact fun d _ => d.isLt

/-- A command's own spelling is its letter and as many digits as its integer has. -/
theorem commandTable_headLength (ps : List Param) : ∀ e ∈ commandTable,
    (e.2 ps).params = ps ∧ ((e.2 ps).headLength = 2 ∨ 10 ^ ((e.2 ps).headLength - 2) ≤ e.1.2) := by
  simp [commandTable, Instr.params, Instr.headLength]

theorem SpellsCommand.headLength_le {t : List Byte} {l : Letter} {n : Nat} (h : SpellsCommand t l n) {k : Nat}
    (hk : k = 2 ∨ 10 ^ (k - 2) ≤ n) : k ≤ t.length := by
  obtain ⟨digits, ds, rfl, hdigits, hne, -, rfl⟩ := h
  have hlen : digits.length = ds.length := by rw [hdigits, List.length_map]
  have hpos : 0 < ds.length := List.length_pos_iff.2 hne
  rw [List.length_cons, hlen]
  obtain rfl | hk := hk
  · omega
  · have hlt := (hk.trans_lt (Laws.natOfDigits_eq ds ▸ natOfDigits_lt ds))
    have := (Nat.pow_lt_pow_iff_right (by decide)).1 hlt
    omega

theorem CommandLine.wellFormed {body : List Byte} {l : Letter} {n : Nat} {ps : List Param} {i : Instr}
    (h : CommandLine (tokens body) l n ps) (hi : selectCommand l n ps = .ok i) {lineMax : Nat}
    (hlen : body.length ≤ lineMax) : i.wellFormed lineMax = true := by
  obtain ⟨t, us, htokens, hcmd, hparams, hletters⟩ := h
  obtain ⟨e, hmem, he, rfl⟩ := selectCommand_ok hi
  obtain ⟨hps, hdigits⟩ := commandTable_headLength ps e hmem
  obtain ⟨hwf, hsum⟩ := paramTokens_wellFormed hparams
  have hhead : (e.2 ps).headLength ≤ t.length := hcmd.headLength_le (by simpa [he] using hdigits)
  have htotal := tokens_length htokens
  simp only [Instr.wellFormed, Instr.spelledLength, hps, paramsWellFormed, Bool.and_eq_true, List.all_eq_true,
    decide_eq_true_eq]
  exact ⟨⟨hwf, hletters⟩, by omega⟩

theorem keyword_wellFormed {body t : List Byte} {i : Instr} (htokens : tokens body = [t]) (h : keywordOf t = some i)
    {lineMax : Nat} (hlen : body.length ≤ lineMax) : i.wellFormed lineMax = true := by
  have htotal := tokens_length htokens
  rw [keywordOf_eq_some_iff] at h
  simp only [keywordTable, List.mem_cons, List.not_mem_nil, or_false, Prod.mk.injEq] at h
  have hfits : i.params = [] ∧ i.headLength = t.length := by
    obtain ⟨rfl, rfl⟩ | ⟨rfl, rfl⟩ | ⟨rfl, rfl⟩ := h <;> decide
  obtain ⟨hps, hhead⟩ := hfits
  simp only [List.map_nil, List.sum_nil] at htotal
  simp [Instr.wellFormed, Instr.spelledLength, hps, hhead, paramsWellFormed, paramsLength]
  omega

theorem decodeLine_wellFormed {lineMax : Nat} {l : List Byte} {i : Instr} (h : decodeLine lineMax l = .ok i) :
    i.wellFormed lineMax = true := by
  rw [decodeLine_eq] at h
  split at h
  · cases h
  · split at h
    · cases h
    · rename_i hgood
      have hlen : ((dropCr l).map foldByte).length ≤ lineMax := by
        rw [List.length_map]
        exact not_lt.1 fun hlong => hgood (.inl hlong)
      rw [← Laws.tokens_map_foldByte] at h
      obtain ⟨t, htokens, hkey⟩ | ⟨c, n, ps, hcmd, hselect⟩ := decodeTokens_ok h
      · exact keyword_wellFormed htokens hkey hlen
      · exact hcmd.wellFormed hselect hlen

/-- An operation word has no parameters and takes no bytes of a line. -/
theorem wellFormed_of_word {i : Instr} {w : OpWord} (h : encode i = .word w) (lineMax : Nat) :
    i.wellFormed lineMax = true := by
  cases i
  case enqueue | pause | resume | estop | home | isActive | queueDepth | position | getRpm | qstop | clrEstop |
      rdState | estopAll | tick | hallEdge =>
    simp [Instr.wellFormed, Instr.params, Instr.spelledLength, Instr.headLength, paramsWellFormed, paramsLength]
  all_goals cases h

end Sys2Proof.Machine

namespace Sys2Proof.Proofs

open Sys2Proof.Machine

/-- Settles O3: a word has no line to fit in; a line is as long as its tokens, and they were spelled by the grammar. -/
theorem decodedInstructionIsWellFormed : Obligations.DecodedInstructionIsWellFormed := by
  intro lineMax e i h
  cases e with
  | word w => exact wellFormed_of_word (encodeInvertsDecodeWord w i h) lineMax
  | line bytes =>
    simp only [decode] at h
    split at h
    · cases h
    · exact decodeLine_wellFormed h

/-- Settles O10: the tests of a line in their order, and its tokens read by the grammar. -/
theorem rejectedLinesAreAnswered : Obligations.RejectedLinesAreAnswered := by
  refine ⟨fun lineMax body l hl => ?line, fun s rest l after hcfg hfg hsched hcut => ?answer⟩
  case line =>
    rw [decodeLine_eq, dropCr_eq hl]
    split
    · rfl
    · rename_i hvisible
      simp only [← isBlankByte_iff] at hvisible
      split
      · rfl
      · refine ⟨fun e he htokens => ?keyword, fun c n ps hcmd => ⟨fun e he heq => ?command, fun hno => ?unknown⟩,
          fun hkey hcmd => ?malformed⟩
        case keyword => rw [htokens, decodeTokens_keyword (keywordOf_eq_some_iff.2 he)]
        case command => rw [decodeTokens_command hcmd, selectCommand_of_mem he heq]
        case unknown => rw [decodeTokens_command hcmd, selectCommand_of_not_mem hno]
        case malformed =>
          obtain ⟨t, i, htokens, hword⟩ | ⟨c, n, ps, hline⟩ | hbad := decodeTokens_cases (lineTokens_ne_nil hvisible)
          · exact absurd htokens (hkey _ (keywordOf_eq_some_iff.1 hword))
          · exact absurd hline (hcmd c n ps)
          · exact hbad
  case answer =>
    obtain ⟨hrx, hno⟩ := cutLine_eq_some_iff.1 hcut
    exact ⟨hrx, hno, fun h => step_takeLine_rejected hcfg hfg hsched hcut h,
      fun h => step_takeLine_rejected hcfg hfg hsched hcut h, fun h => step_takeLine_rejected hcfg hfg hsched hcut h⟩

end Sys2Proof.Proofs
end

section
/-!
PROOF. What a step can do, said once (00_scope R6, 10_state R54): the writes of an instruction before it answers, the
answer it appends, the writes of a poll, and the steps that touch only ports and inputs. The statements about whole
steps are read off these lists.
-/

namespace Sys2Proof.Machine

/-! ## Ports, inputs and the output history (10_state R48, R49) -/

/-- `s` with the ports, the input levels, the schedule and the output history of `t`. -/
def State.withPorts (s t : State) : State := { s with
  opPort := t.opPort, rx := t.rx, sched := t.sched, hallIn := t.hallIn, hallPrev := t.hallPrev
  limitSpindle := t.limitSpindle, limitTraverse := t.limitTraverse, history := t.history }

/-- No register is written. -/
def OnlyPorts (s t : State) : Prop := t = s.withPorts t

theorem OnlyPorts.refl (s : State) : OnlyPorts s s := rfl

theorem OnlyPorts.trans {s t u : State} (h : OnlyPorts s t) (k : OnlyPorts t u) : OnlyPorts s u := by
  rw [OnlyPorts, k, h]
  rfl

theorem onlyPorts_reply (s : State) (text : List Byte) : OnlyPorts s (reply text s) := rfl

theorem onlyPorts_setLimitSw (s : State) (a : Axis) (level : Bool) : OnlyPorts s (s.setLimitSw a level) := by
  cases a <;> rfl

section

variable {s t : State} (h : OnlyPorts s t)

include h

theorem OnlyPorts.cfg : t.cfg = s.cfg := by rw [h]; rfl
theorem OnlyPorts.bank (a : Axis) : t.bank a = s.bank a := by rw [h]; cases a <;> rfl
theorem OnlyPorts.safety : t.safety = s.safety := by rw [h]; rfl
theorem OnlyPorts.feed : t.feed = s.feed := by rw [h]; rfl
theorem OnlyPorts.now : t.now = s.now := by rw [h]; rfl
theorem OnlyPorts.fg : t.fg = s.fg := by rw [h]; rfl
theorem OnlyPorts.currentRpm : t.currentRpm = s.currentRpm := by rw [h]; rfl
theorem OnlyPorts.targetRpm : t.targetRpm = s.targetRpm := by rw [h]; rfl
theorem OnlyPorts.spinDir : t.spinDir = s.spinDir := by rw [h]; rfl
theorem OnlyPorts.brakeEngaged : t.brakeEngaged = s.brakeEngaged := by rw [h]; rfl
theorem OnlyPorts.lastEdgeTs : t.lastEdgeTs = s.lastEdgeTs := by rw [h]; rfl
theorem OnlyPorts.hallValid : t.hallValid = s.hallValid := by rw [h]; rfl

end

/-! ## Instructions (41_move_queue, 43_command_interpreter) -/

/-- What an instruction other than the events TICK and HALL_EDGE has written when it answers. -/
inductive Writes (s : State) : Instr → State → Prop
  /-- An error (60_exceptions R301) or a read. -/
  | nothing (i : Instr) : Writes s i s
  | enqueue {a : Axis} {d : Dir} {n l : BitVec 32} {t : State} (h : enqueueOp a d n l s = .ok t) :
      Writes s (.enqueue a d n l) t
  | pause (a : Axis) : Writes s (.pause a) (pauseOp a s)
  | resume (a : Axis) : Writes s (.resume a) (resumeOp a s)
  | estop (a : Axis) : Writes s (.estop a) (estopOp a s)
  | qstop (a : Axis) : Writes s (.qstop a) (qstopOp a s)
  | clrEstop (a : Axis) : Writes s (.clrEstop a) (clrEstopOp a s)
  | estopAll {i : Instr} (hi : i = .estopAll ∨ ∃ ps, i = .m112 ps) : Writes s i (estopAllOp s)
  | foreground (i : Instr) {fg : Foreground} (hdwell : ∀ t0 dur, fg = .dwell t0 dur → dur < 2 ^ 63) :
      Writes s i { s with fg := fg }
  | move (i : Instr) {ps : List Param} {t : State} (h : moveOp ps s = .ok t) : Writes s i t
  | drive (i : Instr) {v : Rat} (hv : v = 0 ∨ s.safety = .normal ∧ 0 ≤ v ∧ v ≤ s.cfg.maxRpm) (d : SpinDir)
      (mode : DriveMode) : Writes s i ({ s with targetRpm := v, spinDir := d }.emit (.spindleDrive mode))
  | hold (ps : List Param) (h : s.safety = .normal) :
      Writes s (.m0 ps) (pauseOp .traverse (pauseOp .spindle { s with safety := .feedHold }))
  | release (ps : List Param) (h : s.safety = .feedHold) :
      Writes s (.m1 ps) (resumeOp .traverse (resumeOp .spindle { s with safety := .normal }))
  | drain (ps : List Param) : Writes s (.m410 ps) (qstopOp .traverse (qstopOp .spindle s))
  | reset (ps : List Param) (h : s.safety = .emergencyStopped) (hspeed : s.readRpm ≤ s.cfg.rpmZeroEps) :
      Writes s (.m999 ps) (clrEstopOp .traverse (clrEstopOp .spindle { s with safety := .normal }))

/-- How an instruction answers that found `s` and has written `u`: an error keeps `s` (60_exceptions R301, 43 R268). -/
inductive Answers (s u : State) : State → Prop
  | silent : Answers s u u
  | word (c : ResultCode) (v : BitVec 64) (h : c = .ok ∨ u = s ∧ v = 0#64) : Answers s u (respond c v u)
  | line (text : List Byte) (h : text = ascii "OK" ∨ u = s) : Answers s u (reply text u)

theorem Answers.onlyPorts {s u t : State} (h : Answers s u t) : OnlyPorts u t := by
  cases h <;> rfl

theorem finish_writes {i : Instr} {s t : State} {r : Except ResultCode State} (h : finish s r = .next t)
    (hok : ∀ u, r = .ok u → Writes s i u) : ∃ u, Writes s i u ∧ Answers s u t := by
  obtain ⟨c, -, rfl⟩ | ⟨u, hu, rfl⟩ := finish_next h
  · exact ⟨s, .nothing i, .word c _ (.inr ⟨rfl, rfl⟩)⟩
  · exact ⟨u, hok u hu, .word _ _ (.inl rfl)⟩

theorem finishLine_writes {i : Instr} {s t : State} {r : Except Reason State} (h : finishLine s r = .next t)
    (hok : ∀ u, r = .ok u → Writes s i u) : ∃ u, Writes s i u ∧ Answers s u t := by
  obtain ⟨c, -, rfl⟩ | ⟨u, hu, rfl⟩ := finishLine_next h
  · exact ⟨s, .nothing i, .line _ (.inr rfl)⟩
  · exact ⟨u, hok u hu, .line _ (.inl rfl)⟩

theorem homeStart_writes {a : Axis} {w : HomeCaller} {s t : State} (i : Instr) (h : homeStart a w s = .ok t) :
    Writes s i t := by
  obtain ⟨-, -, -, rfl⟩ := homeStart_ok h
  exact .foreground i nofun

theorem execHome_writes {a : Axis} {s t : State} (i : Instr) (h : execHome a s = .next t) :
    ∃ u, Writes s i u ∧ Answers s u t := by
  unfold execHome at h
  split at h <;> cases h
  · exact ⟨s, .nothing i, .word _ _ (.inr ⟨rfl, rfl⟩)⟩
  · exact ⟨t, homeStart_writes i ‹_›, .silent⟩

theorem execG28_writes {ps : List Param} {s t : State} (i : Instr) (h : execG28 ps s = .next t) :
    ∃ u, Writes s i u ∧ Answers s u t := by
  unfold execG28 g28Start at h
  split at h
  · cases h
    exact ⟨s, .nothing i, .line _ (.inr rfl)⟩
  · rename_i u hu
    cases h
    refine ⟨t, ?_, .silent⟩
    split at hu
    · cases hu
    · split at hu
      · cases hu
      · split at hu <;> cases hu
        exact homeStart_writes i ‹_›

/-- A dwell that is accepted is shorter than 2^63 units (43 R254). -/
theorem execG4_writes {ps : List Param} {s t : State} (i : Instr) (h : execG4 ps s = .next t) :
    ∃ u, Writes s i u ∧ Answers s u t := by
  unfold execG4 at h
  dsimp only at h
  split at h
  · cases h
    exact ⟨s, .nothing i, .line _ (.inr rfl)⟩
  · rename_i hrange
    split at h
    · split at h
      · cases h
        exact ⟨s, .nothing i, .line _ (.inr rfl)⟩
      · cases h
        unfold syncStart
        split
        · exact ⟨_, .foreground i (fg := .idle) nofun, .line _ (.inl rfl)⟩
        · exact ⟨_, .foreground i (fg := .sync) nofun, .silent⟩
    · cases h
      refine ⟨_, .foreground i fun t0 dur hfg => ?_, .silent⟩
      cases hfg
      simp only [not_or, not_le] at hrange
      omega

theorem spindleOp_writes {d : SpinDir} {ps : List Param} {s t : State} (i : Instr) (h : spindleOp d ps s = .ok t) :
    Writes s i t := by
  obtain ⟨hnormal, v, -, hlow, hhigh, rfl⟩ := spindleOp_ok h
  exact .drive i (.inr ⟨hnormal, hlow, hhigh⟩) d .ramp

/-- Everything `exec` can do but the two events. -/
theorem exec_writes {i : Instr} {s t : State} (htick : i ≠ .tick) (hhall : ∀ ts, i ≠ .hallEdge ts)
    (h : exec i s = .next t) : ∃ u, Writes s i u ∧ Answers s u t := by
  cases i
  case tick => exact absurd rfl htick
  case hallEdge ts => exact absurd rfl (hhall ts)
  case enqueue a d n l => exact finish_writes h fun u hu => .enqueue hu
  case pause a => cases h; exact ⟨_, .pause a, .word _ _ (.inl rfl)⟩
  case resume a => cases h; exact ⟨_, .resume a, .word _ _ (.inl rfl)⟩
  case estop a => cases h; exact ⟨_, .estop a, .word _ _ (.inl rfl)⟩
  case qstop a => cases h; exact ⟨_, .qstop a, .word _ _ (.inl rfl)⟩
  case clrEstop a => cases h; exact ⟨_, .clrEstop a, .word _ _ (.inl rfl)⟩
  case estopAll => cases h; exact ⟨_, .estopAll (.inl rfl), .word _ _ (.inl rfl)⟩
  case home a => exact execHome_writes _ h
  case isActive | queueDepth | position | getRpm | rdState =>
    cases h
    exact ⟨s, .nothing _, .word _ _ (.inl rfl)⟩
  case g0 ps | g1 ps => exact finishLine_writes h fun u hu => .move _ hu
  case g28 ps => exact execG28_writes _ h
  case g4 ps => exact execG4_writes _ h
  case m3 ps | m4 ps => exact finishLine_writes h fun u hu => spindleOp_writes _ hu
  case m5 ps => cases h; exact ⟨_, .drive _ (.inl rfl) s.spinDir s.cfg.m5Mode, .line _ (.inl rfl)⟩
  case m0 ps =>
    refine finishLine_writes h fun u hu => ?_
    split at hu <;> cases hu
    exact .hold ps (not_not.1 ‹_›)
  case m1 ps =>
    refine finishLine_writes h fun u hu => ?_
    split at hu <;> cases hu
    exact .release ps (not_not.1 ‹_›)
  case m112 ps => cases h; exact ⟨_, .estopAll (.inr ⟨ps, rfl⟩), .line _ (.inl rfl)⟩
  case m410 ps => cases h; exact ⟨_, .drain ps, .line _ (.inl rfl)⟩
  case m999 ps =>
    refine finishLine_writes h fun u hu => ?_
    split_ifs at hu with hsafety hspeed
    cases hu
    exact .reset ps (not_not.1 hsafety) (not_lt.1 hspeed)
  case status | ping | version =>
    cases h
    exact ⟨s, .nothing _, .line _ (.inr rfl)⟩

/-! ## Polls (41_move_queue R176, 43_command_interpreter R254) -/

/-- What a poll has written when it answers. -/
inductive PollWrites (s : State) : State → Prop
  | nothing : PollWrites s s
  | done : PollWrites s { s with fg := .idle }
  | homed (a : Axis) : PollWrites s { s.setBank a { s.bank a with pos := 0#64, homed := true } with fg := .idle }
  | timedOut (a : Axis) : PollWrites s { s.setBank a (s.bank a).flush with fg := .idle }
  | enqueue {a : Axis} {d : Dir} {n l : BitVec 32} {t : State} (h : enqueueOp a d n l s = .ok t) : PollWrites s t

theorem answerHome_onlyPorts {caller : HomeCaller} {c : ResultCode} {s t : State}
    (h : answerHome caller c s = .next t) : OnlyPorts { s with fg := .idle } t := by
  unfold answerHome at h
  dsimp only at h
  split at h
  · cases h; rfl
  · split at h <;> cases h
    rfl

theorem homePoll_writes {a : Axis} {t0 : BitVec 64} {caller : HomeCaller} {s t : State}
    (h : homePoll a t0 caller s = .next t) : ∃ u, PollWrites s u ∧ OnlyPorts u t := by
  unfold homePoll at h
  split at h
  · exact ⟨_, .done, answerHome_onlyPorts h⟩
  · split at h
    · exact ⟨_, .homed a, answerHome_onlyPorts h⟩
    · split at h
      · exact ⟨_, .timedOut a, answerHome_onlyPorts h⟩
      · split at h
        · cases h
          exact ⟨t, .enqueue ‹_›, .refl t⟩
        · exact ⟨_, .done, answerHome_onlyPorts h⟩

theorem pollOp_writes {s t : State} (h : pollOp s = .next t) : ∃ u, PollWrites s u ∧ OnlyPorts u t := by
  unfold pollOp at h
  split at h
  · cases h; exact ⟨s, .nothing, .refl s⟩
  · split at h
    · exact homePoll_writes h
    · cases h; exact ⟨s, .nothing, .refl s⟩
  · split at h <;> cases h
    · exact ⟨_, .done, onlyPorts_reply _ _⟩
    · exact ⟨s, .nothing, .refl s⟩
  · split at h <;> cases h
    · exact ⟨_, .done, onlyPorts_reply _ _⟩
    · exact ⟨s, .nothing, .refl s⟩

/-! ## Steps (20_memory R80) -/

/-- What a step that runs no instruction does. -/
inductive Settles (s : State) : State → Prop
  | ports {t : State} (h : OnlyPorts s t) : Settles s t
  | clock (rest : List Action) {delta : BitVec 64} (h : s.sched.head? = some (.clock delta)) :
      Settles s { s with sched := rest, now := s.now + delta }
  | estopReq (rest : List Action) (h : s.sched.head? = some .estopReq) : Settles s (estopAllOp { s with sched := rest })
  | poll (rest : List Action) {u t : State} (h : s.sched.head? = some .poll) (hu : PollWrites { s with sched := rest } u)
      (ht : OnlyPorts u t) : Settles s t

/-- What the next action of the schedule is: an instruction to run, no register written yet, or a step without one. -/
inductive Fetches (s : State) : Fetched → Prop
  | run (i : Instr) {u : State} (h : OnlyPorts s u) (htick : i = .tick ↔ s.sched.head? = some .tick) :
      Fetches s (.run i u)
  | settled {o : Host.Outcome State Fault Refusal} (hact : s.sched.head? ≠ some .tick)
      (h : ∀ t, o = .next t → Settles s t) : Fetches s (.settled o)

theorem rejectLine_onlyPorts (r : Reject) (s : State) : OnlyPorts s (rejectLine r s) := by
  cases r <;> rfl

/-- A step that touches only ports. -/
theorem Fetches.next {s t : State} (hact : s.sched.head? ≠ some .tick) (h : OnlyPorts s t) :
    Fetches s (.settled (.next t)) :=
  .settled hact fun _ ht => .ports (Host.Outcome.next.inj ht ▸ h)

theorem fetchWord_fetches {s u : State} (hact : s.sched.head? ≠ some .tick) (h : OnlyPorts s u) :
    Fetches s (fetchWord u) := by
  unfold fetchWord
  split
  · exact .next hact h
  · split
    · exact .next hact h
    · split
      · rename_i i hdec
        have hevent := decodePort_noEvent _ _ hdec
        exact .run _ (h.trans rfl) (iff_of_false (by rintro rfl; cases hevent) hact)
      · exact .next hact (h.trans rfl)

theorem fetchLine_fetches {s u : State} (hact : s.sched.head? ≠ some .tick) (h : OnlyPorts s u) :
    Fetches s (fetchLine u) := by
  unfold fetchLine
  split
  · exact .next hact h
  · split
    · exact .next hact h
    · rename_i l rest hcut
      split
      · rename_i i hdec
        have hevent := decodeLine_noEvent _ _ _ hdec
        exact .run _ (h.trans rfl) (iff_of_false (by rintro rfl; cases hevent) hact)
      · rename_i r hdec
        exact .next hact (h.trans (.trans (t := { u with rx := rest }) rfl (rejectLine_onlyPorts r _)))

theorem fetch_fetches (s : State) : Fetches s (fetch s) := by
  unfold fetch
  split
  · exact .next (by simp [*]) (.refl s)
  · rename_i act rest hsched
    have hturn : OnlyPorts s { s with sched := rest } := rfl
    have hhead : s.sched.head? = some act := by rw [hsched]; rfl
    cases act
    case tick => exact .run _ hturn (iff_of_true rfl hhead)
    case hallEdge ts => exact .run _ hturn (by simp [hhead])
    case hallLevel level =>
      dsimp only [fetchHall]
      split
      · exact .next (by simp [hhead]) rfl
      · exact .run _ rfl (by simp [hhead])
    case estopReq => exact .settled (by simp [hhead]) fun t ht => Host.Outcome.next.inj ht ▸ .estopReq rest hhead
    case limitSwitch a level => exact .next (by simp [hhead]) (hturn.trans (onlyPorts_setLimitSw _ a level))
    case clock delta => exact .settled (by simp [hhead]) fun t ht => Host.Outcome.next.inj ht ▸ .clock rest hhead
    case takeWord => exact fetchWord_fetches (by simp [hhead]) hturn
    case takeLine => exact fetchLine_fetches (by simp [hhead]) hturn
    case poll =>
      refine .settled (by simp [hhead]) fun t ht => ?_
      obtain ⟨u, hu, hports⟩ := pollOp_writes ht
      exact .poll rest hhead hu hports

/-- Everything a step can do. -/
theorem step_cases {s t : State} (h : step s = .next t) :
    (∃ i u, fetch s = .run i u ∧ OnlyPorts s u ∧ (i = .tick ↔ s.sched.head? = some .tick) ∧ exec i u = .next t) ∨
      fetch s = .settled (.next t) ∧ s.sched.head? ≠ some .tick ∧ Settles s t := by
  have hfetch := fetch_fetches s
  obtain ⟨-, ⟨i, u, hrun, hexec⟩ | hsettled⟩ := step_next h
  · rw [hrun] at hfetch
    cases hfetch with
    | run _ hports htick => exact .inl ⟨i, u, hrun, hports, htick, hexec⟩
  · rw [hsettled] at hfetch
    cases hfetch with
    | settled hact hsettles => exact .inr ⟨hsettled, hact, hsettles t rfl⟩

end Sys2Proof.Machine
end

section
/-!
PROOF. The invariant of the machine (10_state R53): each shared write keeps it, so every step does.
-/

namespace Sys2Proof.Machine

/-! ## One bank -/

theorem BankInv.setPaused {cap : Nat} {b : AxisBank} (h : BankInv cap b) (p : Bool) :
    BankInv cap { b with paused := p } := { h with }

theorem BankInv.setHomed {cap : Nat} {b : AxisBank} (h : BankInv cap b) :
    BankInv cap { b with pos := 0#64, homed := true } := { h with }

theorem BankInv.clrEstop {cap : Nat} {b : AxisBank} (h : BankInv cap b) :
    BankInv cap { b with estop := false, paused := false } := { h with stopped_idle := nofun }

/-- An emptied ring holds no chunk to be wrong about (41_move_queue R174). -/
theorem BankInv.qstop {cap : Nat} {b : AxisBank} (h : BankInv cap b) : BankInv cap { b with head := b.tail } := by
  have hdepth : AxisBank.depth cap { b with head := b.tail } = 0 := depth_of_eq rfl
  exact { h with
    head_lt := h.tail_lt
    depth_le := hdepth.trans_le (Nat.zero_le _)
    chunks_valid := by simp [ringChunks_of_empty hdepth]
    idle_empty := fun hidle => ⟨hdepth, (h.idle_empty hidle).2⟩ }

/-- The clearing writes of ESTOP and of the homing flush (41_move_queue R173, R176). -/
theorem BankInv.flush {cap : Nat} {b : AxisBank} (h : BankInv cap b) (stopped : Bool) :
    BankInv cap { b.flush with estop := stopped } := by
  have hdepth : AxisBank.depth cap { b.flush with estop := stopped } = 0 := depth_of_eq rfl
  exact { h with
    head_lt := h.tail_lt
    depth_le := hdepth.trans_le (Nat.zero_le _)
    chunks_valid := by simp [ringChunks_of_empty hdepth]
    idle_empty := fun _ => ⟨hdepth, rfl⟩
    loaded := fun hne => absurd rfl hne
    stopped_idle := fun _ => rfl }

theorem BankInv.depth_lt_of_ne {cap : Nat} {b : AxisBank} (h : BankInv cap b) (hne : b.depth cap ≠ cap) :
    b.depth cap < cap := lt_of_le_of_ne h.depth_le hne

/-- Right after reset (70_reset_and_hazards R341). -/
theorem bankInv_reset {cap : Nat} (hcap : 1 ≤ cap) : BankInv cap AxisBank.reset := by
  have hdepth : AxisBank.reset.depth cap = 0 := depth_of_eq rfl
  exact {
    ring_wf := rfl
    slots_lt := nofun
    head_lt := show 0 < 2 * cap by omega
    tail_lt := show 0 < 2 * cap by omega
    depth_le := hdepth.trans_le (Nat.zero_le _)
    chunks_valid := by simp [ringChunks_of_empty hdepth]
    idle_empty := fun _ => ⟨hdepth, rfl⟩
    loaded := fun hne => absurd rfl hne
    stopped_idle := fun _ => rfl }

/-! ## The machine -/

theorem CoreInv.of_onlyPorts {s t : State} (h : CoreInv s) (hp : OnlyPorts s t) : CoreInv t where
  admissible := by rw [hp.cfg]; exact h.admissible
  banks a := by rw [hp.cfg, hp.bank]; exact h.banks a
  feed_range := by rw [hp.cfg, hp.feed]; exact h.feed_range
  target_range := by rw [hp.cfg, hp.targetRpm]; exact h.target_range
  speed_nonneg := by rw [hp.currentRpm]; exact h.speed_nonneg
  unseen_speed := by rw [hp.hallValid, hp.currentRpm]; exact h.unseen_speed
  emergency_target := by rw [hp.safety, hp.targetRpm]; exact h.emergency_target
  dwell_range := by rw [hp.fg]; exact h.dwell_range

theorem CoreInv.setBank {s : State} (h : CoreInv s) (a : Axis) {b : AxisBank} (hb : BankInv s.cfg.cap b) :
    CoreInv (s.setBank a b) where
  admissible := by simpa using h.admissible
  banks c := by
    rw [bank_setBank, setBank_cfg]
    split
    · exact hb
    · exact h.banks c
  feed_range := by simpa using h.feed_range
  target_range := by simpa using h.target_range
  speed_nonneg := by simpa using h.speed_nonneg
  unseen_speed := by simpa using h.unseen_speed
  emergency_target := by simpa using h.emergency_target
  dwell_range := by simpa using h.dwell_range

/-- Banks and CAP as they were. -/
theorem CoreInv.banks_congr {s t : State} (h : CoreInv s) (hcfg : t.cfg = s.cfg) (hspindle : t.spindle = s.spindle)
    (htraverse : t.traverse = s.traverse) (a : Axis) : BankInv t.cfg.cap (t.bank a) := by
  rw [hcfg]
  cases a
  · rw [bank_spindle, hspindle]
    exact h.banks .spindle
  · rw [bank_traverse, htraverse]
    exact h.banks .traverse

theorem CoreInv.setFg {s : State} (h : CoreInv s) {fg : Foreground}
    (hfg : ∀ t0 dur, fg = .dwell t0 dur → dur < 2 ^ 63) : CoreInv { s with fg := fg } :=
  { h with dwell_range := hfg, banks := h.banks_congr rfl rfl rfl }

theorem CoreInv.setFeed {s : State} (h : CoreInv s) {f : Rat} (hf : 0 < f ∧ f ≤ s.cfg.maxFeed) :
    CoreInv { s with feed := f } :=
  { h with feed_range := hf, banks := h.banks_congr rfl rfl rfl }

/-- A SafetyState and a spindle target that agree (R53 I6). -/
theorem CoreInv.setSafety {s : State} (h : CoreInv s) {m : SafetyState} {v : Rat} (hv : 0 ≤ v ∧ v ≤ s.cfg.maxRpm)
    (hm : m = .emergencyStopped → v = 0) : CoreInv { s with safety := m, targetRpm := v } :=
  { h with target_range := hv, emergency_target := hm, banks := h.banks_congr rfl rfl rfl }

theorem CoreInv.maxRpm_nonneg {s : State} (h : CoreInv s) : 0 ≤ s.cfg.maxRpm := h.target_range.1.trans h.target_range.2

/-! ## The shared operations -/

theorem enqueueOp_bank {a : Axis} {d : Dir} {n l : BitVec 32} {s t : State} (h : enqueueOp a d n l s = .ok t) :
    Chunk.Valid ⟨n, l, d⟩ ∧ (s.bank a).estop = false ∧ (s.bank a).depth s.cfg.cap ≠ s.cfg.cap ∧
      t = s.setBank a ((s.bank a).enqueued s.cfg.cap ⟨n, l, d⟩) := by
  obtain ⟨-, hestop, hn, hl, hroom, rfl⟩ := enqueueOp_ok h
  exact ⟨⟨hn, hl⟩, hestop, hroom, rfl⟩

theorem CoreInv.enqueueOp_keeps {a : Axis} {d : Dir} {n l : BitVec 32} {s t : State} (h : CoreInv s)
    (ht : enqueueOp a d n l s = .ok t) : CoreInv t := by
  obtain ⟨hc, hestop, hroom, rfl⟩ := enqueueOp_bank ht
  have hbank := h.banks a
  exact h.setBank a (hbank.enqueue_keeps (hbank.depth_lt_of_ne hroom) hestop hc)

theorem CoreInv.enqueueMove_keeps {d : Dir} {l : BitVec 32} {s : State} (h : CoreInv s) (n m : Nat) :
    CoreInv (enqueueMove d l n m s) := by
  induction n generalizing m s with
  | zero => exact h
  | succ n ih =>
    rw [enqueueMove]
    split
    · exact h
    · dsimp only
      split
      · exact ih (h.enqueueOp_keeps ‹_›) _
      · exact h

theorem CoreInv.moveOp_keeps {ps : List Param} {s t : State} (h : CoreInv s) (ht : moveOp ps s = .ok t) :
    CoreInv t := by
  obtain ⟨-, -, -, y, f, -, -, -, hfeed, hmove⟩ := moveOp_ok ht
  have hf : 0 < f ∧ f ≤ s.cfg.maxFeed := by
    obtain ⟨-, hlow, hhigh⟩ | ⟨-, rfl⟩ := moveFeed_some hfeed
    · exact ⟨hlow, hhigh⟩
    · exact h.feed_range
  unfold moveTo at hmove
  dsimp only at hmove
  split_ifs at hmove <;> cases hmove
  · exact h.setFeed hf
  all_goals
    refine (h.enqueueMove_keeps _ _).setFeed ?_
    rw [enqueueMove_frame]
    exact hf

theorem CoreInv.estopOp_keeps {s : State} (h : CoreInv s) (a : Axis) : CoreInv (estopOp a s) :=
  h.setBank a ((h.banks a).flush true)

theorem CoreInv.estopAllOp_keeps {s : State} (h : CoreInv s) : CoreInv (estopAllOp s) :=
  (((h.setSafety ⟨le_rfl, h.maxRpm_nonneg⟩ fun _ => rfl).estopOp_keeps .spindle).estopOp_keeps .traverse).of_onlyPorts
    rfl

theorem CoreInv.setPaused_keeps {s : State} (h : CoreInv s) (a : Axis) (p : Bool) :
    CoreInv (s.setBank a { s.bank a with paused := p }) :=
  h.setBank a ((h.banks a).setPaused p)

theorem CoreInv.qstopOp_keeps {s : State} (h : CoreInv s) (a : Axis) : CoreInv (qstopOp a s) :=
  h.setBank a (h.banks a).qstop

theorem CoreInv.clrEstopOp_keeps {s : State} (h : CoreInv s) (a : Axis) : CoreInv (clrEstopOp a s) :=
  h.setBank a (h.banks a).clrEstop

/-! ## The events -/

theorem CoreInv.tick_keeps {s t : State} (h : CoreInv s) (ht : exec .tick s = .next t) : CoreInv t := by
  have hstep : CoreInv (((s.setBank .spindle (tickBank s.cfg.cap s.spindle).1)).setBank .traverse
      (tickBank s.cfg.cap s.traverse).1) :=
    (h.setBank .spindle (h.banks .spindle).tickBank_keeps.1).setBank .traverse (h.banks .traverse).tickBank_keeps.1
  rw [exec_tick_eq] at ht
  cases ht
  exact hstep.of_onlyPorts rfl

theorem nonNegative_nonneg (q : Rat) : 0 ≤ nonNegative q := by
  unfold nonNegative
  split
  · exact le_rfl
  · exact not_lt.1 ‹_›

theorem roundBinary32Magnitude_nonneg (q : Rat) : 0 ≤ roundBinary32Magnitude q := by
  unfold roundBinary32Magnitude
  split
  · exact le_rfl
  · positivity

/-- No rounding makes a speed negative (42_rpm_estimator R228, R231). -/
theorem rnd_nonneg (f : RpmFormat) {q : Rat} (h : 0 ≤ q) : 0 ≤ rnd f q := by
  cases f with
  | binary32 =>
    rw [rnd, if_neg (not_lt.2 h), roundBinary32]
    split
    · exact roundBinary32Magnitude_nonneg q
    · exact nonNegative_nonneg _
  | exact => exact h
  | custom k =>
    rw [rnd, if_neg (not_lt.2 h)]
    exact nonNegative_nonneg _

/-- A weighted mean of speeds that are not negative (R225). -/
theorem ema_nonneg {cfg : Config} (h : cfg.admissible = true) {x v : Rat} (hx : 0 ≤ x) (hv : 0 ≤ v) :
    0 ≤ ema cfg x v := by
  rw [Config.admissible, decide_eq_true_iff] at h
  obtain ⟨-, -, -, -, -, hlow, hhigh, -⟩ := h
  have hweight := rnd_nonneg cfg.rpmFormat hlow.le
  have hrest := rnd_nonneg cfg.rpmFormat (sub_nonneg.2 hhigh)
  exact rnd_nonneg _ (add_nonneg (rnd_nonneg _ (mul_nonneg hweight hx)) (rnd_nonneg _ (mul_nonneg hrest hv)))

theorem instRpm_nonneg (cfg : Config) (delta : Nat) : 0 ≤ instRpm cfg delta := by
  refine rnd_nonneg _ ?_
  rw [Rat.mkRat_eq_div]
  positivity

theorem CoreInv.setSpeed {s : State} (h : CoreInv s) {v : Rat} (hv : 0 ≤ v) (ts : BitVec 64)
    (hseen : s.hallValid = true) : CoreInv { s with currentRpm := v, lastEdgeTs := ts } :=
  { h with speed_nonneg := hv, unseen_speed := fun hno => by simp [hseen] at hno,
           banks := h.banks_congr rfl rfl rfl }

theorem CoreInv.hallEdgeOp_keeps {s : State} (h : CoreInv s) (ts : BitVec 64) : CoreInv (hallEdgeOp ts s) := by
  obtain ⟨-, hop⟩ | ⟨-, -, hop⟩ | ⟨hseen, -, hop⟩ := hallEdgeOp_cases ts s <;> rw [hop]
  · exact { h with unseen_speed := nofun, banks := h.banks_congr rfl rfl rfl }
  · exact h
  · exact h.setSpeed (ema_nonneg h.admissible (instRpm_nonneg _ _) h.speed_nonneg) ts hseen

/-! ## Instructions and steps -/

theorem CoreInv.writes_keep {s u : State} {i : Instr} (h : CoreInv s) (hw : Writes s i u) : CoreInv u := by
  cases hw with
  | nothing => exact h
  | enqueue hok => exact h.enqueueOp_keeps hok
  | pause a => exact h.setPaused_keeps a true
  | resume a => exact h.setPaused_keeps a false
  | estop a => exact h.estopOp_keeps a
  | qstop a => exact h.qstopOp_keeps a
  | clrEstop a => exact h.clrEstopOp_keeps a
  | estopAll => exact h.estopAllOp_keeps
  | foreground _ hdwell => exact h.setFg hdwell
  | move _ hok => exact h.moveOp_keeps hok
  | @drive _ v hv d mode =>
    have hrange : 0 ≤ v ∧ v ≤ s.cfg.maxRpm := by
      obtain rfl | ⟨-, hrange⟩ := hv
      · exact ⟨le_rfl, h.maxRpm_nonneg⟩
      · exact hrange
    have hzero (hstop : s.safety = .emergencyStopped) : v = 0 :=
      hv.resolve_right fun hnormal => by simp [hstop] at hnormal
    have htarget := h.setSafety hrange hzero
    exact { htarget with banks := htarget.banks_congr rfl rfl rfl }
  | hold ps hnormal =>
    have hsafety := h.setSafety (m := .feedHold) h.target_range nofun
    exact (hsafety.setPaused_keeps .spindle true).setPaused_keeps .traverse true
  | release ps hhold =>
    have hsafety := h.setSafety (m := .normal) h.target_range nofun
    exact (hsafety.setPaused_keeps .spindle false).setPaused_keeps .traverse false
  | drain ps => exact (h.qstopOp_keeps .spindle).qstopOp_keeps .traverse
  | reset ps hstopped hspeed =>
    have hsafety := h.setSafety (m := .normal) h.target_range nofun
    exact (hsafety.clrEstopOp_keeps .spindle).clrEstopOp_keeps .traverse

theorem CoreInv.exec_keeps {s t : State} {i : Instr} (h : CoreInv s) (ht : exec i s = .next t) : CoreInv t := by
  by_cases htick : i = .tick
  · subst htick
    exact h.tick_keeps ht
  · by_cases hhall : ∃ ts, i = .hallEdge ts
    · obtain ⟨ts, rfl⟩ := hhall
      cases ht
      exact h.hallEdgeOp_keeps ts
    · obtain ⟨u, hwrites, hanswer⟩ := exec_writes htick (not_exists.1 hhall) ht
      exact (h.writes_keep hwrites).of_onlyPorts hanswer.onlyPorts

theorem CoreInv.poll_keeps {s u : State} (h : CoreInv s) (hw : PollWrites s u) : CoreInv u := by
  cases hw with
  | nothing => exact h
  | done => exact h.setFg nofun
  | homed a => exact (h.setBank a (h.banks a).setHomed).setFg nofun
  | timedOut a => exact (h.setBank a ((h.banks a).flush (s.bank a).estop)).setFg nofun
  | enqueue hok => exact h.enqueueOp_keeps hok

theorem CoreInv.setSched {s : State} (h : CoreInv s) (rest : List Action) : CoreInv { s with sched := rest } :=
  h.of_onlyPorts rfl

theorem CoreInv.settles_keep {s t : State} (h : CoreInv s) (hs : Settles s t) : CoreInv t := by
  cases hs with
  | ports hports => exact h.of_onlyPorts hports
  | clock rest => exact { h with banks := h.banks_congr rfl rfl rfl }
  | estopReq rest => exact (h.setSched rest).estopAllOp_keeps
  | poll rest _ hu ht => exact ((h.setSched rest).poll_keeps hu).of_onlyPorts ht

/-- Right after reset, whatever the clock and the inputs (70_reset_and_hazards R341). -/
theorem coreInv_resetWith {cfg : Config} (h : cfg.admissible = true) (now : BitVec 64) (hallIn l1 l2 : Bool) :
    CoreInv (State.resetWith cfg now hallIn l1 l2) := by
  have hbounds := h
  rw [Config.admissible, decide_eq_true_iff] at hbounds
  obtain ⟨hcap, -, -, -, -, -, -, -, -, -, -, hmaxRpm, hfeed, hmaxFeed, -⟩ := hbounds
  exact {
    admissible := h
    banks := fun a => by rw [bank_resetWith]; exact bankInv_reset hcap
    feed_range := ⟨hfeed, hmaxFeed⟩
    target_range := ⟨le_rfl, hmaxRpm⟩
    speed_nonneg := le_rfl
    unseen_speed := fun _ => rfl
    emergency_target := nofun
    dwell_range := nofun }

end Sys2Proof.Machine

namespace Sys2Proof.Proofs

open Sys2Proof.Machine

/-- Settles O57: what a step fetches has written no register, and each thing it then can do keeps the invariant. -/
theorem stepKeepsInvariant : Obligations.StepKeepsInvariant := by
  intro s t hinv h
  obtain ⟨i, u, -, hports, -, hexec⟩ | ⟨-, -, hsettles⟩ := step_cases h
  · exact (hinv.of_onlyPorts hports).exec_keeps hexec
  · exact hinv.settles_keep hsettles

/-- Settles O58: reset writes empty banks and registers within their ranges. -/
theorem resetHasInvariant : Obligations.ResetHasInvariant :=
  ⟨fun _ now h l1 l2 hcfg => coreInv_resetWith hcfg now h l1 l2, coreInv_resetWith (by decide +kernel) _ _ _ _⟩

end Sys2Proof.Proofs
end

section
/-!
PROOF. Statements about every step (00_scope R7, 10_state R53, R54, 43_command_interpreter R267 to R272, 60_exceptions
R301, R307), read off the lists of what a step can do: which configurations run, that a step completes, who writes which
register, and what becomes of the SafetyState and the flags.
-/

namespace Sys2Proof.Machine

/-! ## Which configurations run (00_scope R7) -/

theorem word32_ne_zero_iff (x : BitVec 32) : x ≠ 0#32 ↔ 1 ≤ x.toNat ∧ x.toNat ≤ 2 ^ 32 - 1 := by
  have hlt := x.isLt
  rw [ne_eq, ← BitVec.toNat_inj, BitVec.toNat_ofNat]
  omega

theorem step_inadmissible {s : State} (h : s.cfg.admissible = false) : step s = .refused .inadmissibleConfiguration := by
  simp [step, h]

theorem exec_cfg {i : Instr} {s t : State} (h : exec i s = .next t) : t.cfg = s.cfg := by
  by_cases hi : i = .tick
  · subst hi
    exact exec_tick_cfg h
  · exact (exec_effect hi h).cfg

theorem step_cfg {s t : State} (h : step s = .next t) : t.cfg = s.cfg := by
  obtain ⟨i, u, -, hports, -, hexec⟩ | ⟨hsettled, -, -⟩ := step_cases h
  · exact (exec_cfg hexec).trans hports.cfg
  · exact (fetch_settled_effect (clears := fun _ => true) (enqueues := fun _ => true) (by simp) hsettled).cfg

/-! ## Every step completes (60_exceptions R307) -/

theorem answerHome_next {c : ResultCode} (h : (lineOfCode c).isSome = true) (caller : HomeCaller) (s : State) :
    ∃ t, answerHome caller c s = .next t := by
  obtain ⟨text, htext⟩ := Option.isSome_iff_exists.1 h
  cases caller
  · exact ⟨_, rfl⟩
  · exact ⟨_, by rw [answerHome]; simp only [htext]; rfl⟩

/-- An admissible homing chunk has steps and a delay, so that ENQUEUE raises no code without a line (log entry 17). -/
theorem homingChunk_error {a : Axis} {s : State} {c : ResultCode} (hcfg : s.cfg.admissible = true)
    (h : enqueueOp a s.cfg.homeDir s.cfg.homeChunkSteps s.cfg.homeDelay s = .error c) :
    (lineOfCode c).isSome = true := by
  rw [Config.admissible, decide_eq_true_iff] at hcfg
  obtain ⟨-, -, -, -, -, -, -, hsteps, hdelay, -⟩ := hcfg
  obtain ⟨rfl, -⟩ | ⟨-, hzero⟩ | ⟨rfl, -⟩ := enqueueOp_error h
  · rfl
  · exact absurd hzero (not_or.2 ⟨hsteps, hdelay⟩)
  · rfl

theorem homePoll_next {s : State} (hcfg : s.cfg.admissible = true) (a : Axis) (t0 : BitVec 64) (caller : HomeCaller) :
    ∃ t, homePoll a t0 caller s = .next t := by
  unfold homePoll
  split
  · exact answerHome_next rfl _ _
  · split
    · exact answerHome_next rfl _ _
    · split
      · exact answerHome_next rfl _ _
      · split
        · exact ⟨_, rfl⟩
        · exact answerHome_next (homingChunk_error hcfg ‹_›) _ _

theorem pollOp_next {s : State} (hcfg : s.cfg.admissible = true) : ∃ t, pollOp s = .next t := by
  unfold pollOp
  split
  · exact ⟨_, rfl⟩
  · split
    · exact homePoll_next hcfg _ _ _
    · exact ⟨_, rfl⟩
  · split <;> exact ⟨_, rfl⟩
  · split <;> exact ⟨_, rfl⟩

/-- A step that runs no instruction answers a next state. -/
def Fetched.Completes : Fetched → Prop
  | .run _ _ => True
  | .settled o => ∃ t, o = .next t

theorem fetch_completes {s : State} (hcfg : s.cfg.admissible = true) : (fetch s).Completes := by
  unfold fetch
  split
  · exact ⟨_, rfl⟩
  · rename_i act rest hsched
    cases act
    case tick | hallEdge => trivial
    case estopReq | limitSwitch | clock => exact ⟨_, rfl⟩
    case poll => exact pollOp_next hcfg
    case hallLevel level =>
      dsimp only [fetchHall]
      split
      · exact ⟨_, rfl⟩
      · trivial
    case takeWord =>
      dsimp only [fetchWord]
      split
      · exact ⟨_, rfl⟩
      · split
        · exact ⟨_, rfl⟩
        · split
          · trivial
          · exact ⟨_, rfl⟩
    case takeLine =>
      dsimp only [fetchLine]
      split
      · exact ⟨_, rfl⟩
      · split
        · exact ⟨_, rfl⟩
        · split
          · trivial
          · exact ⟨_, rfl⟩

theorem step_completes {s : State} (hcfg : s.cfg.admissible = true) : ∃ t, step s = .next t := by
  have hcompletes := fetch_completes hcfg
  rw [step, if_pos hcfg]
  cases hfetch : fetch s with
  | run i u => exact exec_next i u
  | settled o => rwa [hfetch] at hcompletes

/-! ## The SafetyState (43_command_interpreter R267 to R272) -/

/-- The admission table: which instruction may bring the SafetyState to `m`. -/
def SafetyMove (s : State) (i : Instr) (m : SafetyState) : Prop :=
  ((∃ ps, i = .m0 ps) ∧ s.safety = .normal ∧ m = .feedHold) ∨
  ((∃ ps, i = .m1 ps) ∧ s.safety = .feedHold ∧ m = .normal) ∨
  ((i = .estopAll ∨ ∃ ps, i = .m112 ps) ∧ m = .emergencyStopped) ∨
  ((∃ ps, i = .m999 ps) ∧ s.safety = .emergencyStopped ∧ m = .normal ∧
    (s.hallValid = false ∨ s.cfg.stallTimeoutTs < (s.now - s.lastEdgeTs).toNat ∨ s.currentRpm ≤ s.cfg.rpmZeroEps))

theorem SafetyMove.of_onlyPorts {s u : State} {i : Instr} {m : SafetyState} (hp : OnlyPorts s u)
    (h : SafetyMove u i m) : SafetyMove s i m := by
  unfold SafetyMove at h ⊢
  rwa [hp.safety, hp.hallValid, hp.cfg, hp.now, hp.lastEdgeTs, hp.currentRpm] at h

/-- The spindle is read as stopped when no recent edge gives a speed, or a speed below the threshold (R262). -/
theorem readRpm_le_iff {s : State} (h : s.readRpm ≤ s.cfg.rpmZeroEps) : s.hallValid = false ∨
    s.cfg.stallTimeoutTs < (s.now - s.lastEdgeTs).toNat ∨ s.currentRpm ≤ s.cfg.rpmZeroEps := by
  rw [readRpm_eq] at h
  split at h
  · rename_i hstalled
    exact hstalled.imp_right .inl
  · exact .inr (.inr h)

theorem Writes.safety {s u : State} {i : Instr} (h : Writes s i u) : u.safety = s.safety ∨ SafetyMove s i u.safety := by
  cases h with
  | nothing | foreground | drive => exact .inl rfl
  | enqueue hok =>
    obtain ⟨-, -, -, rfl⟩ := enqueueOp_bank hok
    exact .inl (setBank_safety _ _ _)
  | pause a | resume a | estop a | qstop a | clrEstop a => exact .inl (setBank_safety _ _ _)
  | move _ hok =>
    obtain ⟨-, -, -, y, f, -, -, -, -, hmove⟩ := moveOp_ok hok
    obtain ⟨m, k, b, rfl⟩ := moveTo_ok hmove
    exact .inl rfl
  | drain => exact .inl rfl
  | hold ps hnormal => exact .inr (.inl ⟨⟨ps, rfl⟩, hnormal, rfl⟩)
  | release ps hhold => exact .inr (.inr (.inl ⟨⟨ps, rfl⟩, hhold, rfl⟩))
  | estopAll hi => exact .inr (.inr (.inr (.inl ⟨hi, rfl⟩)))
  | reset ps hstopped hspeed => exact .inr (.inr (.inr (.inr ⟨⟨ps, rfl⟩, hstopped, rfl, readRpm_le_iff hspeed⟩)))

theorem exec_hallEdge_frame {s t : State} {ts : BitVec 64} (h : exec (.hallEdge ts) s = .next t) :
    t = { s with currentRpm := t.currentRpm, lastEdgeTs := t.lastEdgeTs, hallValid := t.hallValid } := by
  cases h
  obtain ⟨-, hop⟩ | ⟨-, -, hop⟩ | ⟨-, -, hop⟩ := hallEdgeOp_cases ts s <;> rw [hop]

theorem exec_safety {s t : State} {i : Instr} (h : exec i s = .next t) :
    t.safety = s.safety ∨ SafetyMove s i t.safety := by
  by_cases htick : i = .tick
  · subst htick
    exact .inl (exec_tick_safety h)
  · by_cases hhall : ∃ ts, i = .hallEdge ts
    · obtain ⟨ts, rfl⟩ := hhall
      exact .inl (by rw [exec_hallEdge_frame h])
    · obtain ⟨u, hwrites, hanswer⟩ := exec_writes htick (not_exists.1 hhall) h
      rw [hanswer.onlyPorts.safety]
      exact hwrites.safety

theorem PollWrites.safety {s u : State} (h : PollWrites s u) : u.safety = s.safety := by
  cases h with
  | nothing | done => rfl
  | homed | timedOut => exact setBank_safety _ _ _
  | enqueue hok =>
    obtain ⟨-, -, -, rfl⟩ := enqueueOp_bank hok
    exact setBank_safety _ _ _

/-! ## The flags (10_state R53 I6 to I8) -/

/-- The SafetyState and the two flags of each axis that it governs are as they were. -/
structure SameFlags (s t : State) : Prop where
  safety : t.safety = s.safety
  estop : ∀ a, (t.bank a).estop = (s.bank a).estop
  paused : ∀ a, (t.bank a).paused = (s.bank a).paused

theorem SameFlags.of_banks {s t : State} (hsafety : t.safety = s.safety) (hbank : ∀ a, t.bank a = s.bank a) :
    SameFlags s t :=
  ⟨hsafety, fun a => by rw [hbank], fun a => by rw [hbank]⟩

theorem SameFlags.of_onlyPorts {s t : State} (h : OnlyPorts s t) : SameFlags s t := .of_banks h.safety h.bank

theorem sameFlags_setBank {s : State} {a : Axis} {b : AxisBank} (hestop : b.estop = (s.bank a).estop)
    (hpaused : b.paused = (s.bank a).paused) : SameFlags s (s.setBank a b) where
  safety := setBank_safety s a b
  estop c := by
    rw [bank_setBank]
    split
    · subst c; exact hestop
    · rfl
  paused c := by
    rw [bank_setBank]
    split
    · subst c; exact hpaused
    · rfl

theorem SameFlags.trans {s t u : State} (h : SameFlags s t) (k : SameFlags t u) : SameFlags s u :=
  ⟨k.safety.trans h.safety, fun a => (k.estop a).trans (h.estop a), fun a => (k.paused a).trans (h.paused a)⟩

theorem SameFlags.setFg {s t : State} (h : SameFlags s t) (fg : Foreground) : SameFlags s { t with fg := fg } :=
  h.trans (.of_banks rfl fun a => by cases a <;> rfl)

theorem SafetyInv.of_sameFlags {s t : State} (h : SafetyInv s) (k : SameFlags s t) : SafetyInv t where
  emergency_stopped hs a := by rw [k.estop]; exact h.emergency_stopped (k.safety.symm.trans hs) a
  hold_paused hs a := by rw [k.paused]; exact h.hold_paused (k.safety.symm.trans hs) a
  normal_unpaused hs a := by rw [k.paused]; exact h.normal_unpaused (k.safety.symm.trans hs) a

theorem sameFlags_enqueueOp {a : Axis} {d : Dir} {n l : BitVec 32} {s t : State} (h : enqueueOp a d n l s = .ok t) :
    SameFlags s t := by
  obtain ⟨-, -, -, rfl⟩ := enqueueOp_bank h
  exact sameFlags_setBank rfl rfl

theorem safetyInv_estopAllOp (s : State) : SafetyInv (estopAllOp s) where
  emergency_stopped _ a := by rw [estopAllOp_bank]
  hold_paused := nofun
  normal_unpaused := nofun

theorem SafetyInv.writes_keep {s u : State} {i : Instr} (h : SafetyInv s) (hi : touchesFlagsDirectly i = false)
    (hw : Writes s i u) : SafetyInv u := by
  cases hw with
  | nothing => exact h
  | pause | resume | estop | clrEstop => cases hi
  | enqueue hok => exact h.of_sameFlags (sameFlags_enqueueOp hok)
  | qstop a => exact h.of_sameFlags (sameFlags_setBank rfl rfl)
  | foreground | drive => exact h.of_sameFlags (.of_banks rfl fun a => by cases a <;> rfl)
  | estopAll => exact safetyInv_estopAllOp s
  | move _ hok =>
    obtain ⟨-, -, -, y, f, -, -, -, -, hmove⟩ := moveOp_ok hok
    obtain ⟨m, k, b, rfl⟩ := moveTo_ok hmove
    exact h.of_sameFlags ⟨rfl, fun a => by cases a <;> rfl, fun a => by cases a <;> rfl⟩
  | drain =>
    exact h.of_sameFlags ⟨rfl, fun a => by cases a <;> rfl, fun a => by cases a <;> rfl⟩
  | hold =>
    exact { emergency_stopped := nofun, hold_paused := fun _ a => by cases a <;> rfl, normal_unpaused := nofun }
  | release | reset =>
    exact { emergency_stopped := nofun, hold_paused := nofun, normal_unpaused := fun _ a => by cases a <;> rfl }

theorem sameFlags_tick {s t : State} (h : exec .tick s = .next t) : SameFlags s t where
  safety := exec_tick_safety h
  estop a := by
    obtain ⟨-, -, -, -, hestop⟩ := tickBank_frame s.cfg.cap (s.bank a)
    rw [exec_tick_bank h, hestop]
  paused a := by
    obtain ⟨-, -, -, hpaused, -⟩ := tickBank_frame s.cfg.cap (s.bank a)
    rw [exec_tick_bank h, hpaused]

theorem exec_hallEdge_bank {s t : State} {ts : BitVec 64} (h : exec (.hallEdge ts) s = .next t) (a : Axis) :
    t.bank a = s.bank a := by
  rw [exec_hallEdge_frame h]
  cases a <;> rfl

theorem SafetyInv.exec_keeps {s t : State} {i : Instr} (h : SafetyInv s) (hi : touchesFlagsDirectly i = false)
    (ht : exec i s = .next t) : SafetyInv t := by
  by_cases htick : i = .tick
  · subst htick
    exact h.of_sameFlags (sameFlags_tick ht)
  · by_cases hhall : ∃ ts, i = .hallEdge ts
    · obtain ⟨ts, rfl⟩ := hhall
      exact h.of_sameFlags (.of_banks (by rw [exec_hallEdge_frame ht]) (exec_hallEdge_bank ht))
    · obtain ⟨u, hwrites, hanswer⟩ := exec_writes htick (not_exists.1 hhall) ht
      exact (h.writes_keep hi hwrites).of_sameFlags (.of_onlyPorts hanswer.onlyPorts)

theorem PollWrites.sameFlags {s u : State} (h : PollWrites s u) : SameFlags s u := by
  cases h with
  | nothing => exact .of_onlyPorts (.refl s)
  | done => exact SameFlags.setFg (.of_onlyPorts (.refl s)) .idle
  | homed a | timedOut a =>
    refine SameFlags.setFg ?_ .idle
    exact sameFlags_setBank rfl rfl
  | enqueue hok => exact sameFlags_enqueueOp hok

theorem SafetyInv.settles_keep {s t : State} (h : SafetyInv s) (hs : Settles s t) : SafetyInv t := by
  have hturn (rest : List Action) : SameFlags s { s with sched := rest } := .of_onlyPorts rfl
  cases hs with
  | ports hports => exact h.of_sameFlags (.of_onlyPorts hports)
  | clock rest => exact h.of_sameFlags (.of_banks rfl fun a => by cases a <;> rfl)
  | estopReq rest => exact safetyInv_estopAllOp _
  | poll rest _ hu ht => exact h.of_sameFlags (((hturn rest).trans hu.sameFlags).trans (.of_onlyPorts ht))

/-! ## Errors (60_exceptions R301) -/

theorem Writes.history {s u : State} {i : Instr} (h : Writes s i u) :
    u.history = s.history ∨ ∃ mode, u.history = s.history ++ [.spindleDrive mode] := by
  cases h with
  | nothing | foreground | hold | release | drain | reset => exact .inl rfl
  | enqueue hok =>
    obtain ⟨-, -, -, rfl⟩ := enqueueOp_bank hok
    exact .inl (setBank_history _ _ _)
  | pause a | resume a | estop a | qstop a | clrEstop a => exact .inl (setBank_history _ _ _)
  | move _ hok =>
    obtain ⟨-, -, -, y, f, -, -, -, -, hmove⟩ := moveOp_ok hok
    obtain ⟨m, k, b, rfl⟩ := moveTo_ok hmove
    exact .inl rfl
  | estopAll => exact .inr ⟨.cut, rfl⟩
  | drive _ _ _ mode => exact .inr ⟨mode, rfl⟩

theorem codeBits_ne_zero {c : ResultCode} (h : codeBits c ≠ 0#4) : c ≠ .ok := by
  rintro rfl
  exact h rfl

theorem rspWord_fields (c : ResultCode) (v : BitVec 64) :
    (rspWord c v).extractLsb' 64 4 = codeBits c ∧ (rspWord c v).extractLsb' 0 64 = v := by
  have h (x : BitVec 4) : (x ++ v : BitVec (4 + 64)).extractLsb' 64 4 = x ∧
      (x ++ v : BitVec (4 + 64)).extractLsb' 0 64 = v := by
    simp only [BitVec.extractLsb'_append_eq_ite]
    simp
  exact h (codeBits c)

/-- The line OK is no error's. -/
theorem ok_ne_error (reason : List Byte) : ascii "OK" ++ [byteLf] ≠ ascii "ERROR_" ++ reason := fun h => by
  have hhead := congrArg List.head? h
  revert hhead
  exact (by decide : some (0x4F#8) ≠ some (0x45#8))

theorem append_singleton_inj {h k : List OutEvent} {e f : OutEvent} (heq : h ++ [e] = k ++ [f]) : e = f :=
  List.singleton_inj.1 (List.append_inj_right' heq rfl)

/-- What `exec` answers as an error it answers on the state it found. -/
theorem Answers.rejection {s u t : State} (h : Answers s u t)
    (hu : u.history = s.history ∨ ∃ mode, u.history = s.history ++ [.spindleDrive mode]) :
    (∀ w : RspWord, t.history = s.history ++ [.rsp w] → w.extractLsb' 64 4 ≠ 0#4 →
      t = { s with history := t.history } ∧ w.extractLsb' 0 64 = 0#64) ∧
    ∀ reason, t.history = s.history ++ [.line (ascii "ERROR_" ++ reason)] → t = { s with history := t.history } := by
  cases h with
  | silent =>
    obtain hu | ⟨mode, hu⟩ := hu <;> simp [hu]
  | word c v hc =>
    refine ⟨fun w hw hcode => ?_, fun reason hline => nomatch append_singleton_inj hline⟩
    obtain rfl : rspWord c v = w := OutEvent.rsp.inj (append_singleton_inj hw)
    obtain ⟨hbits, hvalue⟩ := rspWord_fields c v
    obtain ⟨rfl, rfl⟩ := hc.resolve_left (codeBits_ne_zero (hbits ▸ hcode))
    exact ⟨rfl, hvalue⟩
  | line text htext =>
    refine ⟨fun w hw => (nomatch append_singleton_inj hw), fun reason hline => ?_⟩
    have heq : text ++ [byteLf] = ascii "ERROR_" ++ reason := OutEvent.line.inj (append_singleton_inj hline)
    obtain rfl | rfl := htext
    · exact absurd heq (ok_ne_error reason)
    · rfl

/-! ## Who writes what (10_state R54) -/

/-- The clock, the brake field, and what a TICK or a homing leaves in a bank are as they were. -/
structure Unmoved (s t : State) : Prop where
  now : t.now = s.now
  brake : t.brakeEngaged = s.brakeEngaged
  loaded : ∀ a, (t.bank a).curDelay = (s.bank a).curDelay ∧ (t.bank a).curDir = (s.bank a).curDir
  position : ∀ a, (t.bank a).pos = (s.bank a).pos ∧ (t.bank a).homed = (s.bank a).homed

theorem Unmoved.of_onlyPorts {s t : State} (h : OnlyPorts s t) : Unmoved s t where
  now := h.now
  brake := h.brakeEngaged
  loaded a := by rw [h.bank]; exact ⟨rfl, rfl⟩
  position a := by rw [h.bank]; exact ⟨rfl, rfl⟩

theorem Unmoved.trans {s t u : State} (h : Unmoved s t) (k : Unmoved t u) : Unmoved s u where
  now := k.now.trans h.now
  brake := k.brake.trans h.brake
  loaded a := by rw [(k.loaded a).1, (k.loaded a).2]; exact h.loaded a
  position a := by rw [(k.position a).1, (k.position a).2]; exact h.position a

theorem unmoved_setBank {s : State} {a : Axis} {b : AxisBank}
    (hloaded : b.curDelay = (s.bank a).curDelay ∧ b.curDir = (s.bank a).curDir)
    (hposition : b.pos = (s.bank a).pos ∧ b.homed = (s.bank a).homed) : Unmoved s (s.setBank a b) where
  now := setBank_now s a b
  brake := setBank_brakeEngaged s a b
  loaded c := by
    rw [bank_setBank]
    split
    · subst c; exact hloaded
    · exact ⟨rfl, rfl⟩
  position c := by
    rw [bank_setBank]
    split
    · subst c; exact hposition
    · exact ⟨rfl, rfl⟩

theorem unmoved_of_fields {s t : State} (hnow : t.now = s.now) (hbrake : t.brakeEngaged = s.brakeEngaged)
    (hbank : ∀ a, t.bank a = s.bank a) : Unmoved s t :=
  ⟨hnow, hbrake, fun a => by rw [hbank]; exact ⟨rfl, rfl⟩, fun a => by rw [hbank]; exact ⟨rfl, rfl⟩⟩

theorem Unmoved.setFg {s t : State} (h : Unmoved s t) (fg : Foreground) : Unmoved s { t with fg := fg } :=
  h.trans (unmoved_of_fields rfl rfl fun a => by cases a <;> rfl)

theorem unmoved_enqueueOp {a : Axis} {d : Dir} {n l : BitVec 32} {s t : State} (h : enqueueOp a d n l s = .ok t) :
    Unmoved s t := by
  obtain ⟨-, -, -, rfl⟩ := enqueueOp_bank h
  exact unmoved_setBank ⟨rfl, rfl⟩ ⟨rfl, rfl⟩

theorem Writes.unmoved {s u : State} {i : Instr} (h : Writes s i u) : Unmoved s u := by
  cases h with
  | nothing => exact .of_onlyPorts (.refl s)
  | enqueue hok => exact unmoved_enqueueOp hok
  | pause a | resume a | estop a | qstop a | clrEstop a => exact unmoved_setBank ⟨rfl, rfl⟩ ⟨rfl, rfl⟩
  | foreground | drive => exact unmoved_of_fields rfl rfl fun a => by cases a <;> rfl
  | move _ hok =>
    obtain ⟨-, -, -, y, f, -, -, -, -, hmove⟩ := moveOp_ok hok
    obtain ⟨m, k, b, rfl⟩ := moveTo_ok hmove
    exact ⟨rfl, rfl, fun a => by cases a <;> exact ⟨rfl, rfl⟩, fun a => by cases a <;> exact ⟨rfl, rfl⟩⟩
  | estopAll | hold | release | drain | reset =>
    exact ⟨rfl, rfl, fun a => by cases a <;> exact ⟨rfl, rfl⟩, fun a => by cases a <;> exact ⟨rfl, rfl⟩⟩

theorem exec_unmoved {s t : State} {i : Instr} (htick : i ≠ .tick) (h : exec i s = .next t) : Unmoved s t := by
  by_cases hhall : ∃ ts, i = .hallEdge ts
  · obtain ⟨ts, rfl⟩ := hhall
    exact unmoved_of_fields (by rw [exec_hallEdge_frame h]) (by rw [exec_hallEdge_frame h]) (exec_hallEdge_bank h)
  · obtain ⟨u, hwrites, hanswer⟩ := exec_writes htick (not_exists.1 hhall) h
    exact hwrites.unmoved.trans (.of_onlyPorts hanswer.onlyPorts)

/-- What any step leaves: a TICK may move the axes, a poll may home one, and the clock may go on. -/
structure Owned (s t : State) : Prop where
  brake : t.brakeEngaged = s.brakeEngaged
  homed : ∀ a, (s.bank a).homed = true → (t.bank a).homed = true
  now : (∀ d, s.sched.head? ≠ some (.clock d)) → t.now = s.now
  loaded : s.sched.head? ≠ some .tick → ∀ a,
    (t.bank a).curDelay = (s.bank a).curDelay ∧ (t.bank a).curDir = (s.bank a).curDir
  position : s.sched.head? ≠ some .tick → s.sched.head? ≠ some .poll → ∀ a,
    (t.bank a).pos = (s.bank a).pos ∧ (t.bank a).homed = (s.bank a).homed

theorem Unmoved.owned {s t : State} (h : Unmoved s t) : Owned s t where
  brake := h.brake
  homed a hh := (h.position a).2.trans hh
  now _ := h.now
  loaded _ := h.loaded
  position _ _ := h.position

theorem exec_tick_owned {s u t : State} (hports : OnlyPorts s u) (hhead : s.sched.head? = some .tick)
    (h : exec .tick u = .next t) : Owned s t where
  brake := by
    rw [exec_tick_eq] at h
    cases h
    exact hports.brakeEngaged
  homed a hh := by
    obtain ⟨-, -, hhomed, -, -⟩ := tickBank_frame u.cfg.cap (u.bank a)
    rw [exec_tick_bank h, hhomed, hports.bank, hh]
  now _ := by
    rw [exec_tick_eq] at h
    cases h
    exact hports.now
  loaded hno := absurd hhead hno
  position hno := absurd hhead hno

theorem poll_owned {s u t : State} {rest : List Action} (hhead : s.sched.head? = some .poll)
    (hu : PollWrites { s with sched := rest } u) (ht : OnlyPorts u t) : Owned s t := by
  have hturn : Unmoved s { s with sched := rest } := .of_onlyPorts rfl
  have hend : Unmoved u t := .of_onlyPorts ht
  cases hu with
  | nothing => exact (hturn.trans hend).owned
  | done => exact ((hturn.setFg .idle).trans hend).owned
  | timedOut a =>
    have hflush : Unmoved { s with sched := rest } _ :=
      unmoved_setBank (a := a) (b := (State.bank { s with sched := rest } a).flush) ⟨rfl, rfl⟩ ⟨rfl, rfl⟩
    exact (((hturn.trans hflush).setFg .idle).trans hend).owned
  | enqueue hok => exact ((hturn.trans (unmoved_enqueueOp hok)).trans hend).owned
  | homed a =>
    have hbank (c : Axis) : t.bank c = if c = a then { s.bank a with pos := 0#64, homed := true } else s.bank c := by
      rw [ht.bank]
      cases a <;> cases c <;> rfl
    refine ⟨ht.brakeEngaged.trans (setBank_brakeEngaged _ _ _), fun c hh => ?keepsHomed,
      fun _ => ht.now.trans (setBank_now _ _ _), fun _ c => ?keepsLoaded, fun _ hno => absurd hhead hno⟩
    case keepsHomed =>
      rw [hbank]
      split
      · rfl
      · exact hh
    case keepsLoaded =>
      rw [hbank]
      split
      · subst c; exact ⟨rfl, rfl⟩
      · exact ⟨rfl, rfl⟩

theorem step_owned {s t : State} (h : step s = .next t) : Owned s t := by
  obtain ⟨i, u, -, hports, htick, hexec⟩ | ⟨-, -, hsettles⟩ := step_cases h
  · by_cases hi : i = .tick
    · subst hi
      exact exec_tick_owned hports (htick.1 rfl) hexec
    · exact ((Unmoved.of_onlyPorts hports).trans (exec_unmoved hi hexec)).owned
  · cases hsettles with
    | ports hports => exact (Unmoved.of_onlyPorts hports).owned
    | clock rest hclock =>
      exact ⟨rfl, fun a => by cases a <;> exact id, fun hno => absurd hclock (hno _),
        fun _ a => by cases a <;> exact ⟨rfl, rfl⟩, fun _ _ a => by cases a <;> exact ⟨rfl, rfl⟩⟩
    | estopReq rest =>
      have hstop : Unmoved s (estopAllOp { s with sched := rest }) :=
        ⟨rfl, rfl, fun a => by cases a <;> exact ⟨rfl, rfl⟩, fun a => by cases a <;> exact ⟨rfl, rfl⟩⟩
      exact hstop.owned
    | poll rest hhead hu ht => exact poll_owned hhead hu ht

theorem step_hallValid {s t : State} (h : step s = .next t) (hvalid : s.hallValid = true) : t.hallValid = true := by
  cases hunseen : t.hallValid with
  | true => rfl
  | false =>
    obtain ⟨-, -, hsame⟩ := hallRegs_eq_iff.1 (step_hallRegs_of_unseen h hunseen)
    rw [← hunseen, hsame, hvalid]

/-- What a step leaves alone that runs a TICK. -/
theorem step_tick_frame {s t : State} (h : step s = .next t) (hhead : s.sched.head? = some .tick) :
    t.safety = s.safety ∧ t.feed = s.feed ∧ t.fg = s.fg ∧ t.targetRpm = s.targetRpm ∧ t.spinDir = s.spinDir ∧
      ∀ a, (t.bank a).ring = (s.bank a).ring ∧ (t.bank a).tail = (s.bank a).tail ∧
        (t.bank a).homed = (s.bank a).homed ∧ (t.bank a).paused = (s.bank a).paused ∧
        (t.bank a).estop = (s.bank a).estop := by
  obtain ⟨i, u, -, hports, htick, hexec⟩ | ⟨-, hno, -⟩ := step_cases h
  · obtain rfl := htick.2 hhead
    have hregs : t = { u with spindle := t.spindle, traverse := t.traverse, history := t.history } := by
      rw [exec_tick_eq] at hexec
      cases hexec
      rfl
    refine ⟨(congrArg State.safety hregs).trans hports.safety, (congrArg State.feed hregs).trans hports.feed,
      (congrArg State.fg hregs).trans hports.fg, (congrArg State.targetRpm hregs).trans hports.targetRpm,
      (congrArg State.spinDir hregs).trans hports.spinDir, fun a => ?_⟩
    rw [exec_tick_bank hexec, ← hports.bank]
    exact tickBank_frame u.cfg.cap (u.bank a)
  · exact absurd hhead hno

theorem onlyPorts_hallEdge {s u : State} {ts : BitVec 64} (h : fetch s = .run (.hallEdge ts) u) :
    OnlyPorts s u ∧ u.history = s.history := by
  have hports := fetch_fetches s
  rw [h] at hports
  cases hports with
  | run _ hports _ =>
    refine ⟨hports, ?_⟩
    unfold fetch at h
    split at h
    · cases h
    · rename_i act rest hsched
      cases act
      case hallEdge => cases h; rfl
      case hallLevel level =>
        dsimp only [fetchHall] at h
        split at h <;> cases h
        rfl
      case takeWord => cases (fetchWord_run_effect (clears := fun _ => true) (enqueues := fun _ => true) h).2
      case takeLine => cases (fetchLine_run_effect (clears := fun _ => true) (enqueues := fun _ => true) h).2
      all_goals cases h

/-- What a step leaves alone that runs a Hall edge. -/
theorem step_hallEdge_frame {s t u : State} {ts : BitVec 64} (h : step s = .next t)
    (hfetch : fetch s = .run (.hallEdge ts) u) :
    t.safety = s.safety ∧ t.feed = s.feed ∧ t.fg = s.fg ∧ t.targetRpm = s.targetRpm ∧ t.spinDir = s.spinDir ∧
      t.history = s.history ∧ ∀ a, t.bank a = s.bank a := by
  obtain ⟨hports, hhistory⟩ := onlyPorts_hallEdge hfetch
  obtain ⟨-, ⟨i, v, hrun, hexec⟩ | hsettled⟩ := step_next h
  · cases hfetch.symm.trans hrun
    have hregs := exec_hallEdge_frame hexec
    exact ⟨(congrArg State.safety hregs).trans hports.safety, (congrArg State.feed hregs).trans hports.feed,
      (congrArg State.fg hregs).trans hports.fg, (congrArg State.targetRpm hregs).trans hports.targetRpm,
      (congrArg State.spinDir hregs).trans hports.spinDir, (congrArg State.history hregs).trans hhistory,
      fun a => (exec_hallEdge_bank hexec a).trans (hports.bank a)⟩
  · cases hfetch.symm.trans hsettled

end Sys2Proof.Machine

namespace Sys2Proof.Proofs

open Sys2Proof.Machine

/-- Settles O11: R7's bounds in natural numbers, the test in front of every step, and that no operation writes cfg. -/
theorem inadmissibleConfigurationIsRefused : Obligations.InadmissibleConfigurationIsRefused := by
  refine ⟨fun cfg => ?bounds, fun s => step_inadmissible, fun s t h => ⟨(step_next h).1, step_cfg h⟩⟩
  case bounds =>
    rw [Config.admissible, decide_eq_true_iff]
    simp only [word32_ne_zero_iff, BitVec.le_def]
    rfl

/-- Settles O12: every instruction answers, and the one poll without an answer needs an inadmissible configuration. -/
theorem admissibleStepCompletes : Obligations.AdmissibleStepCompletes :=
  fun _ hcfg => step_completes hcfg

/-- Settles O53: of the writes of a step only those of the admission table change the SafetyState. -/
theorem safetyTransitions : Obligations.SafetyTransitions := by
  intro s t h
  obtain ⟨i, u, hfetch, hports, -, hexec⟩ | ⟨-, -, hsettles⟩ := step_cases h
  · obtain hsame | hmove := exec_safety hexec
    · exact .inl (hsame.trans hports.safety)
    · exact .inr (.inr ⟨i, u, hfetch, hmove.of_onlyPorts hports⟩)
  · cases hsettles with
    | ports hports => exact .inl hports.safety
    | clock => exact .inl rfl
    | estopReq rest hhead => exact .inr (.inl ⟨hhead, rfl⟩)
    | poll rest _ hu ht => exact .inl (ht.safety.trans hu.safety)

/-- Settles O54: an error is answered on the state the instruction found, and the events answer nothing. -/
theorem rejectionChangesNothing : Obligations.RejectionChangesNothing := by
  intro i s t h
  by_cases htick : i = .tick
  · subst htick
    rw [exec_tick_eq] at h
    cases h
    simp only [List.append_cancel_left_eq]
    constructor
    all_goals
      cases (tickBank s.cfg.cap s.spindle).2 <;> cases (tickBank s.cfg.cap s.traverse).2 <;> simp
  · by_cases hhall : ∃ ts, i = .hallEdge ts
    · obtain ⟨ts, rfl⟩ := hhall
      rw [exec_hallEdge_frame h]
      simp
    · obtain ⟨u, hwrites, hanswer⟩ := exec_writes htick (not_exists.1 hhall) h
      exact hanswer.rejection hwrites.history

/-- Settles O55: the writes that change the SafetyState set the flags of both axes with it. -/
theorem safetyInvariantsHold : Obligations.SafetyInvariantsHold := by
  refine ⟨fun s t hinv hflags h => ?step, fun cfg now h l1 l2 => ?reset⟩
  case step =>
    obtain ⟨i, u, hfetch, hports, -, hexec⟩ | ⟨-, -, hsettles⟩ := step_cases h
    · exact (hinv.of_sameFlags (.of_onlyPorts hports)).exec_keeps (hflags i u hfetch) hexec
    · exact hinv.settles_keep hsettles
  case reset =>
    exact { emergency_stopped := nofun, hold_paused := nofun, normal_unpaused := fun _ a => by cases a <;> rfl }

/-- Settles O56: each clause read off the step's own writes. -/
theorem registerOwnership : Obligations.RegisterOwnership := by
  intro s t h
  have howned := step_owned h
  refine ⟨howned.brake, step_hallValid h, howned.homed, fun hno => hallRegs_eq_iff.1 (step_hallRegs hno h), howned.now,
    fun hno a => ?notTick, step_tick_frame h, fun ts u hfetch => step_hallEdge_frame h hfetch⟩
  case notTick =>
    obtain ⟨hdelay, hdir⟩ := howned.loaded hno a
    exact ⟨hdelay, hdir, fun hpoll => howned.position hno hpoll a⟩

end Sys2Proof.Proofs
end

section
/-!
PROOF. The Move Queue operations one by one (41_move_queue R170 to R180, 42_rpm_estimator R227): what each writes of its
axis and answers, in every state.
-/

namespace Sys2Proof.Machine

/-! ## Forms of an answer (30_encoding R104) -/

/-- An operation that writes one bank and answers OK changes nothing else. -/
theorem answersOnAxis_of_setBank {i : Instr} {s : State} {a : Axis} {b : AxisBank}
    (h : exec i s = .next (respond .ok 0#64 (s.setBank a b))) : AnswersOnAxis i s a b 0#68 := by
  refine ⟨_, h, by simp, fun c hc => by simp [bank_setBank_ne s b hc], ?_⟩
  cases a <;> rfl

theorem enqueueOp_queueFull {a : Axis} {d : Dir} {n l : BitVec 32} {s : State}
    (hrun : ¬(s.safety = .emergencyStopped ∨ (s.bank a).estop = true)) (hchunk : ¬(n = 0#32 ∨ l = 0#32))
    (hfull : s.depth a = s.cfg.cap) : enqueueOp a d n l s = .error .queueFull := by
  rw [enqueueOp, if_neg hrun, if_neg hchunk, if_pos hfull]

theorem exec_home_of_error {a : Axis} {s : State} {c : ResultCode} (h : homeStart a .operation s = .error c) :
    OnlyAnswers (.home a) s (rspWord c 0#64) := by
  simp only [OnlyAnswers, exec, execHome, h]
  rfl

theorem exec_home_of_ok {a : Axis} {s t : State} (h : homeStart a .operation s = .ok t) :
    exec (.home a) s = .next t := by
  simp only [exec, execHome, h]

/-! ## An accepted ENQUEUE (R170) -/

/-- The chunk is the ring's last, so the planned position moves by its steps (10_state R35). -/
theorem BankInv.planned_enqueued {cap : Nat} {b : AxisBank} (h : BankInv cap b) (hroom : b.depth cap < cap)
    (c : Chunk) : (b.enqueued cap c).planned cap = b.planned cap + signed c.dir c.count.toNat := by
  simp only [AxisBank.planned, h.ringChunks_enqueued hroom, List.map_append, List.sum_append, List.map_cons,
    List.map_nil, List.sum_singleton]
  exact (add_assoc _ _ _).symm

end Sys2Proof.Machine

namespace Sys2Proof.Proofs

open Sys2Proof.Machine

/-- Settles O13: the one slot at `tail` is written, and it is the ring's last. -/
theorem enqueueStoresChunk : Obligations.EnqueueStoresChunk := by
  intro s a d n l hsafety hestop hn hl hfull hinv
  have hroom := hinv.depth_lt_of_ne hfull
  have hbank : (respond .ok 0#64 (s.setBank a ((s.bank a).enqueued s.cfg.cap ⟨n, l, d⟩))).bank a =
      (s.bank a).enqueued s.cfg.cap ⟨n, l, d⟩ := by simp
  refine ⟨_, exec_enqueue_of_valid (c := ⟨n, l, d⟩) hsafety hestop ⟨hn, hl⟩ hfull, ?frame, ?other, ?bank, ?slot,
    fun j hj => ?slots, ?ring, ?planned⟩
  case frame => cases a <;> rfl
  case other => exact fun c hc => by simp [bank_setBank_ne s _ hc]
  case bank => rw [hbank]; rfl
  case slot => rw [hbank]; exact memRead_memWrite_same hinv.ring_wf _ rfl
  case slots => rw [hbank]; exact memRead_memWrite_ne (s.bank a) _ hj
  case ring => rw [hbank]; exact hinv.ringChunks_enqueued hroom _
  case planned =>
    rw [State.planned, hbank, respond_cfg, setBank_cfg]
    exact hinv.planned_enqueued hroom _

/-- Settles O14: R170's tests in their order. -/
theorem enqueueRejections : Obligations.EnqueueRejections := by
  intro s a d n l
  split
  · exact onlyAnswers_enqueue_of_error (enqueueOp_stopped d n l ‹_›)
  · rename_i hrun
    obtain ⟨hsafety, hestop⟩ := not_or.1 hrun
    split
    · exact onlyAnswers_enqueue_of_error (enqueueOp_invalidChunk hsafety (by simpa using hestop) ‹_›)
    · exact fun hfull => onlyAnswers_enqueue_of_error (enqueueOp_queueFull hrun ‹_› hfull)

/-- Settles O15: one bank with its flag changed, and the answer. -/
theorem pauseAndResumeWriteOneFlag : Obligations.PauseAndResumeWriteOneFlag :=
  fun _ _ => ⟨answersOnAxis_of_setBank rfl, answersOnAxis_of_setBank rfl⟩

/-- Settles O16: one bank with its fields changed, and the answer. -/
theorem stopsOfOneAxis : Obligations.StopsOfOneAxis :=
  fun _ _ => ⟨answersOnAxis_of_setBank rfl, answersOnAxis_of_setBank rfl, answersOnAxis_of_setBank rfl⟩

/-- Settles O18: the start step's two tests in their order. -/
theorem homeStarts : Obligations.HomeStarts := by
  intro s a
  split
  · exact exec_home_of_error (if_pos ‹_›)
  · rename_i hrun
    split
    · exact exec_home_of_error (by rw [homeStart, if_neg hrun, if_pos ‹_›])
    · exact exec_home_of_ok (by rw [homeStart, if_neg hrun, if_neg ‹_›])

/-- Settles O20: each read answers its register or view. -/
theorem axisReadsAnswer : Obligations.AxisReadsAnswer := by
  refine fun s a => ⟨?active, ⟨depthWord (s.depth a), rfl, fun hwide => ?depth⟩, rfl, rfl⟩
  case active =>
    simp only [OnlyAnswers, exec, execIsActive]
    split <;> rfl
  case depth =>
    have hdepth : s.depth a = ((((s.bank a).tail : Int) - ((s.bank a).head : Int)) % (2 * s.cfg.cap : Int)).toNat := by
      rw [State.depth, AxisBank.depth]
      push_cast
      rfl
    rw [← hdepth] at hwide ⊢
    exact depthWord_toNat hwide

/-- Settles O36: GET_RPM reads 0 where R227 calls the estimate stalled. -/
theorem getRpmReads : Obligations.GetRpmReads := by
  intro s
  simp only [← stalled_iff]
  split
  · rename_i hstalled
    simp only [OnlyAnswers, exec, execGetRpm, State.rpmValue, if_pos hstalled]
    rfl
  · rename_i hrunning
    simp only [OnlyAnswers, exec, execGetRpm, State.rpmValue, if_neg hrunning]
    rfl

end Sys2Proof.Proofs
end

section
/-!
PROOF. The commands one by one (43_command_interpreter R251 to R262): their tests in order, and what an accepted one
writes.
-/

namespace Sys2Proof.Machine

/-! ## Starts of G28 and G4 (R253, R254) -/

theorem exec_g28_of_ok {ps : List Param} {s t : State} (h : g28Start ps s = .ok t) : exec (.g28 ps) s = .next t := by
  simp only [exec, execG28, h]

/-- The start of G28 after its first two tests: the traverse's own flags decide. -/
theorem g28Start_normal {ps : List Param} {s : State} (hnormal : s.safety = .normal)
    (hx : paramPresent letterX ps = false) :
    g28Start ps s = if s.traverse.estop = true ∨ s.traverse.paused = true then .error .safetyState
      else .ok { s with fg := .home .traverse s.now .g28 } := by
  cases hestop : s.traverse.estop <;> cases hpaused : s.traverse.paused <;>
    simp [g28Start, homeStart, hnormal, hx, hestop, hpaused]

theorem frozenWork_iff (s : State) : s.frozenWork = true ↔
    (s.spindle.active = true ∧ s.spindle.paused = true) ∨ (s.traverse.active = true ∧ s.traverse.paused = true) := by
  simp [State.frozenWork]

theorem allIdle_iff (s : State) : s.allIdle = true ↔ s.spindle.active = false ∧ s.traverse.active = false := by
  simp [State.allIdle]

theorem ceil_eq (q : Rat) : q.ceil = ⌈q⌉ :=
  eq_of_forall_ge_iff fun _ => Rat.ceil_le_iff.trans Int.ceil_le.symm

/-- R254's cases in their order. -/
theorem exec_g4 (ps : List Param) (s : State) : exec (.g4 ps) s =
    let p := (paramValue letterP ps).getD 0
    let dur := ⌈p * s.cfg.tsHz / 1000⌉
    if p < 0 ∨ 2 ^ 63 ≤ dur then .next (reply (errorText .outOfRange) s)
    else if p = 0 then if s.frozenWork then .next (reply (errorText .safetyState) s) else .next (syncStart s)
    else .next { s with fg := .dwell s.now dur.toNat } := by
  simp only [exec, execG4, dwellTs, ceil_eq]

/-- The foreground's turn to go on with what is in progress (20_memory R80). -/
theorem step_poll {s : State} {rest : List Action} (hcfg : s.cfg.admissible = true)
    (hsched : s.sched = .poll :: rest) : step s = pollOp { s with sched := rest } := by
  simp [step, fetch, hcfg, hsched]

/-! ## M3 and M4 (R255, R256) -/

theorem onlyReplies_m3_of_error {ps : List Param} {s : State} {r : Reason} (h : spindleOp .cw ps s = .error r) :
    OnlyReplies (.m3 ps) s (errorText r) :=
  congrArg (finishLine s) h

theorem onlyReplies_m4_of_error {ps : List Param} {s : State} {r : Reason} (h : spindleOp .ccw ps s = .error r) :
    OnlyReplies (.m4 ps) s (errorText r) :=
  congrArg (finishLine s) h

/-! ## M0, M1 and M999 (R258, R259, R262) -/

/-- The end of a command whose result is known. -/
theorem finishLine_error {s : State} {r : Reason} {e : Except Reason State} (h : e = .error r) :
    finishLine s e = .next (reply (errorText r) s) := by
  rw [h]
  rfl

theorem finishLine_ok {s t : State} {e : Except Reason State} (h : e = .ok t) :
    finishLine s e = .next (reply (ascii "OK") t) := by
  rw [h]
  rfl

/-! ## G0 and G1 (R251, R252) -/

theorem paramPresent_iff (l : Letter) (ps : List Param) : paramPresent l ps = true ↔ paramValue l ps ≠ none := by
  induction ps with
  | nil => simp [paramPresent, paramValue]
  | cons p ps ih =>
    have hcons : paramPresent l (p :: ps) = (p.letter == l || paramPresent l ps) := rfl
    rw [hcons, paramValue]
    by_cases hp : p.letter = l <;> simp [hp, ih]

/-- F, where it is given, must be in range; the modal rate is not tested again (R252). -/
theorem moveFeed_eq_none {ps : List Param} {s : State} (h : paramPresent letterF ps = true ∧
    ((paramValue letterF ps).getD s.feed ≤ 0 ∨ s.cfg.maxFeed < (paramValue letterF ps).getD s.feed)) :
    moveFeed ps s = none := by
  rw [paramPresent_iff] at h
  unfold moveFeed
  cases hf : paramValue letterF ps <;> simp_all

theorem moveFeed_eq_some {ps : List Param} {s : State} (h : ¬(paramPresent letterF ps = true ∧
    ((paramValue letterF ps).getD s.feed ≤ 0 ∨ s.cfg.maxFeed < (paramValue letterF ps).getD s.feed))) :
    moveFeed ps s = some ((paramValue letterF ps).getD s.feed) := by
  rw [paramPresent_iff] at h
  unfold moveFeed
  cases hf : paramValue letterF ps <;> simp_all

section

variable {ps : List Param} {s : State} {y f : Rat}
  (hrun : ¬(s.safety = .emergencyStopped ∨ s.traverse.estop = true))

include hrun

theorem moveOp_x (hx : paramPresent letterX ps = true) : moveOp ps s = .error .unsupportedAxis := by
  rw [moveOp, if_neg hrun, if_pos hx]

variable (hx : ¬paramPresent letterX ps = true)

include hx

theorem moveOp_no_y (hy : paramValue letterY ps = none) : moveOp ps s = .error .missingParam := by
  rw [moveOp, if_neg hrun, if_neg hx, hy]

variable (hy : paramValue letterY ps = some y)

include hy

theorem moveOp_travel (h : y < s.cfg.travelMinMm ∨ s.cfg.travelMaxMm < y) : moveOp ps s = .error .outOfRange := by
  rw [moveOp, if_neg hrun, if_neg hx, hy]
  exact if_pos h

variable (htravel : ¬(y < s.cfg.travelMinMm ∨ s.cfg.travelMaxMm < y))

include htravel

theorem moveOp_feed (h : moveFeed ps s = none) : moveOp ps s = .error .outOfRange := by
  rw [moveOp, if_neg hrun, if_neg hx, hy]
  dsimp only
  rw [if_neg htravel, h]

/-- A move that passes the tests of its operands goes on to its target (R252). -/
theorem moveOp_eq_moveTo (h : moveFeed ps s = some f) : moveOp ps s = moveTo y f s := by
  rw [moveOp, if_neg hrun, if_neg hx, hy]
  dsimp only
  rw [if_neg htravel, h]

end

theorem pieceCount_eq_ceil (m : Nat) : (pieceCount m : Int) = ⌈(m : Rat) / (2 ^ 32 - 1)⌉ := by
  have hmax : ((2 : Rat) ^ 32 - 1) = (maxWord32 : Rat) := by norm_num [maxWord32]
  have hpos : (0 : Rat) < (maxWord32 : Rat) := by norm_num [maxWord32]
  have hle (k : Nat) : ⌈(m : Rat) / (2 ^ 32 - 1)⌉ ≤ (k : Int) ↔ pieceCount m ≤ k := by
    rw [pieceCount_le_iff, Int.ceil_le, hmax, div_le_iff₀ hpos, Int.cast_natCast, mul_comm]
    exact_mod_cast Iff.rfl
  have hnonneg : 0 ≤ ⌈(m : Rat) / (2 ^ 32 - 1)⌉ := Int.ceil_nonneg (by rw [hmax]; positivity)
  obtain ⟨c, hc⟩ := Int.eq_ofNat_of_zero_le hnonneg
  rw [hc] at hle ⊢
  have hupper := (hle (pieceCount m)).2 le_rfl
  have hlower := (hle c).1 le_rfl
  omega

/-- A refusal of both traverse moves, which share one operation (R251). -/
theorem onlyReplies_moves_of_error {ps : List Param} {s : State} {r : Reason} (h : moveOp ps s = .error r) :
    OnlyReplies (.g0 ps) s (errorText r) ∧ OnlyReplies (.g1 ps) s (errorText r) :=
  ⟨onlyReplies_g0_of_error h, onlyReplies_g1_of_error h⟩

theorem moveTo_outOfRange {y f : Rat} {s : State} (h : feedDelay s.cfg f < 1 ∨ 2 ^ 32 - 1 < feedDelay s.cfg f) :
    moveTo y f s = .error .outOfRange :=
  if_pos h

theorem moveTo_queueFull {y f : Rat} {s : State} (hd : ¬(feedDelay s.cfg f < 1 ∨ 2 ^ 32 - 1 < feedDelay s.cfg f))
    (hn : steps s.cfg y - s.planned .traverse ≠ 0)
    (hfull : (s.cfg.cap : Int) - s.depth .traverse < pieceCount (steps s.cfg y - s.planned .traverse).natAbs) :
    moveTo y f s = .error .queueFull := by
  unfold moveTo
  exact (if_neg hd).trans ((if_neg hn).trans (if_pos hfull))

end Sys2Proof.Machine

namespace Sys2Proof.Proofs

open Sys2Proof.Machine

/-- Settles O41: R267's tests in their order, each before any write. -/
theorem moveRejections : Obligations.MoveRejections := by
  intro s ps refuse
  split
  · exact onlyReplies_moves_of_error (moveOp_stopped ps ‹_›)
  · rename_i hrun
    split
    · exact onlyReplies_moves_of_error (moveOp_x hrun ‹_›)
    · rename_i hx
      split
      · exact onlyReplies_moves_of_error (moveOp_no_y hrun hx ‹_›)
      · rename_i y hy
        intro f d m
        split
        · rename_i hrange
          by_cases htravel : y < s.cfg.travelMinMm ∨ s.cfg.travelMaxMm < y
          · exact onlyReplies_moves_of_error (moveOp_travel hrun hx hy htravel)
          · by_cases hfeed : paramPresent letterF ps = true ∧ (f ≤ 0 ∨ s.cfg.maxFeed < f)
            · exact onlyReplies_moves_of_error (moveOp_feed hrun hx hy htravel (moveFeed_eq_none hfeed))
            · have hdelay : d < 1 ∨ 2 ^ 32 - 1 < d := by tauto
              exact onlyReplies_moves_of_error
                ((moveOp_eq_moveTo hrun hx hy htravel (moveFeed_eq_some hfeed)).trans (moveTo_outOfRange hdelay))
        · rename_i hrange
          intro hm hfull
          simp only [not_or] at hrange
          obtain ⟨hmin, hmax, hfeed, hlow, hhigh⟩ := hrange
          have hmove := moveOp_eq_moveTo hrun hx hy (not_or.2 ⟨hmin, hmax⟩) (moveFeed_eq_some hfeed)
          have hn : steps s.cfg y - s.planned .traverse ≠ 0 := Int.natAbs_ne_zero.1 hm
          rw [← pieceCount_eq_ceil] at hfull
          exact onlyReplies_moves_of_error (hmove.trans (moveTo_queueFull (not_or.2 ⟨hlow, hhigh⟩) hn hfull))

/-- Settles O42: R253's tests in their order. -/
theorem homingCommandStarts : Obligations.HomingCommandStarts := by
  intro s ps
  split
  · exact onlyReplies_g28_of_error (g28Start_not_normal ps ‹_›)
  · rename_i hsafety
    split
    · exact onlyReplies_g28_of_error (by rw [g28Start, if_neg hsafety, if_pos ‹_›])
    · rename_i hx
      have hstart := g28Start_normal (not_not.1 hsafety) (Bool.eq_false_of_not_eq_true hx)
      split
      · exact onlyReplies_g28_of_error (by rw [hstart, if_pos ‹_›])
      · exact exec_g28_of_ok (by rw [hstart, if_neg ‹_›])

/-- Settles O43: R254's cases in their order; an idle sync is over at once (log entry 18). -/
theorem dwellAndSyncStart : Obligations.DwellAndSyncStart := by
  intro s ps p dur
  simp only [← frozenWork_iff, ← allIdle_iff, OnlyReplies, exec_g4]
  by_cases hrange : p < 0 ∨ 2 ^ 63 ≤ dur
  · rw [if_pos hrange, if_pos hrange]
    rfl
  · rw [if_neg hrange]
    by_cases hp : p = 0
    · rw [if_neg (not_not.2 hp), if_neg hrange, if_pos hp]
      split
      · rfl
      · rw [syncStart]
        split <;> rfl
    · rw [if_pos hp, if_neg hrange, if_neg hp]

/-- Settles O44: a poll of each kind of wait, before and at its end. -/
theorem dwellAndSyncEnd : Obligations.DwellAndSyncEnd := by
  refine fun s rest hcfg hsched => ⟨fun t0 dur hfg => ?dwell, fun hfg => ?sync⟩
  case dwell => simp only [step_poll hcfg hsched, pollOp, hfg]; rfl
  case sync =>
    simp only [step_poll hcfg hsched, pollOp, hfg, allIdle_iff]
    rfl

/-- Settles O45: the tests of R255 in their order. -/
theorem spindleCommands : Obligations.SpindleCommands := by
  intro s ps refuse
  have hrefuse {r : Reason} (h : ∀ d, spindleOp d ps s = .error r) :
      OnlyReplies (.m3 ps) s (errorText r) ∧ OnlyReplies (.m4 ps) s (errorText r) :=
    ⟨onlyReplies_m3_of_error (h _), onlyReplies_m4_of_error (h _)⟩
  split
  · exact hrefuse fun d => by rw [spindleOp, if_pos ‹_›]
  · rename_i hsafety
    split
    · rename_i hv
      exact hrefuse fun d => by rw [spindleOp, if_neg hsafety, hv]
    · rename_i v hv
      have hop d : spindleOp d ps s = if v < 0 ∨ s.cfg.maxRpm < v then .error .outOfRange
          else .ok ({ s with targetRpm := v, spinDir := d }.emit (.spindleDrive .ramp)) := by
        rw [spindleOp, if_neg hsafety, hv]
      split
      · exact hrefuse fun d => by rw [hop, if_pos ‹_›]
      · rename_i hrange
        have hok d := (hop d).trans (if_neg hrange)
        intro started
        exact ⟨(finishLine_ok (hok .cw)).trans (by simp [reply, State.emit, started, byteLf]),
          (finishLine_ok (hok .ccw)).trans (by simp [reply, State.emit, started, byteLf])⟩

/-- Settles O46: neither command tests anything. -/
theorem stopCommandsAlwaysRun : Obligations.StopCommandsAlwaysRun := by
  refine fun s ps => ⟨?m5, rfl⟩
  case m5 => simp [exec, execM5, finishLine, reply, State.emit, byteLf]

/-- Settles O47: each command has one admitting SafetyState. -/
theorem feedHoldAndResume : Obligations.FeedHoldAndResume := by
  refine fun s ps => ⟨?hold, ?resume⟩
  case hold =>
    split
    · rename_i hnormal
      exact finishLine_ok (if_neg (not_not.2 hnormal))
    · rename_i hother
      exact finishLine_error (if_pos hother)
  case resume =>
    split
    · rename_i hhold
      exact finishLine_ok (if_neg (not_not.2 hhold))
    · rename_i hother
      exact finishLine_error (if_pos hother)

/-- Settles O48: R262's two tests in their order. -/
theorem resetFromEmergencyStop : Obligations.ResetFromEmergencyStop := by
  intro s ps speed
  have hspeed : s.readRpm = speed := readRpm_eq s
  split
  · exact finishLine_error (if_pos ‹_›)
  · rename_i hstopped
    split
    · rename_i hfast
      exact finishLine_error ((if_neg hstopped).trans (if_pos (hspeed ▸ hfast)))
    · rename_i hslow
      exact finishLine_ok ((if_neg hstopped).trans (if_neg (hspeed ▸ hslow)))

end Sys2Proof.Proofs
end

section
/-!
PROOF. One step at a time (00_scope R3, 20_memory R80): what each action of the schedule runs or writes, a poll of HOME
(41_move_queue R176), the first steps after reset (70_reset_and_hazards R341), and a Hall edge beside a TICK
(42_rpm_estimator R221, 60_exceptions R310).
-/

namespace Sys2Proof.Machine

/-! ## The foreground's turns (30_encoding R100, R107) -/

theorem step_takeWord {s : State} {rest : List Action} {w : OpWord} {ws : List OpWord} {i : Instr}
    (hcfg : s.cfg.admissible = true) (hfg : s.fg = .idle) (hsched : s.sched = .takeWord :: rest)
    (hport : s.opPort = w :: ws) (hdec : decodePort w = .ok i) :
    step s = exec i { s with sched := rest, opPort := ws } := by
  simp [step, fetch, fetchWord, hcfg, hfg, hsched, hport, hdec]

theorem step_takeLine {s : State} {rest : List Action} {l after : List Byte} {i : Instr}
    (hcfg : s.cfg.admissible = true) (hfg : s.fg = .idle) (hsched : s.sched = .takeLine :: rest)
    (hcut : cutLine s.rx = some (l, after)) (hdec : decodeLine s.cfg.lineMax l = .ok i) :
    step s = exec i { s with sched := rest, rx := after } := by
  simp [step, fetch, fetchLine, hcfg, hfg, hsched, hcut, hdec]

/-- A foreground that is busy or finds no word uses up its turn. -/
theorem step_takeWord_nothing {s : State} {rest : List Action} (hcfg : s.cfg.admissible = true)
    (hsched : s.sched = .takeWord :: rest) (h : s.fg ≠ .idle ∨ s.opPort = []) :
    step s = .next { s with sched := rest } := by
  by_cases hfg : s.fg = .idle
  · have hport := h.resolve_left (not_not.2 hfg)
    simp [step, fetch, fetchWord, hcfg, hsched, hfg, hport]
  · simp [step, fetch, fetchWord, hcfg, hsched, hfg]

theorem step_takeLine_nothing {s : State} {rest : List Action} (hcfg : s.cfg.admissible = true)
    (hsched : s.sched = .takeLine :: rest) (h : s.fg ≠ .idle ∨ byteLf ∉ s.rx) :
    step s = .next { s with sched := rest } := by
  by_cases hfg : s.fg = .idle
  · have hcut := cutLine_eq_none_iff.2 (h.resolve_left (not_not.2 hfg))
    simp [step, fetch, fetchLine, hcfg, hsched, hfg, hcut]
  · simp [step, fetch, fetchLine, hcfg, hsched, hfg]

theorem step_poll_idle {s : State} {rest : List Action} (hcfg : s.cfg.admissible = true)
    (hsched : s.sched = .poll :: rest) (hfg : s.fg = .idle) : step s = .next { s with sched := rest } := by
  simp [step_poll hcfg hsched, pollOp, hfg]

/-! ## A poll of HOME (41_move_queue R176) -/

/-- Each end of a HOME that has a line for G28 is answered in its caller's form, the foreground idle again. -/
theorem answerHome_eq {c : ResultCode} {text : List Byte} (h : lineOfCode c = some text) (caller : HomeCaller)
    (s : State) : answerHome caller c s = .next { s with
      fg := .idle, history := s.history ++ [homeAnswer caller (rspWord c 0#64) text] } := by
  cases caller
  · rfl
  · simp only [answerHome, h]
    rfl

theorem pollOp_home {s : State} {a : Axis} {t0 : BitVec 64} {caller : HomeCaller} (hfg : s.fg = .home a t0 caller) :
    pollOp s = if s.homePollEnabled a t0 then homePoll a t0 caller s else .next s := by
  rw [pollOp, hfg]

theorem homeOverdue_iff (s : State) (t0 : BitVec 64) :
    s.homeOverdue t0 = true ↔ s.cfg.homingTimeoutTs < (s.now - t0).toNat :=
  decide_eq_true_iff

theorem homePollEnabled_iff (s : State) (a : Axis) (t0 : BitVec 64) : s.homePollEnabled a t0 = true ↔
    (s.bank a).active = false ∨ s.cfg.homingTimeoutTs < (s.now - t0).toNat ∨ (s.bank a).estop = true := by
  simp [State.homePollEnabled, homeOverdue_iff, or_assoc]

theorem admissible_cap {cfg : Config} (h : cfg.admissible = true) : 0 < cfg.cap := by
  rw [Config.admissible, decide_eq_true_iff] at h
  exact h.1

theorem bank_setSched (s : State) (rest : List Action) (a : Axis) :
    State.bank { s with sched := rest } a = s.bank a := by
  cases a <;> rfl

theorem bank_setFgHistory (s : State) (fg : Foreground) (h : List OutEvent) (a : Axis) :
    State.bank { s with fg := fg, history := h } a = s.bank a := by
  cases a <;> rfl

section

variable {s : State} {a : Axis} {t0 : BitVec 64} (caller : HomeCaller)

theorem homePoll_stopped (h : s.safety = .emergencyStopped ∨ (s.bank a).estop = true) :
    homePoll a t0 caller s = .next { s with
      fg := .idle
      history := s.history ++ [homeAnswer caller 0x20000000000000000#68 (ascii "ERROR_SAFETY_STATE")] } := by
  rw [homePoll, if_pos h, answerHome_eq rfl]
  rfl

variable (hrun : ¬(s.safety = .emergencyStopped ∨ (s.bank a).estop = true))

include hrun

theorem homePoll_homed (h : (s.bank a).active = false ∧ s.limitSw a = true) :
    homePoll a t0 caller s = .next { s.setBank a { s.bank a with pos := 0#64, homed := true } with
      fg := .idle, history := s.history ++ [homeAnswer caller 0#68 (ascii "OK")] } := by
  rw [homePoll, if_neg hrun, if_pos h, answerHome_eq rfl, setBank_history]
  rfl

variable (hswitch : ¬((s.bank a).active = false ∧ s.limitSw a = true))

include hswitch

theorem homePoll_timedOut (h : s.homeOverdue t0 = true) :
    homePoll a t0 caller s = .next { s.setBank a (s.bank a).flush with
      fg := .idle
      history := s.history ++ [homeAnswer caller 0x40000000000000000#68 (ascii "ERROR_HOMING_TIMEOUT")] } := by
  rw [homePoll, if_neg hrun, if_neg hswitch, if_pos h, answerHome_eq rfl, setBank_history]
  rfl

/-- A poll in time that finds the axis idle and away from its switch enqueues the next homing chunk; the ring of an idle
axis has room for it. -/
theorem homePoll_enqueues (hcfg : s.cfg.admissible = true) (hempty : s.depth a = 0)
    (htime : ¬s.homeOverdue t0 = true) :
    homePoll a t0 caller s = .next (s.setBank a
      ((s.bank a).enqueued s.cfg.cap ⟨s.cfg.homeChunkSteps, s.cfg.homeDelay, s.cfg.homeDir⟩)) := by
  have hcap := admissible_cap hcfg
  rw [Config.admissible, decide_eq_true_iff] at hcfg
  obtain ⟨-, -, -, -, -, -, -, hsteps, hdelay, -⟩ := hcfg
  obtain ⟨hsafety, hestop⟩ := not_or.1 hrun
  have hok := enqueueOp_of_valid (d := s.cfg.homeDir) hsafety (Bool.eq_false_of_not_eq_true hestop) hsteps hdelay
    (by omega : s.depth a ≠ s.cfg.cap)
  rw [homePoll, if_neg hrun, if_neg hswitch, if_neg htime, hok]
  rfl

end

/-! ## Reset (70_reset_and_hazards R341) -/

theorem axstat_reset (cfg : Config) (now : BitVec 64) (hallIn l1 l2 : Bool) (a : Axis) :
    (State.resetWith cfg now hallIn l1 l2).axstat a = 0#64 := by
  rw [axstat_eq_packedFlags, bank_resetWith]
  exact (by decide : packedFlags 0#1 0#2 false false false false = 0#64)

theorem stalled_reset (cfg : Config) (now : BitVec 64) (hallIn l1 l2 : Bool) :
    (State.resetWith cfg now hallIn l1 l2).stalled = true :=
  (stalled_iff _).2 (.inl rfl)

theorem statusText_reset (cfg : Config) (now : BitVec 64) (hallIn l1 l2 : Bool) :
    statusText (State.resetWith cfg now hallIn l1 l2) =
      ascii "STATUS: Spindle=0RPM(STOP) Traverse=0.00mm" := by
  have hpos : (State.resetWith cfg now hallIn l1 l2).traverse.pos.toInt = 0 := rfl
  have hround : roundAway 0 = 0 := by decide +kernel
  have htarget : ¬(0 : Rat) < (State.resetWith cfg now hallIn l1 l2).targetRpm := lt_irrefl _
  rw [statusText, State.readRpm, if_pos (stalled_reset cfg now hallIn l1 l2), hpos, Int.cast_zero, zero_mul, zero_div,
    hround, if_neg htarget]
  decide

/-! ## A Hall edge (42_rpm_estimator R221) -/

/-- The state after a TICK, as a function. -/
def State.withTick (s : State) : State :=
  { s with
    spindle := (tickBank s.cfg.cap s.spindle).1
    traverse := (tickBank s.cfg.cap s.traverse).1
    history := s.history ++ (((tickBank s.cfg.cap s.spindle).2.map (OutEvent.stepPulse .spindle)).toList ++
      ((tickBank s.cfg.cap s.traverse).2.map (OutEvent.stepPulse .traverse)).toList) }

theorem exec_tick_withTick (s : State) : exec .tick s = .next s.withTick := exec_tick_eq s

theorem exec_hallEdge_eq (ts : BitVec 64) (s : State) : exec (.hallEdge ts) s = .next (hallEdgeOp ts s) := rfl

/-- The estimator neither reads nor writes a bank or the output history, and a TICK none of its registers. -/
theorem hallEdgeOp_withTick (ts : BitVec 64) (s : State) : hallEdgeOp ts s.withTick = (hallEdgeOp ts s).withTick := by
  unfold hallEdgeOp State.withTick
  dsimp only
  split_ifs <;> rfl

theorem instRpm_eq (cfg : Config) (delta : Nat) :
    instRpm cfg delta = rnd cfg.rpmFormat (60 * cfg.tsHz / (delta * cfg.edgesPerRev)) := by
  rw [instRpm, Rat.mkRat_eq_div]
  push_cast
  rfl

theorem exec_hallEdge_discarded {s : State} {ts : BitVec 64} (hvalid : s.hallValid = true)
    (hbounce : (ts - s.lastEdgeTs).toNat < s.cfg.debounceTs) : exec (.hallEdge ts) s = .next s := by
  obtain ⟨hfirst, -⟩ | ⟨-, -, h⟩ | ⟨-, hfloor, -⟩ := hallEdgeOp_cases ts s
  · simp [hvalid] at hfirst
  · exact congrArg Host.Outcome.next h
  · omega

end Sys2Proof.Machine

namespace Sys2Proof.Proofs

open Sys2Proof.Machine

/-- Settles O6: the decoder evaluated on the bytes and words written out. -/
theorem writtenOutEncodingsDecode : Obligations.WrittenOutEncodingsDecode := by
  unfold Obligations.WrittenOutEncodingsDecode
  decide

/-- Settles O8: the foreground's turns, with and without something to take. -/
theorem stepRunsDecodedInstruction : Obligations.StepRunsDecodedInstruction := by
  refine ⟨fun s rest w ws i => step_takeWord, fun s rest l after i => step_takeLine, fun s rest hcfg h => ?nothing,
    fun s hcfg hsched => ?noTurn⟩
  case nothing =>
    obtain ⟨hsched, hnone⟩ | ⟨hsched, hnone⟩ | ⟨hsched, hfg⟩ := h
    · exact step_takeWord_nothing hcfg hsched hnone
    · exact step_takeLine_nothing hcfg hsched hnone
    · exact step_poll_idle hcfg hsched hfg
  case noTurn => simp [step, fetch, hcfg, hsched]

/-- Settles O9: each event of the schedule. -/
theorem stepTakesEvents : Obligations.StepTakesEvents := by
  refine fun s rest hcfg => ⟨fun hsched => ?tick, fun level hsched => ?level, fun ts hsched => ?edge,
    fun hsched => step_estopReq hcfg hsched, fun level hsched => ?traverse, fun level hsched => ?spindle,
    fun delta hsched => ?clock⟩
  case level =>
    by_cases hsame : level = s.hallPrev <;> simp [step, fetch, fetchHall, hcfg, hsched, hsame]
  all_goals simp [step, fetch, hcfg, hsched, State.setLimitSw]

/-- Settles O19: the poll's tests in R176's order, on the state without this turn. -/
theorem homePollSteps : Obligations.HomePollSteps := by
  intro s rest a t0 caller hcfg hsched hfg hinv overdue switch
  let u : State := { s with sched := rest }
  have hbank c : u.bank c = s.bank c := bank_setSched s rest c
  have hswitch : u.limitSw a = switch := by cases a <;> rfl
  have henabled := homePollEnabled_iff u a t0
  have hoverdue : u.homeOverdue t0 = true ↔ overdue := homeOverdue_iff u t0
  have hstep : step s = if u.homePollEnabled a t0 then homePoll a t0 caller u else .next u :=
    (step_poll hcfg hsched).trans (pollOp_home hfg)
  rw [hbank] at henabled
  split
  · rw [hstep, if_neg (henabled.not.2 ‹_›)]
  · rename_i hyes
    rw [hstep, if_pos (henabled.2 (not_not.1 hyes))]
    split
    · rename_i hstop
      rw [homePoll_stopped caller (by rwa [hbank])]
    · rename_i hstop
      have hrun : ¬(u.safety = .emergencyStopped ∨ (u.bank a).estop = true) := by rwa [hbank]
      split
      · rename_i hhome
        rw [homePoll_homed caller hrun (by rwa [hbank, hswitch]), hbank]
        refine ⟨_, rfl, ?_, fun c hc => ?_, ?_⟩
        · rw [bank_setFgHistory, bank_setBank_same]
        · rw [bank_setFgHistory, bank_setBank_ne _ _ hc, hbank]
        · cases a <;> rfl
      · rename_i haway
        have hhome : ¬((u.bank a).active = false ∧ u.limitSw a = true) := by rwa [hbank, hswitch]
        split
        · rw [homePoll_timedOut caller hrun hhome (hoverdue.2 ‹_›), hbank]
          refine ⟨_, rfl, ?_, fun c hc => ?_, ?_⟩
          · rw [bank_setFgHistory, bank_setBank_same]
            rfl
          · rw [bank_setFgHistory, bank_setBank_ne _ _ hc, hbank]
          · cases a <;> rfl
        · rename_i htime
          have hidle : (s.bank a).active = false := by
            obtain ⟨-, hestop⟩ := not_or.1 hstop
            exact (not_not.1 hyes).resolve_right (not_or.2 ⟨htime, hestop⟩)
          have hempty : (s.bank a).depth s.cfg.cap = 0 := (hinv.idle_empty hidle).1
          have hroom : (s.bank a).depth s.cfg.cap < s.cfg.cap := hempty ▸ admissible_cap hcfg
          rw [homePoll_enqueues caller hrun hhome hcfg (by rw [State.depth, hbank]; exact hempty)
            (hoverdue.not.2 htime), hbank]
          refine ⟨_, rfl, ?bank, ?ring, fun j hj => ?slots, fun c hc => ?other, ?frame⟩
          case bank => rw [bank_setBank_same]; rfl
          case ring =>
            rw [bank_setBank_same]
            exact (hinv.ringChunks_enqueued hroom _).trans (by rw [ringChunks_of_empty hempty]; rfl)
          case slots => rw [bank_setBank_same]; exact memRead_memWrite_ne (s.bank a) _ hj
          case other => rw [bank_setBank_ne _ _ hc, hbank]
          case frame => cases a <;> rfl

/-- Settles O35: an edge within the debounce floor is discarded, any other stores the smoothed speed. -/
theorem laterHallEdge : Obligations.LaterHallEdge := by
  intro s ts hvalid r q
  split
  · exact exec_hallEdge_discarded hvalid ‹_›
  · rename_i hfloor
    have hexec := exec_hallEdge_accepted hvalid (not_lt.1 hfloor)
    rw [instRpm_eq] at hexec
    refine ⟨hexec, fun hexact t ht => ?_⟩
    cases hexec.symm.trans ht
    simp only [ema, hexact, rnd]
    rfl

/-- Settles O39: a TICK writes banks and pulses, a Hall edge the estimator's registers, and neither reads the other's. -/
theorem hallEdgeAndTickCommute : Obligations.HallEdgeAndTickCommute := by
  intro s ts
  refine ⟨(hallEdgeOp ts s).withTick, ?tickFirst, ?edgeFirst⟩
  case tickFirst => simp only [execAll, exec_tick_withTick, exec_hallEdge_eq, hallEdgeOp_withTick]
  case edgeFirst => simp only [execAll, exec_tick_withTick, exec_hallEdge_eq]

/-- Settles O60: both axes idle, no edge seen, every register zero. -/
theorem firstStepsAfterReset : Obligations.FirstStepsAfterReset := by
  intro cfg now h l1 l2 hcfg s
  refine ⟨?tick, ?rpm, ?status, fun a => ?axis⟩
  case tick =>
    have hidle : tickBank cfg.cap AxisBank.reset = (AxisBank.reset, none) := tickBank_ineligible rfl
    have hbanks : tickBank s.cfg.cap s.spindle = (s.spindle, none) ∧ tickBank s.cfg.cap s.traverse = (s.traverse, none) :=
      ⟨hidle, hidle⟩
    rw [exec_tick_eq, hbanks.1, hbanks.2]
    rfl
  case rpm =>
    simp only [OnlyAnswers, exec, execGetRpm, State.rpmValue, s, if_pos (stalled_reset cfg now h l1 l2)]
    rfl
  case status =>
    rw [onlyReplies_iff, ← statusText_reset cfg now h l1 l2]
    rfl
  case axis =>
    simp only [OnlyAnswers, exec, execRdState, s, axstat_reset]
    rfl

end Sys2Proof.Proofs
end

section
/-!
PROOF. What a TICK makes of one axis (40_scheduler R141 to R146): a step, the chunk loaded after it, the pulses of n TICKs
(R150) and the planned position (R151).
-/

namespace Sys2Proof.Machine

/-! ## A step and a load (40_scheduler R143, R144) -/

/-- The bank after a step, before the LoadNext that may follow it. -/
def AxisBank.stepped (b : AxisBank) : AxisBank :=
  { b with
    curRem := b.curRem - 1#32, curCnt := b.curDelay
    pos := if b.curDir = .forward then b.pos + 1#64 else b.pos - 1#64 }

/-- The bank with the chunk at the head of its ring loaded. -/
def AxisBank.loadHead (cap : Nat) (b : AxisBank) : AxisBank :=
  { b with
    head := (b.head + 1) % (2 * cap), curRem := (memRead cap b b.head).count
    curDelay := (memRead cap b b.head).delay, curCnt := (memRead cap b b.head).delay
    curDir := (memRead cap b b.head).dir }

theorem emitStep_eq_stepped (cap : Nat) (b : AxisBank) : emitStep cap b = refill cap b.stepped := by
  rw [emitStep_eq_refill, AxisBank.stepped]
  cases b.curDir <;> simp [BitVec.sub_eq_add_neg]

theorem countdown_last {cap : Nat} {b : AxisBank} (h : b.curCnt = 1#32) :
    countdown cap b = (refill cap b.stepped, some b.curDir) := by
  rw [countdown_of_one h, emitStep_eq_stepped]
  rfl

theorem countdown_more {cap : Nat} {b : AxisBank} (h : b.curCnt ≠ 1#32) :
    countdown cap b = ({ b with curCnt := b.curCnt - 1#32 }, none) := by
  have hmore : b.curCnt - 1#32 ≠ 0#32 := by bv_omega
  simp [countdown, hmore]

theorem refill_of_loaded {cap : Nat} {b : AxisBank} (h : b.curRem ≠ 0#32) : refill cap b = b := if_neg h

theorem refill_of_empty {cap : Nat} {b : AxisBank} (hrem : b.curRem = 0#32) (hring : b.head = b.tail) :
    refill cap b = { b with active := false } := by
  rw [refill, if_pos hrem, loadNext, depth_of_eq hring, loadLoop]

theorem refill_of_valid_record {cap : Nat} {b : AxisBank} (hrem : b.curRem = 0#32) (hh : b.head < 2 * cap)
    (ht : b.tail < 2 * cap) (hne : b.head ≠ b.tail) (hcount : (memRead cap b b.head).count ≠ 0#32)
    (hdelay : (memRead cap b b.head).delay ≠ 0#32) : refill cap b = b.loadHead cap := by
  rw [refill, if_pos hrem]
  exact loadNext_of_valid_record hh ht hne hcount hdelay

theorem eligible_of_flags {b : AxisBank} (ha : b.active = true) (hp : b.paused = false) (he : b.estop = false) :
    b.eligible = true := by
  simp [AxisBank.eligible, ha, hp, he]

theorem tickBank_of_loaded {cap : Nat} {b : AxisBank} (he : b.eligible = true) (h : b.curRem ≠ 0#32) :
    tickBank cap b = countdown cap b := by
  have ha : b.active = true := by simp_all [AxisBank.eligible]
  rw [tickBank_of_eligible he, refill_of_loaded h, if_pos ha]

/-! ## The chunks at the head of a ring of valid chunks (10_state R53) -/

theorem RingValid.head_valid {cap : Nat} {b : AxisBank} (h : RingValid cap b) (hne : b.head ≠ b.tail) :
    (memRead cap b b.head).count ≠ 0#32 ∧ (memRead cap b b.head).delay ≠ 0#32 := by
  have hring := ringChunks_head_succ (c := b.loadHead cap) h.head_lt h.tail_lt
    (mt (depth_eq_zero h.head_lt h.tail_lt).1 hne) rfl rfl rfl
  exact h.chunks_valid _ (hring ▸ List.mem_cons_self)

theorem RingValid.loadHead {cap : Nat} {b : AxisBank} (h : RingValid cap b) (hne : b.head ≠ b.tail) :
    RingValid cap (b.loadHead cap) := by
  have hdepth := mt (depth_eq_zero h.head_lt h.tail_lt).1 hne
  have hring := ringChunks_head_succ (c := b.loadHead cap) h.head_lt h.tail_lt hdepth rfl rfl rfl
  exact ⟨(depth_head_succ (c := b.loadHead cap) h.head_lt h.tail_lt hdepth rfl rfl).1, h.tail_lt,
    fun c hc => h.chunks_valid c (hring ▸ List.mem_cons_of_mem _ hc)⟩

theorem RingValid.stepped {cap : Nat} {b : AxisBank} (h : RingValid cap b) : RingValid cap b.stepped :=
  ⟨h.head_lt, h.tail_lt, h.chunks_valid⟩

theorem RingValid.refill_eq_loadHead {cap : Nat} {b : AxisBank} (h : RingValid cap b) (hrem : b.curRem = 0#32)
    (hne : b.head ≠ b.tail) : refill cap b = b.loadHead cap :=
  refill_of_valid_record hrem h.head_lt h.tail_lt hne (h.head_valid hne).1 (h.head_valid hne).2

/-! ## The planned position under a TICK (10_state R35) -/

/-- A load moves a chunk's steps from the ring to the registers. -/
theorem planned_loadHead {cap : Nat} {b : AxisBank} (h : RingValid cap b) (hrem : b.curRem = 0#32)
    (hne : b.head ≠ b.tail) : (b.loadHead cap).planned cap = b.planned cap := by
  have hring := ringChunks_head_succ (c := b.loadHead cap) h.head_lt h.tail_lt
    (mt (depth_eq_zero h.head_lt h.tail_lt).1 hne) rfl rfl rfl
  have hnone : signed b.curDir (0#32).toNat = 0 := by cases b.curDir <;> rfl
  rw [AxisBank.planned, AxisBank.planned, hring, hrem, hnone, add_zero, List.map_cons, List.sum_cons, ← add_assoc]
  rfl

theorem planned_refill {cap : Nat} {b : AxisBank} (h : RingValid cap b) :
    (refill cap b).planned cap = b.planned cap := by
  by_cases hrem : b.curRem = 0#32
  · by_cases hne : b.head = b.tail
    · rw [refill_of_empty hrem hne]
      rfl
    · rw [h.refill_eq_loadHead hrem hne, planned_loadHead h hrem hne]
  · rw [refill_of_loaded hrem]

theorem signed_pred (d : Dir) {n : BitVec 32} (h : n ≠ 0#32) :
    signed d (n - 1#32).toNat = signed d n.toNat - signed d 1 := by
  have hpred : ((n - 1#32).toNat : Int) = n.toNat - 1 := by bv_omega
  rw [hpred]
  cases d
  · rfl
  · exact neg_sub' _ _

theorem stepped_pos (b : AxisBank) : b.stepped.pos = b.pos + BitVec.ofInt 64 (signed b.curDir 1) := by
  rw [AxisBank.stepped]
  cases b.curDir
  · rfl
  · exact BitVec.sub_eq_add_neg _ _

/-- A step moves `pos` by what the loaded chunk loses, up to the wrap of `pos` (R143). -/
theorem planned_stepped {cap : Nat} {b : AxisBank} (h : b.curRem ≠ 0#32) :
    BitVec.ofInt 64 (b.stepped.planned cap) = BitVec.ofInt 64 (b.planned cap) := by
  have hrem : signed b.stepped.curDir b.stepped.curRem.toNat =
      signed b.curDir b.curRem.toNat - signed b.curDir 1 := signed_pred b.curDir h
  have hring : ringChunks cap b.stepped = ringChunks cap b := rfl
  rw [AxisBank.planned, AxisBank.planned, hrem, hring, sub_eq_add_neg]
  simp only [BitVec.ofInt_add, BitVec.ofInt_toInt, BitVec.ofInt_neg, stepped_pos]
  abel

theorem planned_tickBank {cap : Nat} {b : AxisBank} (h : BankInv cap b) :
    BitVec.ofInt 64 ((tickBank cap b).1.planned cap) = BitVec.ofInt 64 (b.planned cap) := by
  cases he : b.eligible with
  | false => rw [tickBank_ineligible he]
  | true =>
    have ha : b.active = true := by simp_all [AxisBank.eligible]
    rw [tickBank_of_eligible he, ← planned_refill h.ringValid]
    split
    · have hloaded := (h.refill_serviced ha).2.loaded ‹_›
      by_cases hcnt : (refill cap b).curCnt = 1#32
      · rw [countdown_last hcnt, planned_refill hloaded.ring.stepped, planned_stepped hloaded.curRem_ne]
      · rw [countdown_more hcnt]
        rfl
    · rfl

/-! ## A run of TICKs (40_scheduler R150) -/

/-- A TICK neither reads nor writes the SafetyState. -/
theorem execAll_ticks_setSafety (x : SafetyState) {n : Nat} {s t : State}
    (h : execAll (List.replicate n .tick) s = .next t) :
    execAll (List.replicate n .tick) { s with safety := x } = .next { t with safety := x } := by
  induction n generalizing s with
  | zero => cases h; rfl
  | succ n ih =>
    simp only [List.replicate_succ, execAll, exec_tick_eq] at h ⊢
    exact ih h

/-- The first TICK of an eligible axis sets it on its train. -/
theorem onTrain_first_tick {a : Axis} {s t : State} (hsafety : s.safety ≠ .emergencyStopped)
    (hinv : BankInv s.cfg.cap (s.bank a)) (he : (s.bank a).eligible = true) (ht : exec .tick s = .next t) :
    OnTrain a (s.pulses a) ((s.bank a).train s.cfg.cap) 1 t := by
  have hcfg := exec_tick_cfg ht
  have hbank := exec_tick_bank ht a
  obtain ⟨-, -, -, hpaused, hestop⟩ := tickBank_frame s.cfg.cap (s.bank a)
  obtain ⟨⟨-, hunpaused⟩, hunstopped⟩ : ((s.bank a).active = true ∧ (s.bank a).paused = false) ∧
      (s.bank a).estop = false := by simpa [AxisBank.eligible] using he
  refine ⟨?safety, ?inv, ?unpaused, ?unstopped, ?ahead, ?active, ?pulses⟩
  case safety => rwa [exec_tick_safety ht]
  case inv => rw [hcfg, hbank]; exact hinv.tickBank_keeps.1
  case unpaused => rw [hbank, hpaused, hunpaused]
  case unstopped => rw [hbank, hestop, hunstopped]
  case ahead => rw [hcfg, hbank, (train_tickBank hinv he).1, List.drop_one]
  case active => rw [hbank]; exact tickBank_active_iff hinv he
  case pulses => rw [exec_tick_pulses ht a, tickBank_pulse hinv he]

end Sys2Proof.Machine

namespace Sys2Proof.Proofs

open Sys2Proof.Machine

/-- Settles O25: the countdown, and after its end the step and the reload that may follow. -/
theorem tickStepsLoadedAxis : Obligations.TickStepsLoadedAxis := by
  intro s a b next moved hactive hpaused hestop hrem
  obtain ⟨t, ht⟩ := exec_next .tick s
  have htick : tickBank s.cfg.cap (s.bank a) = countdown s.cfg.cap b :=
    tickBank_of_loaded (eligible_of_flags hactive hpaused hestop) hrem
  refine ⟨t, ht, ?_⟩
  rw [exec_tick_bank ht, exec_tick_pulses ht, htick]
  split_ifs with hcnt hmore hempty
  · rw [countdown_more hcnt]
    exact ⟨List.append_nil _, rfl⟩
  all_goals rw [countdown_last (not_not.1 hcnt)]; refine ⟨rfl, ?_⟩
  · have hstill : b.stepped.curRem ≠ 0#32 := by
      have hless : b.curRem - 1#32 ≠ 0#32 := by bv_omega
      exact hless
    exact refill_of_loaded hstill
  all_goals
    have hlast : b.stepped.curRem = 0#32 := by
      have hzero : b.curRem - 1#32 = 0#32 := by bv_omega
      exact hzero
  · exact refill_of_empty hlast hempty
  · exact fun hh ht hcount hdelay => refill_of_valid_record hlast hh ht hempty hcount hdelay

/-- Settles O26: the load, the first countdown, and after a chunk of one TICK a second load. -/
theorem tickLoadsChunk : Obligations.TickLoadsChunk := by
  intro s a b next loaded hactive hpaused hestop hrem hinv
  obtain ⟨t, ht⟩ := exec_next .tick s
  have he := eligible_of_flags hactive hpaused hestop
  have hvalid := hinv.ringValid
  refine ⟨t, ht, ?_⟩
  rw [exec_tick_bank ht, exec_tick_pulses ht]
  by_cases hempty : b.head = b.tail
  · rw [if_pos hempty, tickBank_of_eligible he, refill_of_empty hrem hempty]
    exact ⟨rfl, List.append_nil _⟩
  have htick : tickBank s.cfg.cap (s.bank a) = countdown s.cfg.cap (b.loadHead s.cfg.cap) := by
    rw [tickBank_of_eligible he, hvalid.refill_eq_loadHead hrem hempty]
    exact if_pos hactive
  rw [if_neg hempty, htick]
  by_cases hone : next.delay = 1#32
  · have hring := (hvalid.loadHead hempty).stepped
    rw [if_neg (not_not.2 hone), countdown_last hone]
    intro stepped after
    have hstep : (b.loadHead s.cfg.cap).stepped = stepped :=
      congrArg (fun cnt => { (b.loadHead s.cfg.cap).stepped with curCnt := cnt }) hone
    rw [hstep] at hring ⊢
    refine ⟨rfl, ?_⟩
    split_ifs with hmore hend
    · have hstill : next.count - 1#32 ≠ 0#32 := by bv_omega
      exact refill_of_loaded hstill
    all_goals have hlast : next.count - 1#32 = 0#32 := by bv_omega
    · exact refill_of_empty hlast hend
    · have hslot : memRead s.cfg.cap stepped stepped.head = after := by
        rw [memRead, mod_two_mul_mod]
        rfl
      have hhead : (stepped.head + 1) % (2 * s.cfg.cap) = (b.head + 2) % (2 * s.cfg.cap) := Nat.mod_add_mod _ _ _
      refine (hring.refill_eq_loadHead hlast hend).trans ?_
      rw [AxisBank.loadHead, hslot, hhead]
  · rw [if_pos hone, countdown_more hone]
    exact ⟨rfl, List.append_nil _⟩

/-- Settles O28: the first TICK sets the axis on its train, and the others play it on. -/
theorem pulseTrain : Obligations.PulseTrain := by
  intro s a n hinv he
  obtain ⟨t, ht⟩ := execAll_next (List.replicate n .tick) s
  refine ⟨t, ht, ?_⟩
  cases n with
  | zero =>
    cases ht
    exact ⟨by simp, nofun⟩
  | succ n =>
    have hrun := execAll_ticks_setSafety .normal ht
    obtain ⟨u, hu⟩ := exec_next .tick { s with safety := .normal }
    simp only [List.replicate_succ, execAll, hu] at hrun
    have hfirst := onTrain_first_tick (s := { s with safety := .normal }) (a := a) (by simp) hinv he hu
    obtain ⟨hon, -⟩ := hfirst.ticks hrun
    rw [Nat.add_comm 1 n] at hon
    refine ⟨hon.pulses, fun _ => ?_⟩
    exact Bool.eq_iff_iff.2 (hon.active.trans decide_eq_true_iff.symm)

/-- Settles O30: loads keep the planned position, steps keep it up to the wrap; an idle axis holds no chunk (R53 I3). -/
theorem tickKeepsPlanned : Obligations.TickKeepsPlanned := by
  intro s a hinv
  obtain ⟨t, ht⟩ := exec_next .tick s
  refine ⟨⟨t, ht, ?kept⟩, fun hidle => ?idle⟩
  case kept =>
    rw [State.planned, State.planned, exec_tick_cfg ht, exec_tick_bank ht]
    exact planned_tickBank hinv
  case idle =>
    obtain ⟨hdepth, hrem⟩ := hinv.idle_empty hidle
    rw [State.planned, AxisBank.planned, ringChunks_of_empty hdepth, hrem]
    cases (s.bank a).curDir <;> simp [signed]

end Sys2Proof.Proofs
end

section
/-!
PROOF. An accepted G0 or G1 (43_command_interpreter R251, R252): the pieces its ENQUEUEs append to the traverse's ring,
and where the traverse is planned to stand after them.
-/

namespace Sys2Proof.Machine

/-! ## The pieces of a move (43_command_interpreter R252) -/

/-- The pieces of a move of `m` steps, the full ones first. -/
def movePieces (d : Dir) (l : BitVec 32) (m : Nat) : List Chunk :=
  (List.range (pieceCount m)).map fun k => ⟨BitVec.ofNat 32 (min (2 ^ 32 - 1) (m - k * (2 ^ 32 - 1))), l, d⟩

@[simp] theorem movePieces_length (d : Dir) (l : BitVec 32) (m : Nat) : (movePieces d l m).length = pieceCount m := by
  simp [movePieces]

@[simp] theorem movePieces_zero (d : Dir) (l : BitVec 32) : movePieces d l 0 = [] := rfl

theorem pieceCount_of_ne {m : Nat} (h : m ≠ 0) : pieceCount m = pieceCount (m - min m maxWord32) + 1 := by
  have hstep (k : Nat) : pieceCount m ≤ k + 1 ↔ pieceCount (m - min m maxWord32) ≤ k := by
    rw [pieceCount_le_iff, pieceCount_le_iff, Nat.mul_succ]
    omega
  have hpos : pieceCount m ≠ 0 := fun hzero => h (by simpa using (pieceCount_le_iff m 0).1 hzero.le)
  have hupper := (hstep _).2 le_rfl
  have hlower := (hstep (pieceCount m - 1)).1 (by omega)
  omega

theorem movePieces_of_ne (d : Dir) (l : BitVec 32) {m : Nat} (h : m ≠ 0) :
    movePieces d l m =
      ⟨BitVec.ofNat 32 (min m maxWord32), l, d⟩ :: movePieces d l (m - min m maxWord32) := by
  rw [movePieces, pieceCount_of_ne h, List.range_succ_eq_map, List.map_cons, List.map_map, movePieces]
  refine congrArg₂ _ (by rw [Nat.zero_mul, Nat.sub_zero, Nat.min_comm]; rfl) (List.map_congr_left fun k _ => ?_)
  have hrest : m - (k + 1) * maxWord32 = m - min m maxWord32 - k * maxWord32 := by
    rw [Nat.succ_mul]
    omega
  exact congrArg (fun r => (⟨BitVec.ofNat 32 (min maxWord32 r), l, d⟩ : Chunk)) hrest

theorem toNat_min_maxWord32 (m : Nat) : (BitVec.ofNat 32 (min m maxWord32)).toNat = min m maxWord32 := by
  rw [BitVec.toNat_ofNat]
  exact Nat.mod_eq_of_lt (by unfold maxWord32; omega)

/-- The pieces make up the whole move. -/
theorem movePieces_sum (d : Dir) (l : BitVec 32) (m : Nat) :
    ((movePieces d l m).map fun c => signed c.dir c.count.toNat).sum = signed d m := by
  induction m using Nat.strong_induction_on with
  | _ m ih =>
    obtain rfl | h := eq_or_ne m 0
    · cases d <;> rfl
    · have hless : m - min m maxWord32 < m := by unfold maxWord32; omega
      rw [movePieces_of_ne d l h, List.map_cons, List.sum_cons, ih _ hless, toNat_min_maxWord32]
      cases d <;> simp only [signed] <;> omega

/-! ## Chunks appended to a ring (41_move_queue R170) -/

/-- What ENQUEUEs of `cs`, one after another, have made of a bank. -/
structure Appended (cap : Nat) (b c : AxisBank) (cs : List Chunk) : Prop where
  tail : c.tail = (b.tail + cs.length) % (2 * cap)
  slots : ∀ j, (∀ k < cs.length, j % cap ≠ (b.tail + k) % cap) → memRead cap c j = memRead cap b j
  chunks : ringChunks cap c = ringChunks cap b ++ cs
  active : c.active = (b.active || !cs.isEmpty)

theorem Appended.nil {cap : Nat} {b : AxisBank} (h : BankInv cap b) : Appended cap b b [] where
  tail := (Nat.mod_eq_of_lt h.tail_lt).symm
  slots _ _ := rfl
  chunks := (List.append_nil _).symm
  active := by simp

theorem Appended.cons {cap : Nat} {b d : AxisBank} {c : Chunk} {cs : List Chunk} (h : BankInv cap b)
    (hroom : b.depth cap < cap) (hrest : Appended cap (b.enqueued cap c) d cs) : Appended cap b d (c :: cs) where
  tail := by
    rw [hrest.tail, AxisBank.enqueued, Nat.mod_add_mod, List.length_cons, Nat.add_right_comm, Nat.add_assoc]
  slots j hj := by
    have hfirst := hj 0 (Nat.succ_pos _)
    refine (hrest.slots j fun k hk => ?_).trans (memRead_memWrite_ne b c hfirst)
    have hnext := hj (k + 1) (Nat.succ_lt_succ hk)
    rwa [AxisBank.enqueued, Nat.add_mod, mod_two_mul_mod, ← Nat.add_mod, Nat.add_right_comm, Nat.add_assoc]
  chunks := by rw [hrest.chunks, h.ringChunks_enqueued hroom, List.append_assoc, List.singleton_append]
  active := by rw [hrest.active]; simp [AxisBank.enqueued]

/-- Appended chunks move the planned position by their steps (10_state R35). -/
theorem Appended.planned {cap : Nat} {b c : AxisBank} {cs : List Chunk} (h : Appended cap b c cs)
    (hframe : c = { b with ring := c.ring, tail := c.tail, active := c.active }) :
    c.planned cap = b.planned cap + (cs.map fun e => signed e.dir e.count.toNat).sum := by
  have hloaded : c.pos = b.pos ∧ c.curDir = b.curDir ∧ c.curRem = b.curRem := by rw [hframe]; exact ⟨rfl, rfl, rfl⟩
  obtain ⟨hpos, hdir, hrem⟩ := hloaded
  rw [AxisBank.planned, AxisBank.planned, h.chunks, hpos, hdir, hrem, List.map_append, List.sum_append,
    ← add_assoc]

/-- A move appends its pieces to the traverse's ring, where there is room for them. -/
theorem enqueueMove_appended {d : Dir} {l : BitVec 32} (hl : l ≠ 0#32) {n m : Nat} {s : State}
    (hsafety : s.safety ≠ .emergencyStopped) (hestop : s.traverse.estop = false)
    (hinv : BankInv s.cfg.cap s.traverse) (hn : pieceCount m ≤ n)
    (hroom : s.traverse.depth s.cfg.cap + pieceCount m ≤ s.cfg.cap) :
    Appended s.cfg.cap s.traverse (enqueueMove d l n m s).traverse (movePieces d l m) := by
  induction n generalizing m s with
  | zero =>
    have hm : m = 0 := by simpa using (pieceCount_le_iff m 0).1 hn
    rw [hm, movePieces_zero]
    exact .nil hinv
  | succ n ih =>
    rw [enqueueMove]
    split
    · rw [‹m = 0›, movePieces_zero]
      exact .nil hinv
    · rename_i hm
      have hcount := pieceCount_of_ne hm
      have hvalid : Chunk.Valid ⟨BitVec.ofNat 32 (min m maxWord32), l, d⟩ := by
        refine ⟨fun hzero => ?_, hl⟩
        have hnat := toNat_min_maxWord32 m
        rw [show BitVec.ofNat 32 (min m maxWord32) = 0#32 from hzero] at hnat
        unfold maxWord32 at hnat
        simp only [BitVec.toNat_ofNat] at hnat
        omega
      have hless : s.traverse.depth s.cfg.cap < s.cfg.cap := by omega
      have hop := enqueueOp_of_valid (a := .traverse) (d := d) hsafety hestop hvalid.1 hl hless.ne
      rw [movePieces_of_ne d l hm]
      dsimp only
      rw [hop]
      have hdepth := (hinv.depth_enqueued hless ⟨BitVec.ofNat 32 (min m maxWord32), l, d⟩).2
      refine .cons hinv hless (ih (s := s.setBank .traverse (s.traverse.enqueued s.cfg.cap
        ⟨BitVec.ofNat 32 (min m maxWord32), l, d⟩)) hsafety hestop (hinv.enqueue_keeps hless hestop hvalid) (by omega) ?_)
      exact (Nat.add_le_add_right hdepth.le _).trans (show _ ≤ s.cfg.cap by omega)

/-! ## The target of a move (43_command_interpreter R252) -/

/-- The direction of `n` steps. -/
def dirOf (n : Int) : Dir := if 0 < n then .forward else .reverse

theorem signed_dirOf (n : Int) : signed (dirOf n) n.natAbs = n := by
  unfold dirOf
  split <;> simp only [signed] <;> omega

@[simp] theorem enqueueMove_zero (d : Dir) (l : BitVec 32) (n : Nat) (s : State) : enqueueMove d l n 0 s = s := by
  cases n <;> rfl

/-- The state after the pieces of an accepted move to `y` at the feed rate `f`. -/
def moveState (y f : Rat) (s : State) : State :=
  enqueueMove (dirOf (steps s.cfg y - s.planned .traverse)) (BitVec.ofInt 32 (feedDelay s.cfg f)) s.cfg.cap
    (steps s.cfg y - s.planned .traverse).natAbs s

theorem moveState_frame (y f : Rat) (s : State) :
    moveState y f s = { s with traverse := { s.traverse with
      ring := (moveState y f s).traverse.ring
      tail := (moveState y f s).traverse.tail
      active := (moveState y f s).traverse.active } } := enqueueMove_frame _ _ _ _ s

theorem moveState_of_still {y f : Rat} {s : State} (h : steps s.cfg y - s.planned .traverse = 0) :
    moveState y f s = s := by
  rw [moveState, h, Int.natAbs_zero, enqueueMove_zero]

section

variable {y f : Rat} {s : State} (hlow : 1 ≤ feedDelay s.cfg f) (hhigh : feedDelay s.cfg f ≤ 2 ^ 32 - 1)
  (hroom : s.traverse.depth s.cfg.cap + pieceCount (steps s.cfg y - s.planned .traverse).natAbs ≤ s.cfg.cap)

include hlow hhigh hroom

/-- A move within its bounds enqueues its pieces, none of them for a move of no steps. -/
theorem moveTo_of_fits : moveTo y f s = .ok { moveState y f s with feed := f } := by
  have hdelay : ¬(feedDelay s.cfg f < 1 ∨ (maxWord32 : Int) < feedDelay s.cfg f) :=
    not_or.2 ⟨not_lt.2 hlow, not_lt.2 hhigh⟩
  have hfits : ¬(s.cfg.cap : Int) - s.depth .traverse < pieceCount (steps s.cfg y - s.planned .traverse).natAbs := by
    have hdepth : s.depth .traverse = s.traverse.depth s.cfg.cap := rfl
    omega
  unfold moveTo
  refine (if_neg hdelay).trans ?_
  by_cases hn : steps s.cfg y - s.planned .traverse = 0
  · rw [if_pos hn, moveState_of_still hn]
  · exact (if_neg hn).trans (if_neg hfits)

theorem moveState_appended (hsafety : s.safety ≠ .emergencyStopped) (hestop : s.traverse.estop = false)
    (hinv : BankInv s.cfg.cap s.traverse) :
    Appended s.cfg.cap s.traverse (moveState y f s).traverse (movePieces (dirOf (steps s.cfg y - s.planned .traverse))
      (BitVec.ofInt 32 (feedDelay s.cfg f)) (steps s.cfg y - s.planned .traverse).natAbs) := by
  refine enqueueMove_appended (fun hzero => ?_) hsafety hestop hinv (by omega) hroom
  have hnat := congrArg BitVec.toNat hzero
  simp only [BitVec.toNat_ofInt, BitVec.toNat_ofNat] at hnat
  omega

end

end Sys2Proof.Machine

namespace Sys2Proof.Proofs

open Sys2Proof.Machine

/-- Settles O40: the pieces append the missing steps to the ring, and planned(TRAVERSE) counts them. -/
theorem moveReachesTarget : Obligations.MoveReachesTarget := by
  intro s ps y f i hi hinv hsafety hestop hx hy hmin hmax hf hpos hfast hlow hhigh n pieces hfits
  have hrun : ¬(s.safety = .emergencyStopped ∨ s.traverse.estop = true) := by simp [hsafety, hestop]
  have hfeed : moveFeed ps s = some f := by
    rw [← hf]
    refine moveFeed_eq_some ?_
    rw [hf]
    exact fun hbad => hbad.2.elim (not_le.2 hpos) (not_lt.2 hfast)
  have hbank := hinv.banks .traverse
  have hpieces : pieces = pieceCount n.natAbs := by
    have hceil := pieceCount_eq_ceil n.natAbs
    exact (congrArg Int.toNat hceil.symm).trans (Int.toNat_natCast _)
  have hroom : s.traverse.depth s.cfg.cap + pieceCount n.natAbs ≤ s.cfg.cap := by
    have hdepth : s.traverse.depth s.cfg.cap ≤ s.cfg.cap := hbank.depth_le
    have hcount : n.natAbs ≤ maxWord32 * (s.cfg.cap - s.traverse.depth s.cfg.cap) := by
      rw [← Int.ofNat_le, Nat.cast_mul, Nat.cast_sub hdepth]
      exact hfits
    rw [← pieceCount_le_iff] at hcount
    omega
  have hmove := (moveOp_eq_moveTo hrun (by simp [hx]) hy (not_or.2 ⟨not_lt.2 hmin, not_lt.2 hmax⟩) hfeed).trans
    (moveTo_of_fits hlow hhigh hroom)
  have hexec : exec i s = .next (reply (ascii "OK") { moveState y f s with feed := f }) := by
    obtain rfl | rfl := hi <;> exact finishLine_ok hmove
  have happ := moveState_appended hlow hhigh hroom hsafety hestop hbank
  have hframe := moveState_frame y f s
  have hstill : n = 0 → moveState y f s = s := moveState_of_still
  refine ⟨_, hexec, ?_⟩
  rw [hpieces]
  generalize moveState y f s = u at happ hframe hstill
  have hbankFrame : u.traverse = { s.traverse with
      ring := u.traverse.ring, tail := u.traverse.tail, active := u.traverse.active } := congrArg State.traverse hframe
  have hcap : u.cfg.cap = s.cfg.cap := by rw [hframe]
  have hlen := movePieces_length (dirOf n) (BitVec.ofInt 32 (feedDelay s.cfg f)) n.natAbs
  refine ⟨?frame, ?planned, ?still, ?active, ?tail, ?slots, happ.chunks⟩
  case frame => rw [hframe]; rfl
  case planned =>
    calc u.traverse.planned u.cfg.cap = s.planned .traverse + n := by
          rw [hcap, happ.planned hbankFrame, movePieces_sum, signed_dirOf]
          rfl
      _ = steps s.cfg y := by omega
  case still =>
    intro hzero
    have hsame : u.traverse = s.traverse := congrArg State.traverse (hstill hzero)
    exact hsame
  case active =>
    intro hn
    have hsome : pieceCount n.natAbs ≠ 0 := by
      rw [pieceCount_of_ne (Int.natAbs_ne_zero.2 hn)]
      exact Nat.succ_ne_zero _
    refine happ.active.trans ?_
    rw [← hlen, ne_eq, List.length_eq_zero_iff] at hsome
    rw [List.isEmpty_eq_false_iff.2 hsome]
    exact Bool.or_true _
  case tail => exact hlen ▸ happ.tail
  case slots => exact hlen ▸ happ.slots

end Sys2Proof.Proofs
end

section
/-!
PROOF. binary32 (42_rpm_estimator R228, 30_encoding R104): the default format's rounding is IEEE 754's round to nearest,
ties to even, and the word of a binary32 number is its image.
-/

namespace Sys2Proof.Machine

/-! ## Rounding to a natural number, ties to even -/

/-- The rounding of a number by its floor. -/
theorem roundEven_cases {q : Rat} (h : 0 ≤ q) : ∃ f : Nat, (f : Rat) ≤ q ∧ q < f + 1 ∧
    ((q - f < 1 / 2 ∧ roundEven q = f) ∨ (1 / 2 < q - f ∧ roundEven q = f + 1) ∨
      (q - f = 1 / 2 ∧ roundEven q % 2 = 0 ∧ (roundEven q = f ∨ roundEven q = f + 1))) := by
  obtain ⟨f, hf⟩ := Int.eq_ofNat_of_zero_le (Int.floor_nonneg.2 h)
  have hlow : (f : Rat) ≤ q := by simpa [hf] using Int.floor_le q
  have hhigh : q < f + 1 := by simpa [hf] using Int.lt_floor_add_one q
  have hfloor : q.floor.toNat = f := congrArg Int.toNat hf
  have hhalf : mkRat 1 2 = (1 / 2 : Rat) := by rw [Rat.mkRat_eq_div]; norm_num
  refine ⟨f, hlow, hhigh, ?_⟩
  unfold roundEven
  dsimp only
  rw [hfloor, hhalf]
  split
  · exact .inl ⟨‹_›, rfl⟩
  · split
    · exact .inr (.inl ⟨‹_›, rfl⟩)
    · refine .inr (.inr ⟨le_antisymm (not_lt.1 ‹_›) (not_lt.1 ‹_›), ?_⟩)
      split
      · exact ⟨‹_›, .inl rfl⟩
      · exact ⟨by omega, .inr rfl⟩

theorem abs_roundEven_sub_le {q : Rat} (h : 0 ≤ q) : |(roundEven q : Rat) - q| ≤ 1 / 2 := by
  obtain ⟨f, hlow, hhigh, ⟨hr, heq⟩ | ⟨hr, heq⟩ | ⟨hr, -, heq | heq⟩⟩ := roundEven_cases h <;>
    rw [heq, abs_le] <;> push_cast <;> constructor <;> linarith

theorem roundEven_even_of_half {q : Rat} (h : 0 ≤ q) (hhalf : |(roundEven q : Rat) - q| = 1 / 2) :
    roundEven q % 2 = 0 := by
  obtain ⟨f, hlow, hhigh, ⟨hr, heq⟩ | ⟨hr, heq⟩ | ⟨-, heven, -⟩⟩ := roundEven_cases h
  · rw [heq, abs_sub_comm, abs_of_nonneg (by linarith)] at hhalf
    linarith
  · rw [heq, abs_of_nonneg (by push_cast; linarith)] at hhalf
    push_cast at hhalf
    linarith
  · exact heven

/-- Another integer is at least as far from `q` as half a unit. -/
theorem half_le_abs_sub_of_ne {q : Rat} (h : 0 ≤ q) {k : Int} (hk : k ≠ roundEven q) : 1 / 2 ≤ |(k : Rat) - q| := by
  have hapart : (1 : Rat) ≤ |(k : Rat) - (roundEven q : Rat)| := by
    exact_mod_cast Int.one_le_abs (sub_ne_zero.2 hk)
  have hle := abs_roundEven_sub_le h
  have htriangle := abs_sub_le (k : Rat) q (roundEven q)
  rw [abs_sub_comm q] at htriangle
  linarith

theorem roundEven_nearest {q : Rat} (h : 0 ≤ q) (k : Int) : |(roundEven q : Rat) - q| ≤ |(k : Rat) - q| := by
  by_cases hk : k = roundEven q
  · rw [hk, Int.cast_natCast]
  · exact (abs_roundEven_sub_le h).trans (half_le_abs_sub_of_ne h hk)

theorem roundEven_tie {q : Rat} (h : 0 ≤ q) {k : Int} (hk : k ≠ roundEven q)
    (heq : |(roundEven q : Rat) - q| = |(k : Rat) - q|) : roundEven q % 2 = 0 :=
  roundEven_even_of_half h ((abs_roundEven_sub_le h).antisymm ((half_le_abs_sub_of_ne h hk).trans heq.ge))

theorem roundEven_natCast (n : Nat) : roundEven (n : Rat) = n := by
  have hnear := roundEven_nearest (Nat.cast_nonneg (α := Rat) n) n
  rw [Int.cast_natCast, sub_self, abs_zero, abs_nonpos_iff, sub_eq_zero] at hnear
  exact_mod_cast hnear

/-! ## The binary exponent and the unit in the last place -/

/-- A fraction lies within a factor of 2 of the quotient of the powers of 2 below its parts. -/
theorem log2_quotient_bounds {a b : Nat} (ha : a ≠ 0) (hb : b ≠ 0) :
    (2 : Rat) ^ ((a.log2 : Int) - b.log2 - 1) ≤ (a / b : Rat) ∧
      (a / b : Rat) < (2 : Rat) ^ ((a.log2 : Int) - b.log2 + 1) := by
  have hbpos : (0 : Rat) < b := Nat.cast_pos.2 (Nat.pos_of_ne_zero hb)
  have halow : (2 : Rat) ^ a.log2 ≤ a := by exact_mod_cast Nat.log2_self_le ha
  have hahigh : (a : Rat) < 2 ^ (a.log2 + 1) := by exact_mod_cast Nat.lt_log2_self
  have hblow : (2 : Rat) ^ b.log2 ≤ b := by exact_mod_cast Nat.log2_self_le hb
  have hbhigh : (b : Rat) ≤ 2 ^ (b.log2 + 1) := by exact_mod_cast Nat.lt_log2_self.le
  constructor
  · rw [show (a.log2 : Int) - b.log2 - 1 = a.log2 - (b.log2 + 1 : Nat) by push_cast; ring, zpow_sub₀ two_ne_zero,
      zpow_natCast, zpow_natCast]
    exact div_le_div₀ (Nat.cast_nonneg _) halow hbpos hbhigh
  · rw [show (a.log2 : Int) - b.log2 + 1 = (a.log2 + 1 : Nat) - b.log2 by push_cast; ring, zpow_sub₀ two_ne_zero,
      zpow_natCast, zpow_natCast]
    exact div_lt_div₀ hahigh hblow (by positivity) (by positivity)

theorem floorLog2_spec {q : Rat} (h : 0 < q) : (2 : Rat) ^ floorLog2 q ≤ q ∧ q < (2 : Rat) ^ (floorLog2 q + 1) := by
  obtain ⟨a, ha⟩ := Int.eq_ofNat_of_zero_le (Rat.num_pos.2 h).le
  have hane : a ≠ 0 := fun hzero => (Rat.num_pos.2 h).ne' (by rw [ha, hzero]; rfl)
  have hq : (a / q.den : Rat) = q := by
    rw [← Int.cast_natCast a, ← ha]
    exact Rat.num_div_den q
  obtain ⟨hlow, hhigh⟩ := log2_quotient_bounds hane q.den_nz
  rw [hq] at hlow hhigh
  unfold floorLog2
  dsimp only
  rw [ha, Int.toNat_natCast]
  split
  · exact ⟨‹_›, hhigh⟩
  · exact ⟨hlow, by rw [sub_add_cancel]; exact not_le.1 ‹_›⟩

theorem lt_of_two_zpow_lt {a b : Int} (h : (2 : Rat) ^ a < (2 : Rat) ^ b) : a < b :=
  (zpow_lt_zpow_iff_right₀ one_lt_two).1 h

theorem two_zpow_pos (e : Int) : (0 : Rat) < (2 : Rat) ^ e := zpow_pos two_pos e

theorem form_lt_two_zpow {n : Nat} (hn : n < 2 ^ 24) (e : Int) : (n : Rat) * (2 : Rat) ^ e < (2 : Rat) ^ (24 + e) := by
  rw [zpow_add₀ two_ne_zero]
  exact mul_lt_mul_of_pos_right (by exact_mod_cast hn) (two_zpow_pos e)

/-- At most 24 bits stand before the unit in the last place. -/
theorem scaled_lt {q : Rat} (h : 0 < q) : q / (2 : Rat) ^ ulpExponent q < 2 ^ 24 := by
  have hfine : floorLog2 q + 1 ≤ 24 + ulpExponent q := by unfold ulpExponent; omega
  have hgrow := zpow_le_zpow_right₀ (one_le_two (α := Rat)) hfine
  rw [zpow_add₀ two_ne_zero 24] at hgrow
  rw [div_lt_iff₀ (two_zpow_pos _)]
  exact (floorLog2_spec h).2.trans_le hgrow

/-- Exactly 24 of them in a normal number. -/
theorem le_scaled {q : Rat} (h : 0 < q) (hnormal : -149 < ulpExponent q) :
    2 ^ 23 ≤ q / (2 : Rat) ^ ulpExponent q := by
  have hexp : floorLog2 q = 23 + ulpExponent q := by unfold ulpExponent at hnormal ⊢; omega
  have hlow := (floorLog2_spec h).1
  rw [hexp, zpow_add₀ two_ne_zero] at hlow
  rw [le_div_iff₀ (two_zpow_pos _)]
  exact hlow

/-- The unit in the last place of a binary32 number is that of its form. -/
theorem ulpExponent_of_form {n : Nat} {e : Int} (hpos : 0 < n) (hn : n < 2 ^ 24) (he : -149 ≤ e)
    (hform : 2 ^ 23 ≤ n ∨ e = -149) : ulpExponent (n * (2 : Rat) ^ e) = e := by
  have hq : 0 < (n : Rat) * (2 : Rat) ^ e := mul_pos (Nat.cast_pos.2 hpos) (two_zpow_pos e)
  obtain ⟨hlow, hhigh⟩ := floorLog2_spec hq
  have hupper : floorLog2 ((n : Rat) * (2 : Rat) ^ e) < 24 + e :=
    lt_of_two_zpow_lt (hlow.trans_lt (form_lt_two_zpow hn e))
  have hlower : 2 ^ 23 ≤ n → 23 + e < floorLog2 ((n : Rat) * (2 : Rat) ^ e) + 1 := by
    refine fun hfull => lt_of_two_zpow_lt (lt_of_le_of_lt ?_ hhigh)
    rw [zpow_add₀ two_ne_zero]
    exact mul_le_mul_of_nonneg_right (by exact_mod_cast hfull) (two_zpow_pos e).le
  unfold ulpExponent
  omega

/-! ## The word of a binary32 number (30_encoding R104) -/

theorem rpmWord_of_form {n : Nat} {e : Int} (hpos : 0 < n) (hn : n < 2 ^ 24) (he : -149 ≤ e) (hmax : e ≤ 104)
    (hform : 2 ^ 23 ≤ n ∨ e = -149) : rpmWord .binary32 (n * (2 : Rat) ^ e) =
      BitVec.ofNat 64 (if n < 2 ^ 23 then n else (e + 150).toNat * 2 ^ 23 + (n - 2 ^ 23)) := by
  have hq : 0 < (n : Rat) * (2 : Rat) ^ e := mul_pos (Nat.cast_pos.2 hpos) (two_zpow_pos e)
  have hscaled : (n : Rat) * (2 : Rat) ^ e / (2 : Rat) ^ e = n := mul_div_cancel_right₀ _ (two_zpow_pos e).ne'
  have hulp := ulpExponent_of_form hpos hn he hform
  have hfinite : (n : Rat) * (2 : Rat) ^ e < (2 : Rat) ^ (128 : Int) :=
    (form_lt_two_zpow hn e).trans_le (zpow_le_zpow_right₀ one_le_two (by omega))
  have hround : roundBinary32Magnitude (n * (2 : Rat) ^ e) = n * (2 : Rat) ^ e := by
    rw [roundBinary32Magnitude, if_neg (not_le.2 hq), hulp, hscaled, roundEven_natCast]
  have hfloor : (n : Rat).floor.toNat = n :=
    (congrArg Int.toNat (Int.floor_natCast (R := Rat) n)).trans (Int.toNat_natCast n)
  have himage : binary32Image (n * (2 : Rat) ^ e) =
      if n < 2 ^ 23 then n else (e + 150).toNat * 2 ^ 23 + (n - 2 ^ 23) := by
    rw [binary32Image, if_neg (not_le.2 hq), hulp, hscaled, hfloor]
  rw [← himage]
  exact if_pos ⟨hq.le, hfinite, hround⟩

/-! ## The nearest binary32 number (42_rpm_estimator R228) -/

/-- No binary32 number is nearer than every multiple of the unit in the last place; one as near is such a multiple. -/
theorem exists_multiple_nearer {q : Rat} (h : 0 < q) {m : Nat} {e : Int} (hm : m < 2 ^ 24) (he : -149 ≤ e) :
    ∃ k : Int, |k * (2 : Rat) ^ ulpExponent q - q| ≤ |m * (2 : Rat) ^ e - q| ∧
      (|k * (2 : Rat) ^ ulpExponent q - q| = |m * (2 : Rat) ^ e - q| →
        k * (2 : Rat) ^ ulpExponent q = m * (2 : Rat) ^ e) := by
  obtain hcoarse | hfine := le_or_gt (ulpExponent q) e
  · obtain ⟨j, hj⟩ := Int.le.dest hcoarse
    have hsame : ((m * 2 ^ j : Int) : Rat) * (2 : Rat) ^ ulpExponent q = m * (2 : Rat) ^ e := by
      rw [← hj, zpow_add₀ two_ne_zero, zpow_natCast]
      push_cast
      ring
    exact ⟨m * 2 ^ j, by rw [hsame], fun _ => hsame⟩
  · have hlow := le_scaled h (he.trans_lt hfine)
    rw [le_div_iff₀ (two_zpow_pos _)] at hlow
    have hbelow : (m : Rat) * (2 : Rat) ^ e < (2 : Rat) ^ (23 : Int) * (2 : Rat) ^ ulpExponent q := by
      rw [← zpow_add₀ two_ne_zero]
      exact (form_lt_two_zpow hm e).trans_le (zpow_le_zpow_right₀ one_le_two (by omega))
    rw [show (2 : Rat) ^ (23 : Int) = 2 ^ 23 from rfl] at hbelow
    have hless : |((2 ^ 23 : Int) : Rat) * (2 : Rat) ^ ulpExponent q - q| < |m * (2 : Rat) ^ e - q| := by
      push_cast
      rw [abs_of_nonpos (by linarith), abs_of_nonpos (by linarith)]
      linarith
    exact ⟨2 ^ 23, hless.le, fun heq => absurd heq hless.ne⟩

theorem roundBinary32Magnitude_eq {q : Rat} (h : 0 < q) : roundBinary32Magnitude q =
    (roundEven (q / (2 : Rat) ^ ulpExponent q) : Rat) * (2 : Rat) ^ ulpExponent q :=
  if_neg (not_le.2 h)

theorem abs_mul_sub_eq (x q : Rat) (e : Int) :
    |x * (2 : Rat) ^ e - q| = |x - q / (2 : Rat) ^ e| * (2 : Rat) ^ e := by
  rw [← abs_of_pos (two_zpow_pos e), ← abs_mul, abs_of_pos (two_zpow_pos e), sub_mul,
    div_mul_cancel₀ _ (two_zpow_pos e).ne']

theorem scaled_nonneg {q : Rat} (h : 0 < q) : 0 ≤ q / (2 : Rat) ^ ulpExponent q := (div_pos h (two_zpow_pos _)).le

theorem roundBinary32Magnitude_nearest {q : Rat} (h : 0 < q) {m : Nat} {e : Int} (hm : m < 2 ^ 24) (he : -149 ≤ e) :
    |roundBinary32Magnitude q - q| ≤ |m * (2 : Rat) ^ e - q| := by
  obtain ⟨k, hk, -⟩ := exists_multiple_nearer h hm he
  refine le_trans ?_ hk
  rw [roundBinary32Magnitude_eq h, abs_mul_sub_eq, abs_mul_sub_eq]
  exact mul_le_mul_of_nonneg_right (roundEven_nearest (scaled_nonneg h) k) (two_zpow_pos _).le

/-- Of two binary32 numbers equally near, the rounding takes the one of the even significand. -/
theorem roundBinary32Magnitude_tie {q : Rat} (h : 0 < q) {m : Nat} {e : Int} (hm : m < 2 ^ 24) (he : -149 ≤ e)
    (heq : |roundBinary32Magnitude q - q| = |m * (2 : Rat) ^ e - q|)
    (hne : m * (2 : Rat) ^ e ≠ roundBinary32Magnitude q) : roundEven (q / (2 : Rat) ^ ulpExponent q) % 2 = 0 := by
  obtain ⟨k, hk, hsame⟩ := exists_multiple_nearer h hm he
  rw [roundBinary32Magnitude_eq h] at heq hne
  have hnear : |(roundEven (q / (2 : Rat) ^ ulpExponent q) : Rat) * (2 : Rat) ^ ulpExponent q - q| ≤
      |k * (2 : Rat) ^ ulpExponent q - q| := by
    rw [abs_mul_sub_eq, abs_mul_sub_eq]
    exact mul_le_mul_of_nonneg_right (roundEven_nearest (scaled_nonneg h) k) (two_zpow_pos _).le
  have htie := hk.antisymm (heq.symm.le.trans hnear)
  refine roundEven_tie (scaled_nonneg h) (k := k) (fun hround => hne ?_) ?_
  · rw [← hsame htie, hround, Int.cast_natCast]
  · have hequal := heq.trans htie.symm
    rw [abs_mul_sub_eq, abs_mul_sub_eq] at hequal
    exact mul_right_cancel₀ (two_zpow_pos _).ne' hequal

/-- The rounded number in its normalised form: the significand may carry into the next binade. -/
theorem roundBinary32Magnitude_form {q : Rat} (h : 0 < q) (hmax : q < (2 : Rat) ^ 128 - (2 : Rat) ^ 103) :
    ∃ (m : Nat) (e : Int), m < 2 ^ 24 ∧ -149 ≤ e ∧ e ≤ 104 ∧ (2 ^ 23 ≤ m ∨ e = -149) ∧
      roundBinary32Magnitude q = m * (2 : Rat) ^ e ∧
      (roundEven (q / (2 : Rat) ^ ulpExponent q) % 2 = 0 → m % 2 = 0) := by
  obtain ⟨hdown, hup⟩ := abs_le.1 (abs_roundEven_sub_le (scaled_nonneg h))
  have hlt := scaled_lt h
  have hcarry : roundEven (q / (2 : Rat) ^ ulpExponent q) ≤ 2 ^ 24 := by
    rw [← Nat.lt_succ_iff, ← Nat.cast_lt (α := Rat)]
    push_cast
    linarith
  have hnormal : -149 < ulpExponent q → 2 ^ 23 ≤ roundEven (q / (2 : Rat) ^ ulpExponent q) := by
    intro hexp
    have hge := le_scaled h hexp
    rw [← Nat.lt_succ_iff, ← Nat.cast_lt (α := Rat)]
    push_cast
    linarith
  have hexpMin : -149 ≤ ulpExponent q := le_max_right _ _
  have hexpMax : ulpExponent q ≤ 104 := by
    have hbelow : q < (2 : Rat) ^ (128 : Int) := hmax.trans_le (sub_le_self _ (by positivity))
    have hlog := lt_of_two_zpow_lt ((floorLog2_spec h).1.trans_lt hbelow)
    unfold ulpExponent
    omega
  have hnoCarry : ulpExponent q = 104 → roundEven (q / (2 : Rat) ^ ulpExponent q) < 2 ^ 24 := by
    intro htop
    have hscaled : q / (2 : Rat) ^ ulpExponent q < 2 ^ 24 - 1 / 2 := by
      rw [htop, div_lt_iff₀ (two_zpow_pos _)]
      refine hmax.trans_eq ?_
      norm_num
    rw [← Nat.cast_lt (α := Rat)]
    push_cast
    linarith
  rw [roundBinary32Magnitude_eq h]
  generalize roundEven (q / (2 : Rat) ^ ulpExponent q) = r at *
  generalize ulpExponent q = u at *
  obtain hr | rfl := Nat.lt_or_eq_of_le hcarry
  · exact ⟨r, u, hr, hexpMin, hexpMax, by omega, rfl, id⟩
  · refine ⟨2 ^ 23, u + 1, by norm_num, by omega, by omega, .inl le_rfl, ?_, fun _ => by norm_num⟩
    rw [zpow_add_one₀ two_ne_zero]
    push_cast
    ring

/-- Below 2^128 - 2^103 nothing overflows (log entry 26). -/
theorem rnd_binary32_eq {q : Rat} (h : 0 < q) (hmax : q < (2 : Rat) ^ 128 - (2 : Rat) ^ 103) :
    rnd .binary32 q = roundBinary32Magnitude q := by
  obtain ⟨m, e, hm, -, he, -, hform, -⟩ := roundBinary32Magnitude_form h hmax
  have hfinite : roundBinary32Magnitude q < (2 : Rat) ^ (128 : Int) := by
    rw [hform]
    exact (form_lt_two_zpow hm e).trans_le (zpow_le_zpow_right₀ one_le_two (by omega))
  rw [rnd, if_neg (not_lt.2 h.le), roundBinary32]
  exact if_pos hfinite

theorem rnd_binary32_zero : rnd .binary32 0 = 0 := by decide +kernel

end Sys2Proof.Machine

namespace Sys2Proof.Proofs

open Sys2Proof.Machine

/-- Settles O37: a finite binary32 number is its own rounding, and its form gives the fields of its image. -/
theorem rpmWordIsBinary32Image : Obligations.RpmWordIsBinary32Image := by
  refine ⟨fun e m hmin hmax hm => ?normal, fun m hm => ?subnormal⟩
  case normal =>
    rw [rpmWord_of_form (by omega) (by omega) (by omega) (by omega) (.inl (Nat.le_add_right _ m)),
      if_neg (by omega), Nat.add_sub_cancel_left, sub_add_cancel, Int.toNat_natCast]
  case subnormal =>
    obtain rfl | hpos := Nat.eq_zero_or_pos m
    · decide +kernel
    · rw [rpmWord_of_form hpos (by omega) le_rfl (by norm_num) (.inr rfl), if_pos hm]

/-- Settles O38: the rounding takes the nearest multiple of the unit in the last place, and no binary32 number off those
multiples is nearer. -/
theorem binary32RoundsToNearest : Obligations.Binary32RoundsToNearest := by
  intro q hnonneg hmax
  obtain rfl | hpos := hnonneg.eq_or_lt
  · rw [rnd_binary32_zero, sub_self, abs_zero]
    exact ⟨fun _ _ _ _ _ => abs_nonneg _,
      0, -149, by norm_num, le_rfl, by norm_num, .inr rfl, by norm_num, fun _ _ _ _ _ _ _ => rfl⟩
  · rw [rnd_binary32_eq hpos hmax]
    obtain ⟨m, e, hm, hmin, htop, hform, heq, heven⟩ := roundBinary32Magnitude_form hpos hmax
    exact ⟨fun _ _ hm' he' _ => roundBinary32Magnitude_nearest hpos hm' he',
      m, e, hm, hmin, htop, hform, heq,
      fun _ _ hm' he' _ htie hne => heven (roundBinary32Magnitude_tie hpos hm' he' htie hne)⟩

end Sys2Proof.Proofs
end
